-- ==== Sys2Proof/Word.lean ====
section
/-! DEFINITION. The words of the block: unsigned fixed-width values (spec/00_scope.md R9). -/

namespace Sys2Proof

/-- u8 of R9: a byte of the buffer, of the bus or of the request port. -/
abbrev Byte := BitVec 8
/-- u16 of R9: the status word of R30. -/
abbrev U16 := BitVec 16
/-- u24 of R9: a sample (R112). -/
abbrev U24 := BitVec 24
/-- u32 of R9: sizes, counters, record slots (R27, R31, R34). -/
abbrev U32 := BitVec 32
/-- u40 of R9: a register frame as one value (R110, R111). -/
abbrev U40 := BitVec 40
/-- u64 of R9: the 8-byte word a register write frame is packed in (R110). -/
abbrev U64 := BitVec 64

/-- A line or a token of the host's text interface (R240), as characters. -/
abbrev Text := List Char

end Sys2Proof
end

