-- ==== Sys2Proof/Config.lean ====
section
/-! DEFINITION. The agents of spec/00_scope.md R14 and their steps, what an implementation fixes (the parameters of R7 and
the OPEN parameters of spec/92_eei_decisions.md), and the free values of the model (`draw(T)` of R10). -/

namespace Sys2Proof

/-- An asynchronous transfer kind (R180): `rx` = 0, the source's ReadIT; `txrx` = 1, ReadWriteIT. -/
inductive Kind where
  | rx
  | txrx
  deriving DecidableEq, Repr, Inhabited

/-- The three interrupt sources of R271. -/
inductive IrqSource where
  | edge
  | cpl (k : Kind)
  deriving DecidableEq, Repr, Inhabited

/-- The outcome of a data phase (R41, R162). -/
inductive PhaseOutcome where
  | ok
  | transferFailed
  | timeout
  deriving DecidableEq, Repr, Inhabited

/-- ACTIVE_DRIVER (R38): which completion hook is bound. -/
inductive Driver where
  | capture
  | register
  deriving DecidableEq, Repr, Inhabited

/-- IRQ_ORDER (R273, D4): `any` admits every order; `fixed` takes the first pending source of a list first. -/
inductive IrqOrder where
  | any
  | fixed (order : List IrqSource)
  deriving DecidableEq, Repr, Inhabited

/-- WREG_VALUE_RANGE (R244). -/
inductive WregRange where
  | u32
  | u64AsPacked
  deriving DecidableEq, Repr, Inhabited

/-! ### The agents -/

/-- The agent type of R14, and the platform of R100 and R300, which resets. -/
inductive Agent where
  | fg
  | irq
  | periph
  | edge
  | slave
  | host
  | platform
  deriving DecidableEq, Repr

/-- The pseudo-requests of R99: host macros with no encoding of their own. -/
inductive Pseudo where
  | regWrite (cs : Byte) (a : Byte) (v : U64)
  | regRead (cs : Byte) (a : Byte)
  | waitAsync (k : Kind)
  | waitCap (n : Nat)
  deriving DecidableEq, Repr

/-- What HOST is asked to do next: a command line as its tokens (R240), a pseudo-request (R99), or the register frame
with these bytes to send (R110, R111, log 10). -/
inductive HostInput where
  | line (tokens : List Text)
  | pseudo (p : Pseudo)
  | frame (bytes : List Byte)
  deriving DecidableEq, Repr

/-- A step of HOST of its own (R14, R90, R240, log 27): it sends bytes to the request port, or takes up something to do. -/
inductive HostMove where
  | send (bytes : List Byte)
  | ask (x : HostInput)
  deriving DecidableEq, Repr

/-- A step of one agent (R14, R77). FG goes on with up to `steps` micro-steps in a row (log 3); IRQ takes `src` (R271);
PERIPH ends its data phase (R190), with SLAVE's next bytes or with the bytes of a sample frame (R112, log 10); EDGE raises
an edge (R210); SLAVE makes the bytes it answers next known (R78, log 27); HOST moves (log 27); the platform resets
(R300). -/
inductive Turn where
  | fg (steps : Nat)
  | irq (src : IrqSource)
  | periph (sample : Option U24)
  | edge
  | slave (bytes : List Byte)
  | host (move : HostMove)
  | platform
  deriving DecidableEq, Repr, Inhabited

/-- Whose step it is. -/
def Turn.agent : Turn → Agent
  | .fg _ => .fg
  | .irq _ => .irq
  | .periph _ => .periph
  | .edge => .edge
  | .slave _ => .slave
  | .host _ => .host
  | .platform => .platform

/-- The parameters of the model: R7, and the OPEN ones of R74 (PORT_BASE), R241 (PARSE_STRICT), R244
(WREG_VALUE_RANGE), R273 (IRQ_ORDER) and R285 (ASYNC_ENDS). Fixed for a whole run (R311). -/
structure Params where
  nCs          : Nat
  bufCap       : Nat
  recordCap    : Nat
  csReg        : Byte
  csCap        : Byte
  handleBound  : Bool
  activeDriver : Driver
  /-- SYNC_TIMEOUT: read by no rule (R162, R282). -/
  syncTimeout  : Nat
  irqOrder     : IrqOrder
  parseStrict  : Bool
  wregRange    : WregRange
  /-- PORT_BASE: read by no rule (R74). -/
  portBase     : Nat
  /-- ASYNC_ENDS: an assumption on runs (R285 F1), read by no step. -/
  asyncEnds    : Bool
  deriving DecidableEq, Repr

/-- The bounds R7 puts on the parameters. -/
def Params.legal (p : Params) : Bool :=
  decide (1 ≤ p.nCs) && decide (p.nCs ≤ 255) && decide (5 ≤ p.bufCap) && decide (p.bufCap ≤ 2 ^ 32 - 1) &&
    decide (1 ≤ p.recordCap) && decide (p.recordCap ≤ 99998) && decide (p.csReg.toNat < p.nCs) &&
    decide (p.csCap.toNat < p.nCs)

namespace Config

/-- SAMPLE_BYTES (R7), fixed. -/
def sampleBytes : Nat := 3
/-- REG_FRAME_BYTES (R7), fixed. -/
def regFrameBytes : Nat := 5
/-- WRITE_FLAG (R7), fixed. -/
def writeFlag : Byte := 0x00
/-- READ_FLAG (R7), fixed. -/
def readFlag : Byte := 0x80

/-- The implementation's parameters before they are put into the ranges of R7. -/
structure Raw where
  nCs          : Fin 255
  bufCap       : Fin 4294967291
  recordCap    : Fin 99998
  csReg        : Nat
  csCap        : Nat
  handleBound  : Bool
  activeDriver : Driver
  syncTimeout  : Nat
  irqOrder     : IrqOrder
  parseStrict  : Bool
  wregRange    : WregRange
  portBase     : Nat
  asyncEnds    : Bool
  deriving Inhabited

/-- DESIGN CHOICE (log 1): the parameters are free, so nothing proved depends on their values. -/
opaque raw : Raw

/-- The parameters of the machine: any legal set of R7, and which one is not known. -/
def params : Params where
  nCs          := raw.nCs.val + 1
  bufCap       := raw.bufCap.val + 5
  recordCap    := raw.recordCap.val + 1
  csReg        := BitVec.ofNat 8 (raw.csReg % (raw.nCs.val + 1))
  csCap        := BitVec.ofNat 8 (raw.csCap % (raw.nCs.val + 1))
  handleBound  := raw.handleBound
  activeDriver := raw.activeDriver
  syncTimeout  := raw.syncTimeout
  irqOrder     := raw.irqOrder
  parseStrict  := raw.parseStrict
  wregRange    := raw.wregRange
  portBase     := raw.portBase
  asyncEnds    := raw.asyncEnds

/-- `draw(u8)` of R10 (log 4): a byte that reaches the bus or the host from a ⊥ cell, or from SLAVE. -/
opaque freeByte : Nat → Byte
/-- `draw(u32)` of R10 (log 4): an unwritten record slot (R222). -/
opaque freeWord : Nat → U32
/-- `draw({OK, TRANSFER_FAILED, TIMEOUT})` of R162 (log 4). -/
opaque freeOutcome : Nat → PhaseOutcome
/-- `draw(bool)` of R185 (log 4): whether the non-blocking primitive starts. -/
opaque freeStart : Nat → Bool
/-- The interleaving of R77 where no turn is listed (log 2): which agent moves next. -/
opaque freeMove : Nat → Turn
/-- PARSE_STRICT (R241, log 16): what a token that is no plain decimal number parses to where parsing is not strict. -/
opaque parseLax : Text → Option Nat

end Config

end Sys2Proof
end

