-- ==== Sys2Proof/Syntax.lean ====
section
/-! DEFINITION. The rows of spec/opcode_table.json: thirteen requests (spec/30_encoding.md R94), three events (R100)
and three bus frames (R110 to R112), one constructor each. -/

namespace Sys2Proof

inductive Instr where
  /-- CS.ASSERT cs (R131). -/
  | csAssert (cs : Byte)
  /-- CS.DEASSERT cs (R133). -/
  | csDeassert (cs : Byte)
  /-- BUF.SETSIZE n (R140). -/
  | bufSetSize (n : U32)
  /-- BUF.SETTX [p0, …, pn-1] (R143): the length field and the payload (R97). -/
  | bufSetTx (n : U32) (p : List Byte)
  /-- BUF.READRX (R145). -/
  | bufReadRx
  /-- SYNC.WRITE cs (R161). -/
  | syncWrite (cs : Byte)
  /-- SYNC.RW cs (R163). -/
  | syncRw (cs : Byte)
  /-- ASYNC.READ cs (R182). -/
  | asyncRead (cs : Byte)
  /-- ASYNC.RW cs (R183). -/
  | asyncRw (cs : Byte)
  /-- ASYNC.STATUS k (R184): the IDX field, of which only 0 and 1 name a kind. -/
  | asyncStatus (k : Byte)
  /-- CAP.START cs, n (R220). -/
  | capStart (cs : Byte) (n : U32)
  /-- CAP.COUNT (R221). -/
  | capCount
  /-- CAP.SLOT i (R222). -/
  | capSlot (i : U32)
  /-- EV.EDGE (R210). -/
  | evEdge
  /-- EV.XFER_END (R190). -/
  | evXferEnd
  /-- EV.RESET (R300). -/
  | evReset
  /-- REG.WRITE.FRAME (R110): register address A and value V. -/
  | regWriteFrame (a : BitVec 7) (v : U32)
  /-- REG.READ.FRAME (R111): register address A. -/
  | regReadFrame (a : BitVec 7)
  /-- SAMPLE.FRAME (R112): the received sample S. -/
  | sampleFrame (s : U24)
  deriving DecidableEq, Repr

/-- The formats of spec/opcode_table.json. -/
inductive Format where
  | req64
  | event8
  | frame40
  | frame24
  deriving DecidableEq, Repr

/-- The format of an instruction's row. -/
def Instr.format : Instr → Format
  | .csAssert _ => .req64
  | .csDeassert _ => .req64
  | .bufSetSize _ => .req64
  | .bufSetTx _ _ => .req64
  | .bufReadRx => .req64
  | .syncWrite _ => .req64
  | .syncRw _ => .req64
  | .asyncRead _ => .req64
  | .asyncRw _ => .req64
  | .asyncStatus _ => .req64
  | .capStart _ _ => .req64
  | .capCount => .req64
  | .capSlot _ => .req64
  | .evEdge => .event8
  | .evXferEnd => .event8
  | .evReset => .event8
  | .regWriteFrame _ _ => .frame40
  | .regReadFrame _ => .frame40
  | .sampleFrame _ => .frame24

end Sys2Proof
end

