-- ==== Sys2Proof/WellFormed.lean ====
section
/-! DEFINITION. Which terms of `Instr` an encoding stands for. The one relation between operands is R97's: the payload
of BUF.SETTX has exactly N bytes. Every other operand takes every value of its field (R91 to R93). -/

namespace Sys2Proof

/-- R97: "followed by exactly n = W[31:0] payload bytes". -/
def Instr.wf : Instr → Bool
  | .csAssert _ => true
  | .csDeassert _ => true
  | .bufSetSize _ => true
  | .bufSetTx n p => p.length == n.toNat
  | .bufReadRx => true
  | .syncWrite _ => true
  | .syncRw _ => true
  | .asyncRead _ => true
  | .asyncRw _ => true
  | .asyncStatus _ => true
  | .capStart _ _ => true
  | .capCount => true
  | .capSlot _ => true
  | .evEdge => true
  | .evXferEnd => true
  | .evReset => true
  | .regWriteFrame _ _ => true
  | .regReadFrame _ => true
  | .sampleFrame _ => true

end Sys2Proof
end

