-- ==== Sys2Proof/Decode.lean ====
section
/-! DEFINITION. From bytes to instructions and back (spec/30_encoding.md R90 to R97, R100, R110 to R113). A request word
stands at the request port with its most significant byte first (log 7); a frame's bytes stand in wire order (R9). -/

namespace Sys2Proof

/-- Why bytes are no instruction. -/
inductive Reject where
  /-- R95: the OPC is not of R94, RSV is not 0, or a field the opcode does not use is not 0. -/
  | illegalWord
  /-- Fewer bytes than the instruction has: the host has not sent it whole yet (R97). -/
  | truncated
  /-- A code that R100 does not list. -/
  | unknownEvent
  /-- R113: a read-flagged frame whose bytes 1 to 4 are not all 0. -/
  | reservedFrame
  deriving DecidableEq, Repr

/-- What a decoder answers: the instruction and the bytes after it, or why there is none. -/
abbrev Decoded := Except Reject (Instr × List Byte)

/-- `w` as `k` bytes, most significant first (R71, R72). -/
def beBytes : Nat → Nat → List Byte
  | 0, _ => []
  | k + 1, w => BitVec.ofNat 8 (w / 256 ^ k) :: beBytes k w

/-- The payload of BUF.SETTX: exactly `n` bytes, and the bytes after them (R97). -/
def splitPayload : Nat → List Byte → Option (List Byte × List Byte)
  | 0, bs => some ([], bs)
  | _ + 1, [] => none
  | n + 1, b :: bs => (splitPayload n bs).map fun r => (b :: r.1, r.2)

/-- An instruction, if the fields its opcode does not use are 0 (R95). -/
def onlyIf (unusedZero : Bool) (i : Instr) (rest : List Byte) : Decoded :=
  if unusedZero then .ok (i, rest) else .error .illegalWord

/-- A request word by its fields (R94, R95, R96): OPC, IDX, RSV and N. -/
def decodeFields (opc idx : Byte) (rsv : U16) (n : U32) (rest : List Byte) : Decoded :=
  if rsv ≠ 0 then .error .illegalWord
  else match opc.toNat with
    | 0x01 => onlyIf (n == 0) (.csAssert idx) rest
    | 0x02 => onlyIf (n == 0) (.csDeassert idx) rest
    | 0x10 => onlyIf (idx == 0) (.bufSetSize n) rest
    | 0x11 =>
      if idx = 0 then
        match splitPayload n.toNat rest with
        | some (p, rest') => .ok (.bufSetTx n p, rest')
        | none => .error .truncated
      else .error .illegalWord
    | 0x12 => onlyIf (idx == 0 && n == 0) .bufReadRx rest
    | 0x20 => onlyIf (n == 0) (.syncWrite idx) rest
    | 0x21 => onlyIf (n == 0) (.syncRw idx) rest
    | 0x30 => onlyIf (n == 0) (.asyncRead idx) rest
    | 0x31 => onlyIf (n == 0) (.asyncRw idx) rest
    | 0x32 => onlyIf (n == 0) (.asyncStatus idx) rest
    | 0x40 => .ok (.capStart idx n, rest)
    | 0x41 => onlyIf (idx == 0 && n == 0) .capCount rest
    | 0x42 => onlyIf (idx == 0) (.capSlot n) rest
    | _ => .error .illegalWord

/-- A request at the port (R90): eight bytes, then BUF.SETTX's payload. -/
def decodeRequest : List Byte → Decoded
  | b0 :: b1 :: b2 :: b3 :: b4 :: b5 :: b6 :: b7 :: rest =>
    decodeFields b0 b1 (b2 ++ b3) (b4 ++ b5 ++ b6 ++ b7) rest
  | _ => .error .truncated

/-- The length of the request word at the front of the port with what follows it, from OPC and N alone (R97): 8 bytes, and
N more where OPC is BUF.SETTX's, whether or not the word is legal (log 9). -/
def wordLength : List Byte → Nat
  | opc :: _ :: _ :: _ :: n0 :: n1 :: n2 :: n3 :: _ =>
    if opc = 0x11 then 8 + (n0 ++ n1 ++ n2 ++ n3).toNat else 8
  | _ => 8

/-- An event code (R100). -/
def decodeEvent : List Byte → Decoded
  | c :: rest =>
    match c.toNat with
    | 0x01 => .ok (.evEdge, rest)
    | 0x02 => .ok (.evXferEnd, rest)
    | 0x03 => .ok (.evReset, rest)
    | _ => .error .unknownEvent
  | [] => .error .truncated

/-- A register frame (R110, R111, R113): bit 7 of byte 0 is the read flag, bits 6:0 the register address. -/
def decodeRegFrame : List Byte → Decoded
  | b0 :: b1 :: b2 :: b3 :: b4 :: rest =>
    if b0.getLsbD 7 = false then .ok (.regWriteFrame (b0.extractLsb' 0 7) (b1 ++ b2 ++ b3 ++ b4), rest)
    else if b1 ++ b2 ++ b3 ++ b4 = (0 : BitVec 32) then .ok (.regReadFrame (b0.extractLsb' 0 7), rest)
    else .error .reservedFrame
  | _ => .error .truncated

/-- A sample frame (R112, R113): three received bytes, the most significant first. -/
def decodeSampleFrame : List Byte → Decoded
  | b0 :: b1 :: b2 :: rest => .ok (.sampleFrame (b0 ++ b1 ++ b2), rest)
  | _ => .error .truncated

/-- The decoder, total on any bytes of any format (R96). -/
def decode : Format → List Byte → Decoded
  | .req64, bs => decodeRequest bs
  | .event8, bs => decodeEvent bs
  | .frame40, bs => decodeRegFrame bs
  | .frame24, bs => decodeSampleFrame bs

/-- The four bytes of a 32-bit field, most significant first. -/
def bytes32 (v : U32) : List Byte :=
  [v.extractLsb' 24 8, v.extractLsb' 16 8, v.extractLsb' 8 8, v.extractLsb' 0 8]

/-- A request word (R90, R99): OPC, IDX, RSV = 0, N. -/
def reqWord (opc idx : Byte) (n : U32) : List Byte :=
  opc :: idx :: 0 :: 0 :: bytes32 n

/-- The bytes of an instruction, written from the tables of R94, R99, R100, R110 to R112. -/
def encode : Instr → List Byte
  | .csAssert cs => reqWord 0x01 cs 0
  | .csDeassert cs => reqWord 0x02 cs 0
  | .bufSetSize n => reqWord 0x10 0 n
  | .bufSetTx n p => reqWord 0x11 0 n ++ p
  | .bufReadRx => reqWord 0x12 0 0
  | .syncWrite cs => reqWord 0x20 cs 0
  | .syncRw cs => reqWord 0x21 cs 0
  | .asyncRead cs => reqWord 0x30 cs 0
  | .asyncRw cs => reqWord 0x31 cs 0
  | .asyncStatus k => reqWord 0x32 k 0
  | .capStart cs n => reqWord 0x40 cs n
  | .capCount => reqWord 0x41 0 0
  | .capSlot i => reqWord 0x42 0 i
  | .evEdge => [0x01]
  | .evXferEnd => [0x02]
  | .evReset => [0x03]
  | .regWriteFrame a v => (0#1 ++ a) :: bytes32 v
  | .regReadFrame a => (1#1 ++ a) :: bytes32 0
  | .sampleFrame s => [s.extractLsb' 16 8, s.extractLsb' 8 8, s.extractLsb' 0 8]

/-- The format of a word of the opcode table by its length in bits. -/
def formatOfBits (nbits : Nat) : Option Format :=
  if nbits = 64 then some .req64
  else if nbits = 8 then some .event8
  else if nbits = 40 then some .frame40
  else if nbits = 24 then some .frame24
  else none

/-- The bytes of a word of the opcode table as the hardware takes them: most significant byte first (log 7), and after a
BUF.SETTX word a payload of zeros. -/
def tableBytes (nbits w : Nat) : List Byte :=
  let bs := beBytes (nbits / 8) w
  if nbits = 64 ∧ w / 2 ^ 56 % 256 = 0x11 then bs ++ List.replicate (w % 2 ^ 32) 0 else bs

/-- What the decoder reads from a word numbered as spec/opcode_table.json numbers it. -/
def decodeTableWord (nbits w : Nat) : Option Instr :=
  match formatOfBits nbits with
  | none => none
  | some f =>
    match decode f (tableBytes nbits w) with
    | .ok (i, _) => some i
    | .error _ => none

end Sys2Proof
end

