-- ==== Sys2Proof/Machine/State.lean ====
section
/-! DEFINITION. The state of the block (spec/10_state.md), of its host (spec/45_host_protocol.md) and of the inputs the
model reads, as plain data; the reset state (spec/70_reset_and_hazards.md R300); the reasons a step can stop. -/

namespace Sys2Proof.Machine

/-- One of the block's indexed stores (R70): (index, value) pairs, indexes strictly rising. An index that is not listed
holds `⊥` (R28, R34), which reads as a free value (log 5). -/
abbrev Cells (α : Type) := List (Nat × α)

/-- A byte store: TX or RX (R28). -/
abbrev Memory := List Host.Cell

/-- PERIPH_STATE (R25); the reserved values 5 to 7 are never written. -/
inductive PeriphState where
  | idle
  | syncTx
  | syncTxRx
  | asyncRx
  | asyncTxRx
  deriving DecidableEq, Repr

/-- The `kind` of a Data record (R41). -/
inductive PhaseKind where
  | syncTx
  | syncTxRx
  | asyncRx
  | asyncTxRx
  deriving DecidableEq, Repr

/-- A record of BUS_LOG (R41). A byte the model does not fix is `none`, the spec's ⊥. -/
inductive BusRecord where
  | csLow (i : Nat)
  | csHigh (i : Nat)
  | data (kind : PhaseKind) (cs : Nat) (mosi miso : List (Option Byte)) (outcome : PhaseOutcome)
  deriving DecidableEq, Repr

/-- The result codes of R260. -/
inductive ResultCode where
  | ok
  | transferFailed
  | busy
  | timeout
  | notInitialized
  | capacityExceeded
  | invalidIndex
  | selectConflict
  | emptyBuffer
  | selectFailed
  | error
  | illegal
  deriving DecidableEq, Repr

/-- The data of a response (R98): nothing, a byte list, a u16 status word or a u32. -/
inductive RespData where
  | nothing
  | bytes (bs : List Byte)
  | status (w : U16)
  | word (v : U32)
  deriving DecidableEq, Repr

/-- The response `(rc, data)` of a request (R42, R98). -/
structure Response where
  rc   : ResultCode
  data : RespData
  deriving DecidableEq, Repr

/-- STATUS[k] (R29): DONE, and RESULT, where `none` is ⊥ (never written). -/
structure XferStatus where
  done   : Bool
  result : Option Byte
  deriving DecidableEq, Repr

/-- The micro-steps (a) to (g) of a request (R11). -/
inductive Micro where
  | a
  | b
  | c
  | d
  | e
  | f
  | g
  deriving DecidableEq, Repr

/-- The local values a request in progress keeps between micro-steps (R275). `stage` counts the requests of a bus frame's
host macro (log 10); `n` and `mosi` are R160 (d)'s, `rc` is R160's outcome, `sized` is R220 (d)'s check. -/
structure Locals where
  stage : Nat := 0
  n     : Nat := 0
  mosi  : List Byte := []
  rc    : ResultCode := .ok
  sized : Bool := false
  deriving DecidableEq, Repr

/-- FG_PHASE (R21): no request in progress, or the request being executed and its next micro-step. -/
inductive FgPhase where
  | idle
  | busy (i : Instr) (next : Micro) (loc : Locals)
  deriving DecidableEq, Repr

/-- IRQ_PHASE (R21): always IDLE between steps. -/
inductive IrqPhase where
  | idle
  deriving DecidableEq, Repr

/-- One action of a host program (R243, R245, R247, R99): issue a request and take its response; go on only when the
response is the wanted count (WAIT.CAP) or says done (WAIT.ASYNC), else ask again; write a line. -/
inductive HostOp where
  | issue (r : Instr)
  | checkCount (n : Nat)
  | checkDone (k : Kind)
  | writeLine (t : Text)
  | writeBin40
  | writeCount
  | writeBin32
  deriving DecidableEq, Repr

@[ext]
structure State where
  /-- The parameters of R7, fixed for the run (R311, log 1). No step writes them. -/
  params       : Params
  /-- FG_PHASE (R21). -/
  fg           : FgPhase
  /-- IRQ_PHASE (R21). -/
  irqPhase     : IrqPhase
  /-- BOUND (R22). -/
  bound        : Bool
  /-- ACTIVE_DRIVER (R38). -/
  activeDriver : Driver
  /-- CS_LEVEL[0..N_CS-1] (R23): `true` = 1 = high = deasserted. -/
  csLevel      : List Bool
  /-- LAST_CS (R24); `none` is ⊥. -/
  lastCs       : Option Byte
  /-- LAST_CS_V (R24). -/
  lastCsV      : Bool
  /-- PERIPH_STATE (R25). -/
  periph       : PeriphState
  /-- XFER_DONE_HW (R26). -/
  xferDoneHw   : Bool
  /-- BUF_SIZE (R27). -/
  bufSize      : U32
  /-- TX (R28). -/
  tx           : Memory
  /-- RX (R28). -/
  rx           : Memory
  /-- STATUS[RX] (R29). -/
  statusRx     : XferStatus
  /-- STATUS[TXRX] (R29). -/
  statusTxRx   : XferStatus
  /-- CAP_COUNTER (R31). -/
  capCounter   : U32
  /-- CAP_TARGET (R32). -/
  capTarget    : U32
  /-- CAP_CS (R33); `none` is ⊥. -/
  capCs        : Option Byte
  /-- REC (R34). -/
  record       : Cells U32
  /-- EDGE_EN (R36). -/
  edgeEn       : Bool
  /-- EDGE_PEND (R35). -/
  edgePend     : Bool
  /-- CPL_PEND[RX] (R37). -/
  cplRx        : Bool
  /-- CPL_PEND[TXRX] (R37). -/
  cplTxRx      : Bool
  /-- FAULTS (R40). -/
  faults       : Byte
  /-- BUS_LOG (R41), oldest record first. -/
  busLog       : List BusRecord
  /-- The response the host took last (R42); `none` while a request is in progress (log 17). -/
  response     : Option Response
  /-- What is left of the host program in progress (R243 to R247). -/
  hostProg     : List HostOp
  /-- HOST's inputs, the next first (log 6). -/
  hostIn       : List HostInput
  /-- The lines WriteLine wrote (R240), oldest first. -/
  lineOut      : List Text
  /-- The bytes waiting at the request port (R90), the next first (log 6). -/
  port         : List Byte
  /-- The turns to come, the next first; past them a free move (log 2). -/
  turns        : List Turn
  /-- How many micro-steps FG may take in the turn it has (log 3). -/
  quota        : Nat
  /-- SLAVE's bytes to come (R78), the next first; past them free bytes (log 4). -/
  slaveIn      : List Byte
  /-- The outcomes of synchronous data phases to come (R162); past them free ones (log 4). -/
  outcomeIn    : List PhaseOutcome
  /-- Whether the coming asynchronous starts succeed (R185); past them free answers (log 4). -/
  startIn      : List Bool
  /-- How many free values have been drawn (log 4). -/
  draws        : Nat
  deriving DecidableEq, Repr

/-- The state EV.RESET leaves under the parameters `p` (R300), with no input waiting. -/
def State.initial (p : Params) : State where
  params       := p
  fg           := .idle
  irqPhase     := .idle
  bound        := p.handleBound
  activeDriver := p.activeDriver
  csLevel      := List.replicate p.nCs true
  lastCs       := none
  lastCsV      := false
  periph       := .idle
  xferDoneHw   := false
  bufSize      := 0
  tx           := []
  rx           := []
  statusRx     := { done := true, result := none }
  statusTxRx   := { done := true, result := none }
  capCounter   := 0
  capTarget    := 0
  capCs        := none
  record       := []
  edgeEn       := false
  edgePend     := false
  cplRx        := false
  cplTxRx      := false
  faults       := 0
  busLog       := []
  response     := none
  hostProg     := []
  hostIn       := []
  lineOut      := []
  port         := []
  turns        := []
  quota        := 0
  slaveIn      := []
  outcomeIn    := []
  startIn      := []
  draws        := 0

/-- The machine right after reset: R300, under the machine's parameters. -/
def State.reset : State := State.initial Config.params

/-- Nothing stops the block with a fault: R261 "raises no synchronous exception and no trap", and the sticky bits of
FAULTS stop no agent (R265). The type has no constructor. -/
inductive Fault where
  deriving DecidableEq, Repr

/-- Why a step has no meaning. -/
inductive Refusal where
  /-- Raised by `exec` for an instruction with no meaning yet; safe. -/
  | notModelled (mnemonic : String)
  /-- Raised by HOST for a frame to send that is not exactly the five bytes of a frame of R110 or R111; safe (log 20). -/
  | notAFrame
  /-- Raised by a request issued while another is in progress: R250 gives the host no such move; safe (log 21). -/
  | requestWhileBusy
  deriving DecidableEq, Repr

end Sys2Proof.Machine
end

