-- ==== Sys2Proof/Machine/Flags.lean ====
section
/-! DEFINITION. The block's flags: the sticky fault bits (spec/60_exceptions.md R265), the transfer status (spec/10_state.md
R29) with its status word (R30), and the numbers of the result codes (R260). -/

namespace Sys2Proof.Machine

/-- The number of a result code (R260). -/
def ResultCode.code : ResultCode → Byte
  | .ok => 0x00
  | .transferFailed => 0x01
  | .busy => 0x02
  | .timeout => 0x03
  | .notInitialized => 0x04
  | .capacityExceeded => 0x05
  | .invalidIndex => 0x06
  | .selectConflict => 0x07
  | .emptyBuffer => 0x08
  | .selectFailed => 0x09
  | .error => 0x0A
  | .illegal => 0x0B

/-- The result code of a synchronous data phase's outcome (R160 (f), R162). -/
def outcomeCode : PhaseOutcome → ResultCode
  | .ok => .ok
  | .transferFailed => .transferFailed
  | .timeout => .timeout

/-- Bit 0 of FAULTS: two or more lines low at once (R265). -/
def fMultiSelect : Byte := 0x01
/-- Bit 1 of FAULTS: a low line released while a transfer is in flight (R265). -/
def fCsReleasedInFlight : Byte := 0x02
/-- Bit 2 of FAULTS: a bus primitive started while a transfer is in flight (R265). -/
def fStartWhileBusy : Byte := 0x04
/-- Bit 3 of FAULTS: the buffer written while a transfer is in flight (R265). -/
def fBufferWriteInFlight : Byte := 0x08
/-- Bit 4 of FAULTS: the capture hook ran on a transfer that is not 3 bytes (R265). -/
def fSampleSize : Byte := 0x10

/-- `raise Fault(F)` of R10: the sticky bit is set and the run goes on (R40). -/
def raiseFault (f : Byte) (s : State) : State :=
  { s with faults := s.faults ||| f }

/-- Whether a fault bit is set. -/
def hasFault (f : Byte) (s : State) : Bool :=
  s.faults &&& f != 0

/-- A write of PERIPH_STATE (R25). -/
def setPeriph (p : PeriphState) (s : State) : State :=
  { s with periph := p }

/-- STATUS[k] (R29). -/
def statusOf (k : Kind) (s : State) : XferStatus :=
  match k with
  | .rx => s.statusRx
  | .txrx => s.statusTxRx

/-- A write of STATUS[k], both fields. -/
def setStatus (k : Kind) (v : XferStatus) (s : State) : State :=
  match k with
  | .rx => { s with statusRx := v }
  | .txrx => { s with statusTxRx := v }

/-- `S.STATUS[k].RESULT <- rc`, DONE as it was. -/
def setResult (k : Kind) (rc : ResultCode) (s : State) : State :=
  setStatus k { done := (statusOf k s).done, result := some rc.code } s

/-- The status word of R30: bit 8 DONE, bits 7:0 RESULT, bits 15:9 zero. -/
def statusWord (done : Bool) (result : Byte) : U16 :=
  0#7 ++ BitVec.ofBool done ++ result

/-- The number of a PERIPH_STATE value (R25). -/
def PeriphState.code : PeriphState → BitVec 3
  | .idle => 0
  | .syncTx => 1
  | .syncTxRx => 2
  | .asyncRx => 3
  | .asyncTxRx => 4

end Sys2Proof.Machine
end

