-- ==== Sys2Proof/Machine/Operands.lean ====
section
/-! DEFINITION. How operands are assembled and how bytes are put together: spec/30_encoding.md R91, R110 to R112,
spec/44_capture.md R217, spec/45_host_protocol.md R246. -/

namespace Sys2Proof.Machine

/-- The kind an IDX field names: 0 = RX, 1 = TXRX, nothing else (R91, R184). -/
def kindOfIdx (k : Byte) : Option Kind :=
  if k = 0 then some .rx else if k = 1 then some .txrx else none

/-- The IDX field that names a kind (R91). -/
def idxOfKind : Kind → Byte
  | .rx => 0
  | .txrx => 1

/-- The five bytes of a u40, most significant first (R110). -/
def bytes40 (v : U40) : List Byte :=
  [v.extractLsb' 32 8, v.extractLsb' 24 8, v.extractLsb' 16 8, v.extractLsb' 8 8, v.extractLsb' 0 8]

/-- `frameW(a, v)` of R110: `(writeFlag | a) << 32 | v` in a u64, its low 40 bits as five big-endian bytes. -/
def frameW (a : Byte) (v : U64) : List Byte :=
  let word64 : U64 := (((Config.writeFlag ||| a).setWidth 64) <<< 32) ||| v
  bytes40 (word64.extractLsb' 0 40)

/-- `frameR(a)` of R111: `[0x80 | a, 0, 0, 0, 0]`. -/
def frameR (a : Byte) : List Byte :=
  [Config.readFlag ||| a, 0, 0, 0, 0]

/-- `{b0, b1, b2}` of R9 and R217: three received bytes as one sample, the first the most significant. -/
def sample24 (b0 b1 b2 : Byte) : U24 := b0 ++ b1 ++ b2

/-- What a record slot holds of a sample: `zext_32(sample24)` (R217). -/
def slotOfSample (v : U24) : U32 := v.setWidth 32

/-- The three bytes of a sample frame in wire order (R112). -/
def sampleBytesOf (v : U24) : List Byte :=
  [v.extractLsb' 16 8, v.extractLsb' 8 8, v.extractLsb' 0 8]

/-- `{b0, b1, b2, b3, b4}` of R111. -/
def reg40 (b0 b1 b2 b3 b4 : Byte) : U40 := b0 ++ b1 ++ b2 ++ b3 ++ b4

/-- `bin40` and `bin32` of R246: as many characters as bits, the most significant first. -/
def binText {w : Nat} (v : BitVec w) : Text :=
  (List.range w).map fun j => if v.getLsbD (w - 1 - j) then '1' else '0'

/-- `decimal(c)` of R247: no leading zeros. -/
def decimalText (c : Nat) : Text := Nat.toDigits 10 c

end Sys2Proof.Machine
end

