-- ==== Sys2Proof/Machine/Ops.lean ====
section
/-! DEFINITION. The shared operations: the indexed stores (spec/20_memory.md R70), the free values (`draw` of
spec/00_scope.md R10), the bus history (spec/10_state.md R41), pending interrupts (spec/60_exceptions.md R271), and
running a request micro-step by micro-step (R11, R21). -/

namespace Sys2Proof.Machine

/-! ### The indexed stores -/

/-- The cell at an index; `none` is ⊥. -/
def Cells.read {α : Type} : Cells α → Nat → Option α
  | [], _ => none
  | (k, v) :: m, a => if k = a then some v else Cells.read m a

/-- `MemWrite(A, a, 1, v)` of R10. -/
def Cells.write {α : Type} : Cells α → Nat → α → Cells α
  | [], a, v => [(a, v)]
  | (k, w) :: m, a, v =>
    if a < k then (a, v) :: (k, w) :: m
    else if a = k then (a, v) :: m
    else (k, w) :: Cells.write m a v

/-- `A[a], A[a+1], … <- v0, v1, …`. -/
def Cells.writeFrom {α : Type} (m : Cells α) (a : Nat) : List α → Cells α
  | [] => m
  | v :: vs => Cells.writeFrom (Cells.write m a v) (a + 1) vs

/-- `A[0..n-1] <- ⊥`. -/
def Cells.eraseBelow {α : Type} (m : Cells α) (n : Nat) : Cells α :=
  m.filter fun c => decide (n ≤ c.1)

/-- The canonical form: indexes strictly rising. A listed cell holds a value, so none equals what an unlisted index reads
as (⊥). -/
def Cells.wf {α : Type} (m : Cells α) : Bool :=
  decide (m.Pairwise fun c d => c.1 < d.1)

/-- The canonical form of TX and RX. -/
def Memory.wf (m : Memory) : Bool := Cells.wf m

/-- No cell at or above `cap` is listed. -/
def Cells.below {α : Type} (cap : Nat) (m : Cells α) : Bool :=
  m.all fun c => decide (c.1 < cap)

/-! ### Free values -/

/-- `draw(u8)`. -/
def drawByte (s : State) : Byte × State :=
  (Config.freeByte s.draws, { s with draws := s.draws + 1 })

/-- `draw(u8^n)`. -/
def drawBytes (n : Nat) (s : State) : List Byte × State :=
  ((List.range n).map fun j => Config.freeByte (s.draws + j), { s with draws := s.draws + n })

/-- `draw(u32)`. -/
def drawWord (s : State) : U32 × State :=
  (Config.freeWord s.draws, { s with draws := s.draws + 1 })

/-- `draw({OK, TRANSFER_FAILED, TIMEOUT})` (R162): the next of the environment's answers, or a free one. -/
def drawOutcome (s : State) : PhaseOutcome × State :=
  (s.outcomeIn.headD (Config.freeOutcome s.draws), { s with outcomeIn := s.outcomeIn.tail, draws := s.draws + 1 })

/-- `draw(bool)` (R185): the next of the environment's answers, or a free one. -/
def drawStart (s : State) : Bool × State :=
  (s.startIn.headD (Config.freeStart s.draws), { s with startIn := s.startIn.tail, draws := s.draws + 1 })

/-- The `n` bytes SLAVE answers in a data phase (R78): its bytes to come, then free ones. -/
def slaveBytes (n : Nat) (s : State) : List Byte × State :=
  ((List.range n).map fun j => s.slaveIn.getD j (Config.freeByte (s.draws + j)),
    { s with slaveIn := s.slaveIn.drop n, draws := s.draws + n })

/-- The value of an element that may be ⊥: a ⊥ reads as `draw(u8)` (R300). -/
def known (v : Option Byte) (s : State) : Byte × State :=
  match v with
  | some b => (b, s)
  | none => drawByte s

/-- Cells 0 to n-1 as they reach the bus or the host: a ⊥ cell is a `draw(u8)` at that moment (R28). -/
def readBytes (m : Memory) (n : Nat) (s : State) : List Byte × State :=
  ((List.range n).map fun j => (Cells.read m j).getD (Config.freeByte (s.draws + j)),
    { s with draws := s.draws + n })

/-! ### The bus history -/

/-- `emit` of R10: one record more in BUS_LOG (R41). -/
def emit (r : BusRecord) (s : State) : State :=
  { s with busLog := s.busLog ++ [r] }

/-- `⊥^n`. -/
def unknownBytes (n : Nat) : List (Option Byte) := List.replicate n none

/-! ### Pending interrupts -/

/-- The pending bit of a source (R271). -/
def pending (src : IrqSource) (s : State) : Bool :=
  match src with
  | .edge => s.edgePend
  | .cpl .rx => s.cplRx
  | .cpl .txrx => s.cplTxRx

/-- `S.CPL_PEND[k] <- 1` (R190). -/
def setCplPend (k : Kind) (s : State) : State :=
  match k with
  | .rx => { s with cplRx := true }
  | .txrx => { s with cplTxRx := true }

/-- Interrupt entry: its whole effect on the state is to clear the pending bit of the source. No pc, status, mode, mask or
stack is saved or changed (R271, R275). -/
def acknowledge (src : IrqSource) (s : State) : State :=
  match src with
  | .edge => { s with edgePend := false }
  | .cpl .rx => { s with cplRx := false }
  | .cpl .txrx => { s with cplTxRx := false }

/-- Whether IRQ may take `src` now: it is pending, and under a fixed IRQ_ORDER no source before it is (R272, R273). -/
def mayTake (src : IrqSource) (s : State) : Bool :=
  pending src s &&
    match s.params.irqOrder with
    | .any => true
    | .fixed order => (order.takeWhile fun x => decide (x ≠ src)).all fun x => !pending x s

/-! ### Requests, micro-step by micro-step -/

/-- What a micro-step leads to: the next micro-step with the request's local values, or the request's response. -/
inductive MicroOut where
  | go (s : State) (next : Micro) (loc : Locals)
  | ret (s : State) (rc : ResultCode) (data : RespData)

/-- The micro-steps of a request. -/
abbrev MicroFn := Micro → Locals → State → MicroOut

/-- `return (rc, data)` of R10: the request ends, FG_PHASE is IDLE, and the host takes the response (R21, R42). -/
def respond (rc : ResultCode) (data : RespData) (s : State) : State :=
  { s with fg := .idle, response := some { rc := rc, data := data } }

/-- FG_PHASE with the request `i` in progress and its next micro-step (R21). -/
def continueAt (i : Instr) (m : Micro) (loc : Locals) (s : State) : State :=
  { s with fg := .busy i m loc }

/-- One FG step of the request `i` in progress (R21): one micro-step. -/
def microStep (i : Instr) (f : MicroFn) (m : Micro) (loc : Locals) (s : State) : State :=
  match f m loc s with
  | .go s' m' loc' => continueAt i m' loc' s'
  | .ret s' rc data => respond rc data s'

/-- Up to `k` micro-steps of the request `i`, none after its response. -/
def runMicro (i : Instr) (f : MicroFn) : Nat → State → State
  | 0, s => s
  | k + 1, s =>
    match s.fg with
    | .idle => s
    | .busy _ m loc => runMicro i f k (microStep i f m loc s)

/-- The host's request `i` is taken (R250: when FG_PHASE is IDLE): its first micro-step is next. -/
def accept (i : Instr) (s : State) : State :=
  { s with fg := .busy i .a {}, response := none }

/-- A turn of FG with request `i`: the request is taken if none is in progress, or gone on with, for at most `quota`
micro-steps. A request issued while another is in progress is a move R250 does not give the host (log 21). -/
def runRequest (i : Instr) (f : MicroFn) (s : State) : Host.Outcome State Fault Refusal :=
  match s.fg with
  | .idle => .next (runMicro i f s.quota (accept i s))
  | .busy j _ _ => if j = i then .next (runMicro i f s.quota s) else .refused .requestWhileBusy

/-- A request's micro-steps as ONE atomic step (R11: what IRQ executes inside a handler), with its result code. `k`
bounds the micro-steps; a caller gives as many as the request has. -/
def atomically (f : MicroFn) : Nat → Micro → Locals → State → State × ResultCode
  | 0, _, _, s => (s, .error)
  | k + 1, m, loc, s =>
    match f m loc s with
    | .go s' m' loc' => atomically f k m' loc' s'
    | .ret s' rc _ => (s', rc)

/-- Requests one after the other as one host macro (R99): no result code is checked between them, and the macro's response
is the last one's. `stage` says which request is in progress. -/
def sequenceMicro (parts : List MicroFn) : MicroFn := fun m loc s =>
  match parts[loc.stage]? with
  | none => .ret s .ok .nothing
  | some f =>
    match f m loc s with
    | .go s' m' loc' => .go s' m' { loc' with stage := loc.stage }
    | .ret s' rc data =>
      if loc.stage + 1 < parts.length then .go s' .a { stage := loc.stage + 1 } else .ret s' rc data

end Sys2Proof.Machine
end

