-- ==== Sys2Proof/Machine/ChipSelect.lean ====
section
/-! DEFINITION. The chip-select arbiter: spec/40_chip_select.md R130 to R134. -/

namespace Sys2Proof.Machine

/-- CS_LEVEL[i] (R23). -/
def levelOf (i : Nat) (s : State) : Bool := s.csLevel.getD i true

/-- How many lines are low: `|{ j : S.CS_LEVEL[j] = 0 }|` of R130. -/
def lowCount (s : State) : Nat := s.csLevel.countP fun level => !level

/-- Assert(i), micro-step (a) (R130): the range first, then the conflict. -/
def assertCheck (i : Nat) (s : State) : ResultCode :=
  if s.params.nCs ≤ i then .invalidIndex
  else if 0 < lowCount s then .selectConflict
  else .ok

/-- Assert(i), micro-step (b) (R130): the line is driven low and the write is logged; two lines low at once is a fault. -/
def assertDrive (i : Nat) (s : State) : State :=
  let s' := emit (.csLow i) { s with csLevel := s.csLevel.set i false }
  if 2 ≤ lowCount s' then raiseFault fMultiSelect s' else s'

/-- Deassert(i) (R132): one atomic step. -/
def deassert (i : Nat) (s : State) : State × ResultCode :=
  if s.params.nCs ≤ i then (s, .invalidIndex)
  else
    let s' := if s.periph ≠ .idle ∧ levelOf i s = false then raiseFault fCsReleasedInFlight s else s
    (emit (.csHigh i) { s' with csLevel := s'.csLevel.set i true }, .ok)

/-- CS.ASSERT cs: micro-steps (a) and (b) of Assert (R131). -/
def microCsAssert (cs : Byte) : MicroFn := fun m loc s =>
  match m with
  | .a => if assertCheck cs.toNat s = .ok then .go s .b loc else .ret s (assertCheck cs.toNat s) .nothing
  | _ => .ret (assertDrive cs.toNat s) .ok .nothing

/-- CS.ASSERT cs (R131). -/
def execCsAssert (cs : Byte) (s : State) : Host.Outcome State Fault Refusal :=
  runRequest (.csAssert cs) (microCsAssert cs) s

/-- CS.DEASSERT cs: one micro-step, Deassert (R133). -/
def microCsDeassert (cs : Byte) : MicroFn := fun _ _ s =>
  .ret (deassert cs.toNat s).1 (deassert cs.toNat s).2 .nothing

/-- CS.DEASSERT cs (R133). -/
def execCsDeassert (cs : Byte) (s : State) : Host.Outcome State Fault Refusal :=
  runRequest (.csDeassert cs) (microCsDeassert cs) s

end Sys2Proof.Machine
end

