-- ==== Sys2Proof/Machine/AsyncEngine.lean ====
section
/-! DEFINITION. The asynchronous transfer engine: spec/43_async_engine.md R180 to R185, R190, R195, R196, and the phases
of spec/10_state.md R29. The completion handler (R191) stands in Interrupts.lean. -/

namespace Sys2Proof.Machine

/-- PERIPH_STATE while a transfer of kind k is in flight (R180). -/
def asyncPeriph : Kind → PeriphState
  | .rx => .asyncRx
  | .txrx => .asyncTxRx

/-- The kind in an asynchronous Data record (R180). -/
def asyncPhaseKind : Kind → PhaseKind
  | .rx => .asyncRx
  | .txrx => .asyncTxRx

/-- A failed start (R181): RESULT <- ERROR, DONE not written, rc ERROR. -/
def startFailed (k : Kind) (s : State) : MicroOut :=
  .ret (setResult k .error s) .error .nothing

/-- AsyncStart (c) (R181): the line is driven low and named as the last one used. -/
def startSelect (cs : Byte) (s : State) : State :=
  { assertDrive cs.toNat s with lastCs := some cs, lastCsV := true }

/-- AsyncStart (d), the non-blocking primitive's answer (R181, R185): a start on a busy bus is a fault and fails, on an
idle bus it is a draw. -/
def startPrimitive (s : State) : Bool × State :=
  if s.periph ≠ .idle then (false, raiseFault fStartWhileBusy s) else drawStart s

/-- AsyncStart(k, cs): micro-steps (a) to (e) of R181. -/
def microAsyncStart (k : Kind) (cs : Byte) : MicroFn := fun m loc s =>
  match m with
  | .a =>
    if s.bound = false then startFailed k s
    else if s.bufSize = 0 then startFailed k s
    else .go s .b loc
  | .b => if assertCheck cs.toNat s = .ok then .go s .c loc else startFailed k s
  | .c => .go (startSelect cs s) .d loc
  | .d =>
    if (startPrimitive s).1 then .go (setPeriph (asyncPeriph k) (startPrimitive s).2) .e loc
    else startFailed k (deassert cs.toNat (startPrimitive s).2).1
  | _ => .ret (setStatus k { done := false, result := some ResultCode.ok.code } s) .ok .nothing

/-- AsyncStart(k, cs) as IRQ runs it: the whole sequence in one atomic step (R181, R212). -/
def asyncStart (k : Kind) (cs : Byte) (s : State) : State × ResultCode :=
  atomically (microAsyncStart k cs) 5 .a {} s

/-- ASYNC.READ cs (R182): AsyncStart(RX, cs). -/
def execAsyncRead (cs : Byte) (s : State) : Host.Outcome State Fault Refusal :=
  runRequest (.asyncRead cs) (microAsyncStart .rx cs) s

/-- ASYNC.RW cs (R183): AsyncStart(TXRX, cs). -/
def execAsyncRw (cs : Byte) (s : State) : Host.Outcome State Fault Refusal :=
  runRequest (.asyncRw cs) (microAsyncStart .txrx cs) s

/-- ASYNC.STATUS k: one micro-step (R184), both fields read together; a RESULT never written reads as a draw. -/
def microAsyncStatus (k : Byte) : MicroFn := fun _ _ s =>
  match kindOfIdx k with
  | none => .ret s .invalidIndex .nothing
  | some kind =>
    let r := known (statusOf kind s).result s
    .ret r.2 .ok (.status (statusWord (statusOf kind s).done r.1))

/-- ASYNC.STATUS k (R184). -/
def execAsyncStatus (k : Byte) (s : State) : Host.Outcome State Fault Refusal :=
  runRequest (.asyncStatus k) (microAsyncStatus k) s

/-- The kind of the asynchronous transfer whose data phase has not ended: when EV.XFER_END is enabled (R190). -/
def transferring (s : State) : Option Kind :=
  if s.xferDoneHw then none
  else match s.periph with
    | .asyncRx => some .rx
    | .asyncTxRx => some .txrx
    | _ => none

/-- The bytes the master drives in an asynchronous data phase (R190): TX for a transmit-receive one, not specified for a
receive-only one. -/
def asyncMosi (k : Kind) (s : State) : List (Option Byte) × State :=
  match k with
  | .rx => (unknownBytes s.bufSize.toNat, s)
  | .txrx => ((readBytes s.tx s.bufSize.toNat s).1.map some, (readBytes s.tx s.bufSize.toNat s).2)

/-- The data phase of kind k ends with the received bytes `miso` (R190). -/
def endDataPhase (k : Kind) (miso : List Byte) (s : State) : State :=
  let out := asyncMosi k s
  let cs := known out.2.lastCs out.2
  setCplPend k
    { emit (.data (asyncPhaseKind k) cs.1.toNat out.1 (miso.map some) .ok) cs.2 with
      rx := Cells.writeFrom cs.2.rx 0 miso
      xferDoneHw := true }

/-- EV.XFER_END (R190): where no data phase is under way the event is not enabled, and nothing happens (log 11). -/
def xferEnd (s : State) : State :=
  match transferring s with
  | none => s
  | some k => endDataPhase k (slaveBytes s.bufSize.toNat s).1 (slaveBytes s.bufSize.toNat s).2

/-- The source's phases of a kind (R29). -/
inductive AsyncPhase where
  | idle
  | starting
  | transferring
  deriving DecidableEq, Repr

/-- Whether FG is between micro-steps (a) and (e) of a start of kind k. -/
def fgStarting (k : Kind) (s : State) : Bool :=
  match s.fg with
  | .busy (.asyncRead _) m _ => decide (k = .rx ∧ m ≠ .a)
  | .busy (.asyncRw _) m _ => decide (k = .txrx ∧ m ≠ .a)
  | _ => false

/-- The asynchronous phase of kind k, derived from the state (R29). Completing is inside the completion handler, which is
atomic and never shows. -/
def asyncPhase (k : Kind) (s : State) : AsyncPhase :=
  if fgStarting k s then .starting
  else if s.periph = asyncPeriph k then .transferring
  else .idle

end Sys2Proof.Machine
end

