-- ==== Sys2Proof/Machine/Events.lean ====
section
/-! DEFINITION. The events of spec/30_encoding.md R100: EV.EDGE (R210), EV.XFER_END (R190), EV.RESET (R300). -/

namespace Sys2Proof.Machine

/-- EV.EDGE (R210): an edge while enabled pends, one while disabled is discarded. -/
def edgeEvent (s : State) : State :=
  if s.edgeEn then { s with edgePend := true } else s

/-- EV.EDGE (R210). -/
def execEvEdge (s : State) : Host.Outcome State Fault Refusal := .next (edgeEvent s)

/-- EV.XFER_END (R190). -/
def execEvXferEnd (s : State) : Host.Outcome State Fault Refusal := .next (xferEnd s)

/-- EV.RESET (R300): the reset state under the same parameters. What the outside world still has in store (inputs, turns,
the lines already written) is not the block's and stays (log 12). -/
def resetEvent (s : State) : State :=
  { State.initial s.params with
    hostIn := s.hostIn
    lineOut := s.lineOut
    port := s.port
    turns := s.turns
    quota := s.quota
    slaveIn := s.slaveIn
    outcomeIn := s.outcomeIn
    startIn := s.startIn
    draws := s.draws }

/-- EV.RESET (R300). -/
def execEvReset (s : State) : Host.Outcome State Fault Refusal := .next (resetEvent s)

end Sys2Proof.Machine
end

