-- ==== Sys2Proof/Machine/Buffer.lean ====
section
/-! DEFINITION. The transfer buffer: spec/41_buffer.md R140 to R147. -/

namespace Sys2Proof.Machine

/-- Micro-step (a) of a size write (R140, R143): BUSY is tested before CAPACITY_EXCEEDED. -/
def sizeCheck (n : Nat) (s : State) : ResultCode :=
  if s.periph ≠ .idle then .busy
  else if s.params.bufCap < n then .capacityExceeded
  else .ok

/-- Micro-step (b) of a size write (R140, R143): the size, the transmit bytes `bs`, and RX[0..n-1] <- ⊥. A write while a
transfer is in flight is a fault, and still happens. -/
def sizeWrite (n : U32) (bs : List Byte) (s : State) : State :=
  let s' := if s.periph ≠ .idle then raiseFault fBufferWriteInFlight s else s
  { s' with
    bufSize := n
    tx := Cells.writeFrom s'.tx 0 bs
    rx := Cells.eraseBelow s'.rx n.toNat }

/-- The zeros SetSize fills the transmit region with (R140). -/
def zeroBytes (n : U32) : List Byte := List.replicate n.toNat 0

/-- BUF.SETSIZE n: micro-steps (a) and (b) of R140. -/
def microBufSetSize (n : U32) : MicroFn := fun m loc s =>
  match m with
  | .a => if sizeCheck n.toNat s = .ok then .go s .b loc else .ret s (sizeCheck n.toNat s) .nothing
  | _ => .ret (sizeWrite n (zeroBytes n) s) .ok .nothing

/-- BUF.SETSIZE n (R140). -/
def execBufSetSize (n : U32) (s : State) : Host.Outcome State Fault Refusal :=
  runRequest (.bufSetSize n) (microBufSetSize n) s

/-- BUF.SETTX [p0, …, pn-1]: micro-steps (a) and (b) of R143. -/
def microBufSetTx (n : U32) (p : List Byte) : MicroFn := fun m loc s =>
  match m with
  | .a => if sizeCheck n.toNat s = .ok then .go s .b loc else .ret s (sizeCheck n.toNat s) .nothing
  | _ => .ret (sizeWrite n p s) .ok .nothing

/-- BUF.SETTX [p0, …, pn-1] (R143). -/
def execBufSetTx (n : U32) (p : List Byte) (s : State) : Host.Outcome State Fault Refusal :=
  runRequest (.bufSetTx n p) (microBufSetTx n p) s

/-- The bytes BUF.READRX answers (R145): BUF_SIZE bytes of RX, all of them draws while a transfer is in flight (R146). -/
def receivedView (s : State) : List Byte × State :=
  if s.periph ≠ .idle then drawBytes s.bufSize.toNat s else readBytes s.rx s.bufSize.toNat s

/-- BUF.READRX: one micro-step (R145). -/
def microBufReadRx : MicroFn := fun _ _ s =>
  .ret (receivedView s).2 .ok (.bytes (receivedView s).1)

/-- BUF.READRX (R145). -/
def execBufReadRx (s : State) : Host.Outcome State Fault Refusal :=
  runRequest .bufReadRx microBufReadRx s

end Sys2Proof.Machine
end

