-- ==== Sys2Proof/Machine/SyncEngine.lean ====
section
/-! DEFINITION. The synchronous transfer engine: spec/42_sync_engine.md R160 to R165. -/

namespace Sys2Proof.Machine

/-- The two synchronous kinds: `write` is SYNC_TX, `rw` is SYNC_TXRX (R160). -/
inductive SyncKind where
  | write
  | rw
  deriving DecidableEq, Repr

/-- PERIPH_STATE during the data phase of a synchronous kind (R25). -/
def syncPeriph : SyncKind → PeriphState
  | .write => .syncTx
  | .rw => .syncTxRx

/-- The kind in a synchronous Data record (R41). -/
def syncPhase : SyncKind → PhaseKind
  | .write => .syncTx
  | .rw => .syncTxRx

/-- SyncXfer (d) on an idle bus (R160): the size and the bytes to send are fixed and the data phase begins. -/
def syncBegin (kind : SyncKind) (s : State) : State × Locals :=
  let sent := readBytes s.tx s.bufSize.toNat s
  (setPeriph (syncPeriph kind) sent.2, { n := s.bufSize.toNat, mosi := sent.1 })

/-- RX after a synchronous data phase (R160 (e), R161, R162): a transmit-only phase keeps RX, a good transmit-receive
phase writes the received bytes, and a failed one leaves RX[0..n-1] = ⊥. -/
def syncRx (kind : SyncKind) (o : PhaseOutcome) (n : Nat) (miso : List Byte) (rx : Memory) : Memory :=
  match kind, o with
  | .write, _ => rx
  | .rw, .ok => Cells.writeFrom rx 0 miso
  | .rw, _ => Cells.eraseBelow rx n

/-- The Data record of a synchronous data phase (R160 (e)). -/
def syncRecord (kind : SyncKind) (cs : Nat) (o : PhaseOutcome) (n : Nat) (mosi miso : List Byte) : BusRecord :=
  .data (syncPhase kind) cs
    (if o = .ok then mosi.map some else unknownBytes n)
    (if o = .ok ∧ kind = .rw then miso.map some else unknownBytes n)
    o

/-- SyncXfer (e) (R160, R162): the data phase with its drawn outcome and SLAVE's bytes; the bus is idle after it. -/
def syncDataPhase (kind : SyncKind) (cs : Nat) (loc : Locals) (s : State) : State × PhaseOutcome :=
  let o := drawOutcome s
  let m := slaveBytes loc.n o.2
  (emit (syncRecord kind cs o.1 loc.n loc.mosi m.1)
      { m.2 with rx := syncRx kind o.1 loc.n m.1 m.2.rx, periph := .idle }, o.1)

/-- SyncXfer(kind, cs): micro-steps (a) to (f) of R160. -/
def microSync (kind : SyncKind) (cs : Byte) : MicroFn := fun m loc s =>
  match m with
  | .a =>
    if s.bound = false then .ret s .notInitialized .nothing
    else if s.bufSize = 0 then .ret s .emptyBuffer .nothing
    else .go s .b loc
  | .b => if assertCheck cs.toNat s = .ok then .go s .c loc else .ret s .selectFailed .nothing
  | .c => .go (assertDrive cs.toNat s) .d loc
  | .d =>
    if s.periph ≠ .idle then .go (raiseFault fStartWhileBusy s) .f { rc := .busy }
    else .go (syncBegin kind s).1 .e (syncBegin kind s).2
  | .e =>
    .go (syncDataPhase kind cs.toNat loc s).1 .f { rc := outcomeCode (syncDataPhase kind cs.toNat loc s).2 }
  | _ => .ret (deassert cs.toNat s).1 loc.rc .nothing

/-- SYNC.WRITE cs (R161): SyncXfer(SYNC_TX, cs). -/
def execSyncWrite (cs : Byte) (s : State) : Host.Outcome State Fault Refusal :=
  runRequest (.syncWrite cs) (microSync .write cs) s

/-- SYNC.RW cs (R163): SyncXfer(SYNC_TXRX, cs). -/
def execSyncRw (cs : Byte) (s : State) : Host.Outcome State Fault Refusal :=
  runRequest (.syncRw cs) (microSync .rw cs) s

end Sys2Proof.Machine
end

