-- ==== Sys2Proof/Machine/Frames.lean ====
section
/-! DEFINITION. The bus frames (spec/30_encoding.md R110 to R113) as instructions (log 10): a register frame is the host
macro of R99 that puts it on the bus, with the host's register line CS_REG (R243, R245); a sample frame is the end of the
receive-only data phase that carries it. -/

namespace Sys2Proof.Machine

/-- The length of a register frame, as BUF.SETTX's n (R7). -/
def regFrameSize : U32 := BitVec.ofNat 32 Config.regFrameBytes

/-- REG.WRITE of R99 with cs = CS_REG: BUF.SETTX frameW(a, v), then SYNC.WRITE CS_REG. -/
def microRegWrite (cs : Byte) (a : BitVec 7) (v : U32) : MicroFn :=
  sequenceMicro
    [microBufSetTx regFrameSize (frameW (a.setWidth 8) (v.setWidth 64)), microSync .write cs]

/-- REG.WRITE.FRAME (R110): the register write frame goes out on the bus. -/
def execRegWriteFrame (a : BitVec 7) (v : U32) (s : State) : Host.Outcome State Fault Refusal :=
  runRequest (.regWriteFrame a v) (microRegWrite s.params.csReg a v) s

/-- REG.READ of R99 with cs = CS_REG: BUF.SETTX frameR(a), then SYNC.RW CS_REG, then BUF.READRX. -/
def microRegRead (cs : Byte) (a : BitVec 7) : MicroFn :=
  sequenceMicro [microBufSetTx regFrameSize (frameR (a.setWidth 8)), microSync .rw cs, microBufReadRx]

/-- REG.READ.FRAME (R111): the register read frame goes out, and its response is the five bytes received with it. -/
def execRegReadFrame (a : BitVec 7) (s : State) : Host.Outcome State Fault Refusal :=
  runRequest (.regReadFrame a) (microRegRead s.params.csReg a) s

/-- Whether the data phase under way is one a sample frame is: receive-only, of SAMPLE_BYTES bytes (R112, R113). -/
def sampleUnderWay (s : State) : Bool :=
  decide (transferring s = some .rx) && decide (s.bufSize.toNat = Config.sampleBytes)

/-- SAMPLE.FRAME (R112): the data phase under way ends with this frame received (R190). -/
def sampleEnd (v : U24) (s : State) : State :=
  if sampleUnderWay s then endDataPhase .rx (sampleBytesOf v) s else s

/-- SAMPLE.FRAME (R112). -/
def execSampleFrame (v : U24) (s : State) : Host.Outcome State Fault Refusal := .next (sampleEnd v s)

end Sys2Proof.Machine
end

