-- ==== Sys2Proof/Machine/Capture.lean ====
section
/-! DEFINITION. The capture handshake arbiter: spec/44_capture.md R211, R212, R216, R217, R220 to R222. -/

namespace Sys2Proof.Machine

/-- `EDGE_EN <- 0`, and EDGE_PEND with it (R211). -/
def disableEdge (s : State) : State :=
  { s with edgeEn := false, edgePend := false }

/-- `EDGE_EN <- 1` (R220 (g)). -/
def enableEdge (s : State) : State :=
  { s with edgeEn := true }

/-- `CAP_TARGET <- n` (R220 (b)). -/
def setTarget (n : U32) (s : State) : State :=
  { s with capTarget := n }

/-- `CAP_COUNTER <- 0` and `REC[0..RECORD_CAP-1] <- ⊥` (R220 (c)). -/
def clearRecord (s : State) : State :=
  { s with capCounter := 0, record := [] }

/-- `CAP_CS <- cs` (R220 (f)). -/
def setCaptureLine (cs : Byte) (s : State) : State :=
  { s with capCs := some cs }

/-- `REC[c] <- v` at the counter c, and `CAP_COUNTER <- c + 1` (R216). -/
def recordSample (v : U32) (s : State) : State :=
  { s with record := Cells.write s.record s.capCounter.toNat v, capCounter := s.capCounter + 1 }

/-- The edge handler after its pending bit is cleared (R211): a busy bus is a no-op; c = 0 primes and 0 < c < t re-arms,
by AsyncStart(RX, CAP_CS) (R212); c ≥ t disables the edge interrupt. -/
def edgeHandler (s : State) : State :=
  if s.periph ≠ .idle then s
  else if s.capCounter = 0 ∨ s.capCounter < s.capTarget then
    (asyncStart .rx (known s.capCs s).1 (known s.capCs s).2).1
  else disableEdge s

/-- The sample in RX[0..2] (R216, R217); a ⊥ byte is a draw (R28). -/
def receivedSample (s : State) : U32 × State :=
  let b := readBytes s.rx 3 s
  (slotOfSample (sample24 (b.1.getD 0 0) (b.1.getD 1 0) (b.1.getD 2 0)), b.2)

/-- CaptureHook() (R216): a transfer that is not SAMPLE_BYTES long is a fault; at c ≥ t nothing is written; else the
sample goes to slot c and the counter to c + 1. -/
def captureHook (s : State) : State :=
  if s.bufSize.toNat ≠ Config.sampleBytes then raiseFault fSampleSize s
  else if s.capTarget ≤ s.capCounter then s
  else recordSample (receivedSample s).1 (receivedSample s).2

/-- SAMPLE_BYTES as a size. -/
def sampleSize : U32 := BitVec.ofNat 32 Config.sampleBytes

/-- CAP.START cs, n: micro-steps (a) to (g) of R220. -/
def microCapStart (cs : Byte) (n : U32) : MicroFn := fun m loc s =>
  match m with
  | .a => if s.params.recordCap < n.toNat then .ret s .capacityExceeded .nothing else .go s .b loc
  | .b => .go (setTarget n s) .c loc
  | .c => .go (clearRecord s) .d loc
  | .d => .go s .e { sized := decide (sizeCheck Config.sampleBytes s = .ok) }
  | .e => .go (if loc.sized then sizeWrite sampleSize (zeroBytes sampleSize) s else s) .f loc
  | .f => .go (setCaptureLine cs s) .g loc
  | .g => .ret (enableEdge s) .ok .nothing

/-- CAP.START cs, n (R220). -/
def execCapStart (cs : Byte) (n : U32) (s : State) : Host.Outcome State Fault Refusal :=
  runRequest (.capStart cs n) (microCapStart cs n) s

/-- CAP.COUNT: one micro-step (R221). -/
def microCapCount : MicroFn := fun _ _ s => .ret s .ok (.word s.capCounter)

/-- CAP.COUNT (R221). -/
def execCapCount (s : State) : Host.Outcome State Fault Refusal :=
  runRequest .capCount microCapCount s

/-- CAP.SLOT i: one micro-step (R222); an unwritten slot reads as a draw. -/
def microCapSlot (i : U32) : MicroFn := fun _ _ s =>
  if s.params.recordCap ≤ i.toNat then .ret s .invalidIndex .nothing
  else match Cells.read s.record i.toNat with
    | some v => .ret s .ok (.word v)
    | none => .ret (drawWord s).2 .ok (.word (drawWord s).1)

/-- CAP.SLOT i (R222). -/
def execCapSlot (i : U32) (s : State) : Host.Outcome State Fault Refusal :=
  runRequest (.capSlot i) (microCapSlot i) s

end Sys2Proof.Machine
end

