-- ==== Sys2Proof/Machine/Interrupts.lean ====
section
/-! DEFINITION. Interrupts: the completion handler and its hooks (spec/43_async_engine.md R191 to R194) and the taking
of an interrupt (spec/60_exceptions.md R270 to R276). -/

namespace Sys2Proof.Machine

/-- RegisterHook() (R193): "a no-op beyond pin release". -/
def registerHook (s : State) : State := s

/-- Hook(k) (R192): the capture hook for the receive kind under ACTIVE_DRIVER = CAPTURE, the register hook otherwise. -/
def hook (k : Kind) (s : State) : State :=
  if s.activeDriver = .capture ∧ k = .rx then captureHook s else registerHook s

/-- `Deassert(S.LAST_CS)` of R191. -/
def releaseLast (s : State) : State :=
  (deassert (known s.lastCs s).1.toNat (known s.lastCs s).2).1

/-- The completion handler of kind k after its pending bit is cleared (R191): the bus is idle, then the hook, then the
line is released, then the final result and DONE. -/
def completionHandler (k : Kind) (s : State) : State :=
  setStatus k { done := true, result := some ResultCode.ok.code }
    (releaseLast (hook k { s with xferDoneHw := false, periph := .idle }))

/-- The handler of a source (R271). -/
def handler (src : IrqSource) (s : State) : State :=
  match src with
  | .edge => edgeHandler s
  | .cpl k => completionHandler k s

/-- A turn of IRQ: it takes `src` if it may, as one atomic step: the pending bit is cleared and the handler runs (R271).
The handler returns by the step's end; there is nothing to restore (R276). -/
def takeInterrupt (src : IrqSource) (s : State) : State :=
  if mayTake src s then handler src (acknowledge src s) else s

end Sys2Proof.Machine
end

