-- ==== Sys2Proof/Machine/Dispatch.lean ====
section
/-! DEFINITION. One arm per row of the opcode table. -/

namespace Sys2Proof.Machine

def exec (i : Instr) (s : State) : Host.Outcome State Fault Refusal :=
  match i with
  | .csAssert cs => Sys2Proof.Machine.execCsAssert cs s
  | .csDeassert cs => Sys2Proof.Machine.execCsDeassert cs s
  | .bufSetSize n => Sys2Proof.Machine.execBufSetSize n s
  | .bufSetTx n p => Sys2Proof.Machine.execBufSetTx n p s
  | .bufReadRx => Sys2Proof.Machine.execBufReadRx s
  | .syncWrite cs => Sys2Proof.Machine.execSyncWrite cs s
  | .syncRw cs => Sys2Proof.Machine.execSyncRw cs s
  | .asyncRead cs => Sys2Proof.Machine.execAsyncRead cs s
  | .asyncRw cs => Sys2Proof.Machine.execAsyncRw cs s
  | .asyncStatus k => Sys2Proof.Machine.execAsyncStatus k s
  | .capStart cs n => Sys2Proof.Machine.execCapStart cs n s
  | .capCount => Sys2Proof.Machine.execCapCount s
  | .capSlot n => Sys2Proof.Machine.execCapSlot n s
  | .evEdge => Sys2Proof.Machine.execEvEdge s
  | .evXferEnd => Sys2Proof.Machine.execEvXferEnd s
  | .evReset => Sys2Proof.Machine.execEvReset s
  | .regWriteFrame a v => Sys2Proof.Machine.execRegWriteFrame a v s
  | .regReadFrame a => Sys2Proof.Machine.execRegReadFrame a s
  | .sampleFrame v => Sys2Proof.Machine.execSampleFrame v s

end Sys2Proof.Machine
end

