-- ==== Sys2Proof/Machine/HostProtocol.lean ====
section
/-! DEFINITION. The host's commands as programs of requests: spec/45_host_protocol.md R240 to R247, and the
pseudo-requests of spec/30_encoding.md R99. A command comes as its tokens (R5 leaves the tokenizer out). -/

namespace Sys2Proof.Machine

/-! ### Numbers (R241, R244) -/

/-- The value of a decimal digit. -/
def digitVal (c : Char) : Option Nat :=
  if 48 ≤ c.toNat ∧ c.toNat ≤ 57 then some (c.toNat - 48) else none

/-- The value of a token of decimal digits only. -/
def plainDecimal : List Char → Nat → Option Nat
  | [], acc => some acc
  | c :: cs, acc =>
    match digitVal c with
    | some d => plainDecimal cs (acc * 10 + d)
    | none => none

/-- What a token that is no plain decimal number below 2^64 parses to: nothing where parsing is strict, else left open
(PARSE_STRICT, R241, log 16). -/
def parseOdd (p : Params) (t : Text) : Option Nat :=
  if p.parseStrict then none else Config.parseLax t

/-- A numeric argument (R241). -/
def parseNum (p : Params) (t : Text) : Option Nat :=
  if t = [] then parseOdd p t
  else match plainDecimal t 0 with
    | none => parseOdd p t
    | some v => if v < 2 ^ 64 then some v else parseOdd p t

/-- A value of WREG (R244): under the range `u32` a larger one is malformed. -/
def wregValue (p : Params) (t : Text) : Option U64 :=
  match parseNum p t with
  | none => none
  | some v => if p.wregRange = .u32 ∧ 2 ^ 32 ≤ v then none else some (BitVec.ofNat 64 v)

/-! ### Programs -/

/-- BUF.SETTX with a payload (R99). -/
def setTx (bs : List Byte) : Instr := .bufSetTx (BitVec.ofNat 32 bs.length) bs

/-- `REG.WRITE cs, a, v` (R99). -/
def regWriteOps (cs a : Byte) (v : U64) : List HostOp :=
  [.issue (setTx (frameW a v)), .issue (.syncWrite cs)]

/-- `REG.READ cs, a` (R99). -/
def regReadOps (cs a : Byte) : List HostOp :=
  [.issue (setTx (frameR a)), .issue (.syncRw cs), .issue .bufReadRx]

/-- The expansion of a pseudo-request (R99). -/
def pseudoOps : Pseudo → List HostOp
  | .regWrite cs a v => regWriteOps cs a v
  | .regRead cs a => regReadOps cs a
  | .waitAsync k => [.issue (.asyncStatus (idxOfKind k)), .checkDone k]
  | .waitCap n => [.issue .capCount, .checkCount n]

/-- The line WREG answers (R243). -/
def wregOk : Text := ['W', 'R', 'E', 'G', ' ', 'O', 'K']

/-- `WREG a0 a1 a2` (R243). -/
def wregOps (p : Params) (v0 v1 v2 : U64) : List HostOp :=
  regWriteOps p.csReg 0 v0 ++ regWriteOps p.csReg 1 v1 ++ regWriteOps p.csReg 2 v2 ++ [.writeLine wregOk]

/-- `RREG a` (R245); an address above 4 is dropped. -/
def rregOps (p : Params) (a : Nat) : List HostOp :=
  if 4 < a then [] else regReadOps p.csReg (BitVec.ofNat 8 a) ++ [.writeBin40]

/-- `RADC n` (R247); a count above RECORD_CAP is rejected silently. -/
def radcOps (p : Params) (n : Nat) : List HostOp :=
  if p.recordCap < n then []
  else [.issue (.capStart p.csCap (BitVec.ofNat 32 n)), .issue .capCount, .checkCount n, .writeCount] ++
    (List.range n).flatMap fun i => [.issue (.capSlot (BitVec.ofNat 32 i)), .writeBin32]

/-- The arguments of WREG: three values, and what follows them is ignored (R240, R243). -/
def wregArgs (p : Params) : List Text → List HostOp
  | t0 :: t1 :: t2 :: _ =>
    match wregValue p t0, wregValue p t1, wregValue p t2 with
    | some v0, some v1, some v2 => wregOps p v0 v1 v2
    | _, _, _ => []
  | _ => []

/-- The argument of RREG (R240, R245). -/
def rregArgs (p : Params) : List Text → List HostOp
  | t :: _ =>
    match parseNum p t with
    | some a => rregOps p a
    | none => []
  | [] => []

/-- The argument of RADC (R240, R247). -/
def radcArgs (p : Params) : List Text → List HostOp
  | t :: _ =>
    match parseNum p t with
    | some n => radcOps p n
    | none => []
  | [] => []

/-- What a command line asks for (R240): the first token, case-sensitive, selects the command; any other line, and a
malformed or short one, is dropped with no response. -/
def commandOps (p : Params) : List Text → List HostOp
  | ['W', 'R', 'E', 'G'] :: args => wregArgs p args
  | ['R', 'R', 'E', 'G'] :: args => rregArgs p args
  | ['R', 'A', 'D', 'C'] :: args => radcArgs p args
  | _ => []

/-! ### The host's own actions -/

/-- `WriteLine(text)`, which "appends CR LF" (R240). -/
def writeLine (t : Text) (s : State) : State :=
  { s with lineOut := s.lineOut ++ [t ++ ['\r', '\n']] }

/-- The u32 of the response taken last; there is one wherever a host program asks for it, else it is a free value
(log 15). -/
def responseWord (s : State) : U32 × State :=
  match s.response with
  | some { rc := .ok, data := .word v } => (v, s)
  | _ => drawWord s

/-- The byte list of the response taken last. -/
def responseBytes (s : State) : List Byte :=
  match s.response with
  | some { rc := .ok, data := .bytes bs } => bs
  | _ => []

/-- Whether the response taken last is `(OK, n)` (WAIT.CAP, R99). -/
def countIs (n : Nat) (s : State) : Bool :=
  match s.response with
  | some { rc := .ok, data := .word v } => decide (v.toNat = n)
  | _ => false

/-- Whether the response taken last has bit 8 of the status word set (WAIT.ASYNC, R99). -/
def doneIs (s : State) : Bool :=
  match s.response with
  | some { rc := .ok, data := .status w } => w.getLsbD 8
  | _ => false

/-- The 40-bit value RREG prints (R245): the five bytes of the response; a byte it does not have is a free value
(log 15). -/
def printedReg (s : State) : U40 × State :=
  let b := fun j => (responseBytes s).getD j (Config.freeByte (s.draws + j))
  (reg40 (b 0) (b 1) (b 2) (b 3) (b 4), { s with draws := s.draws + 5 })

/-- An action of a host program that issues no request. The program's rest stands in `hostProg` already. -/
def hostLocal (op : HostOp) (s : State) : State :=
  match op with
  | .issue _ => s
  | .checkCount n =>
    if countIs n s then s else { s with hostProg := .issue .capCount :: .checkCount n :: s.hostProg }
  | .checkDone k =>
    if doneIs s then s
    else { s with hostProg := .issue (.asyncStatus (idxOfKind k)) :: .checkDone k :: s.hostProg }
  | .writeLine t => writeLine t s
  | .writeBin40 => writeLine (binText (printedReg s).1) (printedReg s).2
  | .writeCount => writeLine (decimalText (responseWord s).1.toNat) (responseWord s).2
  | .writeBin32 => writeLine (binText (responseWord s).1) (responseWord s).2

end Sys2Proof.Machine
end

