-- ==== Sys2Proof/Machine/Schedule.lean ====
section
/-! DEFINITION. Whose step is next (spec/00_scope.md R11, R14, spec/20_memory.md R77), where FG's next request comes from
(spec/30_encoding.md R90, spec/45_host_protocol.md R250), and the answer to an illegal word (R95). -/

namespace Sys2Proof.Machine

/-- An illegal request word is taken, whole as R97 measures it, and answered `(ILLEGAL, none)`; no other state changes
(R95, log 9). -/
def answerIllegal (s : State) : State :=
  respond .illegal .nothing { s with port := s.port.drop (wordLength s.port) }

/-- HOST takes its next input (R240, R99): a command line or a pseudo-request becomes a host program, a register frame is
decoded and sent (log 10). Bytes that are not exactly one frame, fewer, more or reserved, are refused (log 20). With no
input it waits. -/
def hostTake (s : State) : Host.Outcome State Fault Refusal :=
  match s.hostIn with
  | [] => .next s
  | .line tokens :: rest => .next { s with hostIn := rest, hostProg := commandOps s.params tokens }
  | .pseudo p :: rest => .next { s with hostIn := rest, hostProg := pseudoOps p }
  | .frame bytes :: rest =>
    match decode .frame40 bytes with
    | .ok (i, []) => exec i { s with hostIn := rest }
    | .ok (_, _ :: _) => .refused .notAFrame
    | .error _ => .refused .notAFrame

/-- The next action of the host program in progress. -/
def hostAct (op : HostOp) (s : State) : Host.Outcome State Fault Refusal :=
  match op with
  | .issue r => exec r s
  | .checkCount n => .next (hostLocal (.checkCount n) s)
  | .checkDone k => .next (hostLocal (.checkDone k) s)
  | .writeLine t => .next (hostLocal (.writeLine t) s)
  | .writeBin40 => .next (hostLocal .writeBin40 s)
  | .writeCount => .next (hostLocal .writeCount s)
  | .writeBin32 => .next (hostLocal .writeBin32 s)

/-- A request is fetched from the port: a whole one is run, a whole illegal word is answered, and while the host has sent
neither whole FG looks at its other inputs (R95, R96, R97, log 8). -/
def fetchRequest (s : State) : Host.Outcome State Fault Refusal :=
  match decode .req64 s.port with
  | .ok (i, rest) => exec i { s with port := rest }
  | .error .illegalWord => if wordLength s.port ≤ s.port.length then .next (answerIllegal s) else hostTake s
  | .error _ => hostTake s

/-- Whether a whole request, or a whole illegal word, stands at the port. -/
def portReady (s : State) : Bool :=
  match decode .req64 s.port with
  | .ok _ => true
  | .error .illegalWord => decide (wordLength s.port ≤ s.port.length)
  | .error _ => false

/-- A turn of FG (R21, R250): it goes on with the request in progress; else with the host program in progress; else it
takes the next request from the port, or the next input of HOST (log 13). -/
def fgTurn (s : State) : Host.Outcome State Fault Refusal :=
  match s.fg with
  | .busy i _ _ => exec i s
  | .idle =>
    match s.hostProg with
    | op :: rest => hostAct op { s with hostProg := rest }
    | [] => fetchRequest s

/-- A turn of PERIPH (R190): EV.XFER_END, its received bytes SLAVE's, or the frame it is given (R112). -/
def periphTurn (sample : Option U24) (s : State) : Host.Outcome State Fault Refusal :=
  match sample with
  | none => exec .evXferEnd s
  | some v => exec (.sampleFrame v) s

/-- A step of HOST of its own (log 27): bytes more at the request port, or something more to do. -/
def hostMove (m : HostMove) (s : State) : State :=
  match m with
  | .send bytes => { s with port := s.port ++ bytes }
  | .ask x => { s with hostIn := s.hostIn ++ [x] }

/-- A step of SLAVE (R78, log 27): the bytes it answers next are known. -/
def slaveAnswer (bytes : List Byte) (s : State) : State :=
  { s with slaveIn := s.slaveIn ++ bytes }

/-- One turn: a step of one agent. -/
def runTurn (t : Turn) (s : State) : Host.Outcome State Fault Refusal :=
  match t with
  | .fg k => fgTurn { s with quota := k }
  | .irq src => .next (takeInterrupt src s)
  | .periph sample => periphTurn sample s
  | .edge => exec .evEdge s
  | .slave bytes => .next (slaveAnswer bytes s)
  | .host m => .next (hostMove m s)
  | .platform => exec .evReset s

/-- The next turn: the first one listed, or, past the listed ones, a free move (R77, log 2). -/
def nextTurn (s : State) : Turn × State :=
  match s.turns with
  | t :: rest => (t, { s with turns := rest })
  | [] => (Config.freeMove s.draws, { s with draws := s.draws + 1 })

/-- More micro-steps than any instruction has: a turn that runs one whole. -/
def wholeTurn : Nat := 16

/-- `s` with the bytes of one request next at the port, and FG's turn next. -/
def placeRequest (bs : List Byte) (s : State) : State :=
  { s with fg := .idle, hostProg := [], port := bs ++ s.port, turns := .fg wholeTurn :: s.turns }

/-- `s` with a register frame as HOST's next input, and FG's turn next. -/
def placeFrame (bs : List Byte) (s : State) : State :=
  { s with
    fg := .idle
    hostProg := []
    port := []
    hostIn := .frame bs :: s.hostIn
    turns := .fg wholeTurn :: s.turns }

/-- The turn in which an event or a sample frame happens (R100, R112); FG runs every other instruction. -/
def turnOfEvent : Instr → Option Turn
  | .evEdge => some .edge
  | .evXferEnd => some (.periph none)
  | .evReset => some .platform
  | .sampleFrame v => some (.periph (some v))
  | .csAssert _ | .csDeassert _ | .bufSetSize _ | .bufSetTx _ _ | .bufReadRx | .syncWrite _ | .syncRw _ | .asyncRead _
  | .asyncRw _ | .asyncStatus _ | .capStart _ _ | .capCount | .capSlot _ | .regWriteFrame _ _ | .regReadFrame _ => none

/-- `s` with the turn of the event, or of the sample frame, that these bytes stand for next; bytes that stand for none
place nothing. -/
def placeEvent (f : Format) (bs : List Byte) (s : State) : State :=
  match decode f bs with
  | .ok (i, _) => { s with turns := (turnOfEvent i).toList ++ s.turns }
  | .error _ => s

/-- `s` with the instruction of these bytes placed where the next step takes it from. -/
def placeBytes (f : Format) (bs : List Byte) (s : State) : State :=
  match f with
  | .req64 => placeRequest bs s
  | .frame40 => placeFrame bs s
  | .event8 => placeEvent f bs s
  | .frame24 => placeEvent f bs s

end Sys2Proof.Machine
end

