-- ==== Sys2Proof/Safety.lean ====
section
/-! DEFINITION. What claims are made of: well-formed states, the invariants of spec/10_state.md R45, runs, and the
fairness assumptions of spec/60_exceptions.md R285. -/

namespace Sys2Proof.Machine

/-- `FAULTS = 0`, the premise of every claim about the block (R265). -/
def faultFree (s : State) : Bool := s.faults == 0

/-- Whether FG runs the instruction: a request, or a register frame (log 10); not an event, not a sample frame. -/
def isRequest (i : Instr) : Bool :=
  decide (i.format = .req64) || decide (i.format = .frame40)

/-- Everything a host program issues is a request that an encoding stands for. -/
def progWf (prog : List HostOp) : Bool :=
  prog.all fun op => match op with
    | .issue r => r.wf && isRequest r
    | _ => true

/-- What a request has checked, or fixed, before its next micro-step: a size write at (b) has passed its capacity check
(R140, R143), CAP.START after (a) its own (R220), and a synchronous data phase has at most BUF_CAP bytes (R160). -/
def phaseWf (p : Params) : FgPhase → Bool
  | .idle => true
  | .busy i m loc =>
    i.wf && isRequest i && decide (loc.n ≤ p.bufCap) &&
      match i with
      | .bufSetSize n => decide (m ≠ .a → n.toNat ≤ p.bufCap)
      | .bufSetTx n _ => decide (m ≠ .a → n.toNat ≤ p.bufCap)
      | .capStart _ n => decide (m ≠ .a → n.toNat ≤ p.recordCap)
      | _ => true

/-- The shape every state of a run has: parameters in the ranges of R7, BOUND and ACTIVE_DRIVER as bound at reset (R22,
R38), one level per line (R23), BUF_SIZE ≤ BUF_CAP (R27), the stores canonical and in range (R28, R34), CAP_TARGET ≤
RECORD_CAP (R32), FAULTS bits 7:5 zero (R40). -/
structure State.Wf (s : State) : Prop where
  params  : s.params.legal = true
  bound   : s.bound = s.params.handleBound
  driver  : s.activeDriver = s.params.activeDriver
  lines   : s.csLevel.length = s.params.nCs
  size    : s.bufSize.toNat ≤ s.params.bufCap
  tx      : Memory.wf s.tx = true
  txCap   : Cells.below s.params.bufCap s.tx = true
  rx      : Memory.wf s.rx = true
  rxCap   : Cells.below s.params.bufCap s.rx = true
  record  : Cells.wf s.record = true
  recCap  : Cells.below s.params.recordCap s.record = true
  target  : s.capTarget.toNat ≤ s.params.recordCap
  faults  : s.faults &&& 0xE0 = 0
  phase   : phaseWf s.params s.fg = true
  prog    : progWf s.hostProg = true

/-- R134, mutual exclusion: while F_MULTI_SELECT is clear, at most one line is low. -/
def MutualExclusion (s : State) : Prop :=
  hasFault fMultiSelect s = false → lowCount s ≤ 1

/-- Whether FG is between micro-steps (b) and (c) of CAP.START: the window R45 (iv) excepts. -/
def capStartWindow (s : State) : Bool :=
  match s.fg with
  | .busy (.capStart _ _) .c _ => true
  | _ => false

/-- R45 (iv): the counter does not exceed the target outside CAP.START's window. -/
def CounterBounded (s : State) : Prop :=
  capStartWindow s = true ∨ s.capCounter ≤ s.capTarget

/-- R45 (v): every slot below the counter is written. -/
def RecordFilled (s : State) : Prop :=
  ∀ i, i < s.capCounter.toNat → (Cells.read s.record i).isSome = true

/-- Whether FG is in a synchronous data phase: SyncXfer's micro-step (e) is next. -/
def inSyncPhase (fg : FgPhase) : Bool :=
  match fg with
  | .busy (.syncWrite _) .e _ => true
  | .busy (.syncRw _) .e _ => true
  | .busy (.regWriteFrame _ _) .e _ => true
  | .busy (.regReadFrame _) .e _ => true
  | _ => false

/-- Whether FG is about to call the non-blocking primitive: AsyncStart's micro-step (d) is next. -/
def atPrimitive (fg : FgPhase) : Bool :=
  match fg with
  | .busy (.asyncRead _) .d _ => true
  | .busy (.asyncRw _) .d _ => true
  | _ => false

/-- How the transfer flags hang together: XFER_DONE_HW is 1 only with an asynchronous transfer (R26); a completion is
pending only for the kind in flight, with its data phase ended (R37, R190); a synchronous data phase has the bus (R160);
LAST_CS is valid exactly when it is known, and is known while an asynchronous transfer is in flight (R24, R181). -/
structure TransferFlags (s : State) : Prop where
  doneHw   : s.xferDoneHw = true → ∃ k, s.periph = asyncPeriph k
  pending  : ∀ k, pending (.cpl k) s = true → s.periph = asyncPeriph k ∧ s.xferDoneHw = true
  sync     : inSyncPhase s.fg = true → s.periph = .syncTx ∨ s.periph = .syncTxRx
  valid    : s.lastCsV = s.lastCs.isSome
  starting : atPrimitive s.fg = true → s.lastCsV = true
  named    : ∀ k, s.periph = asyncPeriph k → s.lastCsV = true

/-- R45 (ii) and (vi) for asynchronous transfers: the line of the transfer in flight is low. -/
def InFlightLineLow (s : State) : Prop :=
  ∀ k, s.periph = asyncPeriph k → ∃ cs : Byte, s.lastCs = some cs ∧ levelOf cs.toNat s = false

/-- FG is idle and has a turn of at least `k` micro-steps: enough to run a request of `k` micro-steps whole (log 3). -/
def Ready (k : Nat) (s : State) : Prop := s.fg = .idle ∧ k ≤ s.quota

/-- Nothing stands in the way of a transfer on line `cs`: a handle is bound, the buffer is not empty, the index is in
range, no line is low, the bus is idle (R160 (a), (b), (d); R181 (a), (b), (d)). -/
def MayTransfer (cs : Byte) (s : State) : Prop :=
  s.bound = true ∧ s.bufSize ≠ 0 ∧ cs.toNat < s.params.nCs ∧ lowCount s = 0 ∧ s.periph = .idle

/-- `bs` are the first `n` cells of `m` as they reach the bus: as many bytes, each known cell as it is (R28). -/
def SentBytes (m : Memory) (n : Nat) (bs : List Byte) : Prop :=
  bs.length = n ∧ ∀ j v, j < n → Cells.read m j = some v → bs[j]? = some v

/-- `m'` is `m` with cells 0 to n-1 holding `vs`, or ⊥ where `vs` has no byte, and every other cell as it was. -/
def PrefixHolds (m m' : Memory) (n : Nat) (vs : List Byte) : Prop :=
  ∀ j, Cells.read m' j = if j < n then vs[j]? else Cells.read m j

/-- One step leads from `s` to `t`. -/
def Steps (s t : State) : Prop := step s = .next t

/-- Some steps lead from `s` to `t`. -/
inductive Reaches (s : State) : State → Prop where
  | refl : Reaches s s
  | tail {t u : State} : Reaches s t → Steps t u → Reaches s u

/-- The state after reset under parameters `p`, with the environment's inputs and the schedule placed. -/
def loaded (p : Params) (port : List Byte) (hostIn : List HostInput) (turns : List Turn) (slaveIn : List Byte)
    (outcomeIn : List PhaseOutcome) (startIn : List Bool) : State :=
  { State.initial p with
    port := port
    hostIn := hostIn
    turns := turns
    slaveIn := slaveIn
    outcomeIn := outcomeIn
    startIn := startIn }

/-- The states of the runs of the block under any legal parameters, inputs and schedule. -/
def Reachable (s : State) : Prop :=
  ∃ p port hostIn turns slaveIn outcomeIn startIn,
    Params.legal p = true ∧ Reaches (loaded p port hostIn turns slaveIn outcomeIn startIn) s

/-- A run without end: each state is the step of the one before. -/
def IsRun (r : Nat → State) : Prop := ∀ n, Steps (r n) (r (n + 1))

/-- R285 (F1), assumed where ASYNC_ENDS is: every asynchronous data phase ends. -/
def AsyncEnds (r : Nat → State) : Prop :=
  ∀ n, (r n).params.asyncEnds = true → (transferring (r n)).isSome = true → ∃ m, n ≤ m ∧ transferring (r m) = none

/-- R285 (F2): every pending interrupt is taken. -/
def IrqFair (r : Nat → State) : Prop :=
  ∀ n src, pending src (r n) = true → ∃ m, n ≤ m ∧ pending src (r m) = false

/-- Whether FG has a next micro-step to take: a request in progress, a host program in progress (one that polls among
them), a request or an illegal word whole at the port, or an input of HOST. -/
def fgHasWork (s : State) : Bool :=
  decide (s.fg ≠ .idle) || !s.hostProg.isEmpty || portReady s || !s.hostIn.isEmpty

/-- R285 (F3): while FG has a next micro-step it is not held off for ever: it gets a turn of at least one micro-step, or
it has none to take any more. There is no such assumption for EDGE (F4), so a program that polls may poll for ever. -/
def FgFair (r : Nat → State) : Prop :=
  ∀ n, fgHasWork (r n) = true → ∃ m, n ≤ m ∧ (fgHasWork (r m) = false ∨ ∃ k, (nextTurn (r m)).1 = .fg (k + 1))

end Sys2Proof.Machine
end

