-- ==== Sys2Proof/Certificates/Slice0/Obligations.lean ====
section
/-! DEFINITION. The statements for the provers. -/

open Sys2Proof Sys2Proof.Machine

/-! ### Chip-select arbiter (spec/40_chip_select.md) -/

/-- R130, R131: with the index in range and no line low, CS.ASSERT drives its line low, logs it and answers OK; nothing
else changes. -/
def Obligations.CsAssertDrivesItsLineLow : Prop :=
  ∀ (cs : Byte) (s : State), Ready 2 s → cs.toNat < s.params.nCs → lowCount s = 0 →
    exec (.csAssert cs) s = .next (respond .ok .nothing
      { s with csLevel := s.csLevel.set cs.toNat false, busLog := s.busLog ++ [.csLow cs.toNat] })

/-- R130 (a): the range is tested before the conflict, and a refused CS.ASSERT changes no line and logs nothing. -/
def Obligations.CsAssertRefusesInOrder : Prop :=
  ∀ (cs : Byte) (s : State), Ready 1 s →
    (s.params.nCs ≤ cs.toNat → exec (.csAssert cs) s = .next (respond .invalidIndex .nothing s)) ∧
    (cs.toNat < s.params.nCs → 0 < lowCount s →
      exec (.csAssert cs) s = .next (respond .selectConflict .nothing s))

/-- R130 (b): where another line went low after the check, the drive leaves both low and raises F_MULTI_SELECT; where
none did, it raises nothing (R301: the check and the drive are two micro-steps). -/
def Obligations.CsAssertDriveRaisesMultiSelect : Prop :=
  ∀ (cs : Byte) (loc : Locals) (s : State), s.fg = .busy (.csAssert cs) .b loc → 1 ≤ s.quota →
    cs.toNat < s.csLevel.length →
    ((∃ j, j ≠ cs.toNat ∧ levelOf j s = false) →
      exec (.csAssert cs) s = .next (respond .ok .nothing
        { s with csLevel := s.csLevel.set cs.toNat false, busLog := s.busLog ++ [.csLow cs.toNat],
                 faults := s.faults ||| 0x01 })) ∧
    ((∀ j, j ≠ cs.toNat → levelOf j s = true) →
      exec (.csAssert cs) s = .next (respond .ok .nothing
        { s with csLevel := s.csLevel.set cs.toNat false, busLog := s.busLog ++ [.csLow cs.toNat] }))

/-- R132, R133: CS.DEASSERT of a line in range drives it high, logs it and answers OK, and raises
F_CS_RELEASED_IN_FLIGHT exactly when the line was low with a transfer in flight; out of range it changes nothing. -/
def Obligations.CsDeassertReleasesItsLine : Prop :=
  ∀ (cs : Byte) (s : State), Ready 1 s →
    (s.params.nCs ≤ cs.toNat → exec (.csDeassert cs) s = .next (respond .invalidIndex .nothing s)) ∧
    (cs.toNat < s.params.nCs → exec (.csDeassert cs) s = .next (respond .ok .nothing
      { s with csLevel := s.csLevel.set cs.toNat true, busLog := s.busLog ++ [.csHigh cs.toNat],
               faults := if s.periph ≠ .idle ∧ levelOf cs.toNat s = false then s.faults ||| 0x02 else s.faults }))

/-- R134: while F_MULTI_SELECT is clear at most one line is low, and every step keeps that. -/
def Obligations.StepKeepsMutualExclusion : Prop :=
  ∀ s t : State, MutualExclusion s → step s = .next t → MutualExclusion t

/-! ### Transfer buffer (spec/41_buffer.md) -/

/-- R140: on an idle bus with n ≤ BUF_CAP, BUF.SETSIZE sets the size, fills TX[0..n-1] with zeros and makes RX[0..n-1]
unknown; every other cell and everything else is unchanged. -/
def Obligations.BufSetSizeZeroFillsTransmit : Prop :=
  ∀ (n : U32) (s : State), Ready 2 s → s.periph = .idle → n.toNat ≤ s.params.bufCap →
    ∃ tx rx, exec (.bufSetSize n) s = .next (respond .ok .nothing { s with bufSize := n, tx := tx, rx := rx }) ∧
      PrefixHolds s.tx tx n.toNat (List.replicate n.toNat 0) ∧ PrefixHolds s.rx rx n.toNat []

/-- R143: on an idle bus with n ≤ BUF_CAP, BUF.SETTX sets the size to the payload's length, copies the payload to
TX[0..n-1] and makes RX[0..n-1] unknown; every other cell and everything else is unchanged. -/
def Obligations.BufSetTxCopiesPayload : Prop :=
  ∀ (n : U32) (p : List Byte) (s : State), (Instr.bufSetTx n p).wf = true → Ready 2 s → s.periph = .idle →
    n.toNat ≤ s.params.bufCap →
    ∃ tx rx, exec (.bufSetTx n p) s = .next (respond .ok .nothing { s with bufSize := n, tx := tx, rx := rx }) ∧
      PrefixHolds s.tx tx n.toNat p ∧ PrefixHolds s.rx rx n.toNat []

/-- R140, R143: BUSY is tested before CAPACITY_EXCEEDED, and on either failure nothing but the response changes. -/
def Obligations.BufferWriteRefusesInOrder : Prop :=
  ∀ (i : Instr) (n : U32) (s : State), (i = .bufSetSize n ∨ ∃ p, i = .bufSetTx n p) → Ready 1 s →
    (s.periph ≠ .idle → exec i s = .next (respond .busy .nothing s)) ∧
    (s.periph = .idle → s.params.bufCap < n.toNat → exec i s = .next (respond .capacityExceeded .nothing s))

/-- R145, R146: BUF.READRX answers OK with exactly BUF_SIZE bytes, each known RX cell as it is on an idle bus; but for the
response and the count of free values nothing changes. -/
def Obligations.BufReadRxAnswersTheActiveSize : Prop :=
  ∀ s : State, Ready 1 s →
    ∃ bs d, exec .bufReadRx s = .next (respond .ok (.bytes bs) { s with draws := d }) ∧
      bs.length = s.bufSize.toNat ∧ (s.periph = .idle → SentBytes s.rx s.bufSize.toNat bs)

/-- R141: a step from a state with a transfer in flight leaves BUF_SIZE as it is, unless it raises
F_BUFFER_WRITE_IN_FLIGHT or resets the block. The exception is the race of R140 (b), R143 (b) and R220 (e) (R302): the
writing micro-step of BUF.SETSIZE, of BUF.SETTX and of CAP.START, with a transfer begun since its check, sets FAULTS bit 3
and still writes BUF_SIZE, TX and RX. -/
def Obligations.SizeKeptInFlight : Prop :=
  (∀ s t : State, s.Wf → step s = .next t → s.periph ≠ .idle →
    t.bufSize = s.bufSize ∨ hasFault fBufferWriteInFlight t = true ∨ (nextTurn s).1 = .platform) ∧
  (∀ (i : Instr) (n : U32) (bs : List Byte) (loc : Locals) (s : State),
    ((i = .bufSetSize n ∧ bs = List.replicate n.toNat 0) ∨ (i = .bufSetTx n bs ∧ i.wf = true)) →
    s.fg = .busy i .b loc → 1 ≤ s.quota → s.periph ≠ .idle →
    ∃ tx rx, exec i s = .next (respond .ok .nothing
        { s with bufSize := n, tx := tx, rx := rx, faults := s.faults ||| 0x08 }) ∧
      PrefixHolds s.tx tx n.toNat bs ∧ PrefixHolds s.rx rx n.toNat []) ∧
  (∀ (cs : Byte) (n : U32) (loc : Locals) (s : State), s.fg = .busy (.capStart cs n) .e loc → loc.sized = true →
    s.quota = 1 → s.periph ≠ .idle →
    ∃ tx rx, exec (.capStart cs n) s = .next
        { s with fg := .busy (.capStart cs n) .f loc, bufSize := 3, tx := tx, rx := rx, faults := s.faults ||| 0x08 } ∧
      PrefixHolds s.tx tx 3 [0, 0, 0] ∧ PrefixHolds s.rx rx 3 [])

/-! ### Synchronous engine (spec/42_sync_engine.md) -/

/-- R160, R161, R164: SYNC.WRITE run whole, with nothing between its micro-steps. It answers the data phase's outcome,
its line is high again, BUS_LOG gets CsLow, one Data record with the transmit bytes, CsHigh; RX and everything else but
the environment's answers taken is unchanged. -/
def Obligations.SyncWriteRunsWhole : Prop :=
  ∀ (cs : Byte) (s : State), Ready 6 s → MayTransfer cs s →
    ∃ o mosi d, exec (.syncWrite cs) s = .next (respond (outcomeCode o) .nothing
        { s with
          busLog := s.busLog ++ [.csLow cs.toNat,
            .data .syncTx cs.toNat (if o = .ok then mosi.map some else unknownBytes s.bufSize.toNat)
              (unknownBytes s.bufSize.toNat) o,
            .csHigh cs.toNat]
          slaveIn := s.slaveIn.drop s.bufSize.toNat
          outcomeIn := s.outcomeIn.tail
          draws := d }) ∧
      SentBytes s.tx s.bufSize.toNat mosi ∧ (∀ x rest, s.outcomeIn = x :: rest → o = x)

/-- R160, R163, R164: SYNC.RW run whole. As SYNC.WRITE, and RX[0..n-1] holds the bytes SLAVE answered when the outcome is
OK and is unknown otherwise. -/
def Obligations.SyncRwRunsWhole : Prop :=
  ∀ (cs : Byte) (s : State), Ready 6 s → MayTransfer cs s →
    ∃ o mosi miso rx d, exec (.syncRw cs) s = .next (respond (outcomeCode o) .nothing
        { s with
          rx := rx
          busLog := s.busLog ++ [.csLow cs.toNat,
            .data .syncTxRx cs.toNat (if o = .ok then mosi.map some else unknownBytes s.bufSize.toNat)
              (if o = .ok then miso.map some else unknownBytes s.bufSize.toNat) o,
            .csHigh cs.toNat]
          slaveIn := s.slaveIn.drop s.bufSize.toNat
          outcomeIn := s.outcomeIn.tail
          draws := d }) ∧
      SentBytes s.tx s.bufSize.toNat mosi ∧ miso.length = s.bufSize.toNat ∧
      (∀ j v, j < s.bufSize.toNat → s.slaveIn[j]? = some v → miso[j]? = some v) ∧
      PrefixHolds s.rx rx s.bufSize.toNat (if o = .ok then miso else []) ∧
      (∀ x rest, s.outcomeIn = x :: rest → o = x)

/-- R160 (a), (b), R274: a SYNC.* fails fast in order NOT_INITIALIZED, EMPTY_BUFFER, SELECT_FAILED; it drives no line and
logs nothing. -/
def Obligations.SyncFailsFastInOrder : Prop :=
  ∀ (i : Instr) (cs : Byte) (s : State), (i = .syncWrite cs ∨ i = .syncRw cs) → Ready 2 s →
    (s.bound = false → exec i s = .next (respond .notInitialized .nothing s)) ∧
    (s.bound = true → s.bufSize = 0 → exec i s = .next (respond .emptyBuffer .nothing s)) ∧
    (s.bound = true → s.bufSize ≠ 0 → (s.params.nCs ≤ cs.toNat ∨ 0 < lowCount s) →
      exec i s = .next (respond .selectFailed .nothing s))

/-- R164: a SYNC.* that asserted its line deasserts that same line before it returns: its last micro-step, whatever ran
between, drives the line high, logs CsHigh, and answers the outcome it holds. -/
def Obligations.SyncReleasesItsLineOnEveryOutcome : Prop :=
  ∀ (i : Instr) (cs : Byte) (loc : Locals) (s : State), (i = .syncWrite cs ∨ i = .syncRw cs) →
    s.fg = .busy i .f loc → 1 ≤ s.quota → cs.toNat < s.params.nCs → cs.toNat < s.csLevel.length →
    ∃ t, exec i s = .next t ∧ levelOf cs.toNat t = true ∧ t.busLog = s.busLog ++ [.csHigh cs.toNat] ∧
      t.fg = .idle ∧ t.response = some { rc := loc.rc, data := .nothing } ∧
      ∀ j, j ≠ cs.toNat → levelOf j t = levelOf j s

/-- R160 (d): a SYNC.* that finds a transfer in flight after it drove its line raises F_START_WHILE_BUSY, has no data
phase, and answers BUSY. R181 (d), R303: an ASYNC.* that does raises it too, releases its line at once (R132: with
F_CS_RELEASED_IN_FLIGHT where the line was low), answers and records ERROR, and writes neither DONE nor PERIPH_STATE. -/
def Obligations.SyncStartOnBusyBusIsAFault : Prop :=
  (∀ (i : Instr) (cs : Byte) (loc : Locals) (s : State), (i = .syncWrite cs ∨ i = .syncRw cs) →
    s.fg = .busy i .d loc → 2 ≤ s.quota → s.periph ≠ .idle → cs.toNat < s.params.nCs →
    ∃ t, exec i s = .next t ∧ hasFault fStartWhileBusy t = true ∧ t.periph = s.periph ∧ t.tx = s.tx ∧ t.rx = s.rx ∧
      t.busLog = s.busLog ++ [.csHigh cs.toNat] ∧ t.response = some { rc := .busy, data := .nothing }) ∧
  (∀ (cs : Byte) (loc : Locals) (s : State), 1 ≤ s.quota → s.periph ≠ .idle → cs.toNat < s.params.nCs →
    (s.fg = .busy (.asyncRead cs) .d loc → exec (.asyncRead cs) s = .next (respond .error .nothing
      { s with csLevel := s.csLevel.set cs.toNat true, busLog := s.busLog ++ [.csHigh cs.toNat],
               faults := s.faults ||| (if levelOf cs.toNat s = false then 0x06 else 0x04),
               statusRx := { done := s.statusRx.done, result := some 0x0A } })) ∧
    (s.fg = .busy (.asyncRw cs) .d loc → exec (.asyncRw cs) s = .next (respond .error .nothing
      { s with csLevel := s.csLevel.set cs.toNat true, busLog := s.busLog ++ [.csHigh cs.toNat],
               faults := s.faults ||| (if levelOf cs.toNat s = false then 0x06 else 0x04),
               statusTxRx := { done := s.statusTxRx.done, result := some 0x0A } })))

/-! ### Asynchronous engine (spec/43_async_engine.md) -/

/-- R181, R182, R183: an ASYNC.* whose preconditions hold and whose primitive starts answers OK with its line low, LAST_CS
its index, PERIPH_STATE the kind's, and STATUS[k] = (DONE 0, RESULT OK); nothing else changes. -/
def Obligations.AsyncStartBeginsTransfer : Prop :=
  ∀ (cs : Byte) (s : State), Ready 5 s → MayTransfer cs s → (drawStart s).1 = true →
    exec (.asyncRead cs) s = .next (respond .ok .nothing
      { s with csLevel := s.csLevel.set cs.toNat false, busLog := s.busLog ++ [.csLow cs.toNat],
               lastCs := some cs, lastCsV := true, periph := .asyncRx,
               statusRx := { done := false, result := some 0x00 },
               startIn := s.startIn.tail, draws := s.draws + 1 }) ∧
    exec (.asyncRw cs) s = .next (respond .ok .nothing
      { s with csLevel := s.csLevel.set cs.toNat false, busLog := s.busLog ++ [.csLow cs.toNat],
               lastCs := some cs, lastCsV := true, periph := .asyncTxRx,
               statusTxRx := { done := false, result := some 0x00 },
               startIn := s.startIn.tail, draws := s.draws + 1 })

/-- R181 (d): where the primitive reports immediate failure the line is released, RESULT is ERROR, DONE is not written,
and PERIPH_STATE stays IDLE. -/
def Obligations.AsyncPrimitiveFailureReleasesLine : Prop :=
  ∀ (cs : Byte) (s : State), Ready 4 s → MayTransfer cs s → (drawStart s).1 = false →
    exec (.asyncRead cs) s = .next (respond .error .nothing
      { s with busLog := s.busLog ++ [.csLow cs.toNat, .csHigh cs.toNat], lastCs := some cs, lastCsV := true,
               statusRx := { done := s.statusRx.done, result := some 0x0A },
               startIn := s.startIn.tail, draws := s.draws + 1 }) ∧
    exec (.asyncRw cs) s = .next (respond .error .nothing
      { s with busLog := s.busLog ++ [.csLow cs.toNat, .csHigh cs.toNat], lastCs := some cs, lastCsV := true,
               statusTxRx := { done := s.statusTxRx.done, result := some 0x0A },
               startIn := s.startIn.tail, draws := s.draws + 1 })

/-- R181 (a), (b), R195: a failed precondition records ERROR for the kind, leaves DONE alone, and changes nothing else. -/
def Obligations.AsyncPreconditionFailureRecordsError : Prop :=
  ∀ (cs : Byte) (s : State), Ready 2 s →
    (s.bound = false ∨ s.bufSize = 0 ∨ s.params.nCs ≤ cs.toNat ∨ 0 < lowCount s) →
    exec (.asyncRead cs) s = .next (respond .error .nothing
      { s with statusRx := { done := s.statusRx.done, result := some 0x0A } }) ∧
    exec (.asyncRw cs) s = .next (respond .error .nothing
      { s with statusTxRx := { done := s.statusTxRx.done, result := some 0x0A } })

/-- R30, R184: ASYNC.STATUS answers one word with DONE in bit 8, RESULT in bits 7:0 and zero above; a kind above 1 is
INVALID_INDEX. It changes nothing but the response and the count of free values. -/
def Obligations.AsyncStatusReadsBothFields : Prop :=
  ∀ s : State, Ready 1 s →
    (∃ w d, exec (.asyncStatus 0) s = .next (respond .ok (.status w) { s with draws := d }) ∧
      w.getLsbD 8 = s.statusRx.done ∧ w.extractLsb' 9 7 = 0 ∧
      ∀ v, s.statusRx.result = some v → w.extractLsb' 0 8 = v) ∧
    (∃ w d, exec (.asyncStatus 1) s = .next (respond .ok (.status w) { s with draws := d }) ∧
      w.getLsbD 8 = s.statusTxRx.done ∧ w.extractLsb' 9 7 = 0 ∧
      ∀ v, s.statusTxRx.result = some v → w.extractLsb' 0 8 = v) ∧
    ∀ k : Byte, 1 < k.toNat → exec (.asyncStatus k) s = .next (respond .invalidIndex .nothing s)

/-- R304: micro-step (e) of a foreground start clears DONE whatever ran before it, so a completion in the window is lost:
DONE is 0 with the bus idle. -/
def Obligations.LostCompletionLeavesDoneClear : Prop :=
  ∀ (cs : Byte) (loc : Locals) (s : State), 1 ≤ s.quota →
    (s.fg = .busy (.asyncRead cs) .e loc → exec (.asyncRead cs) s =
      .next (respond .ok .nothing { s with statusRx := { done := false, result := some 0x00 } })) ∧
    (s.fg = .busy (.asyncRw cs) .e loc → exec (.asyncRw cs) s =
      .next (respond .ok .nothing { s with statusTxRx := { done := false, result := some 0x00 } }))

/-- R190: where an asynchronous data phase is under way EV.XFER_END ends it: RX[0..n-1] gets SLAVE's bytes, one Data
record is logged under LAST_CS, XFER_DONE_HW and the kind's pending bit are set, and PERIPH_STATE and STATUS stay. -/
def Obligations.XferEndDeliversReceivedBytes : Prop :=
  ∀ (cs : Byte) (s : State), s.xferDoneHw = false → s.lastCs = some cs →
    (s.periph = .asyncRx → ∃ miso rx d, exec .evXferEnd s = .next
      { s with rx := rx, xferDoneHw := true, cplRx := true, slaveIn := s.slaveIn.drop s.bufSize.toNat, draws := d,
               busLog := s.busLog ++
                 [.data .asyncRx cs.toNat (unknownBytes s.bufSize.toNat) (miso.map some) .ok] } ∧
      miso.length = s.bufSize.toNat ∧ (∀ j v, j < s.bufSize.toNat → s.slaveIn[j]? = some v → miso[j]? = some v) ∧
      PrefixHolds s.rx rx s.bufSize.toNat miso) ∧
    (s.periph = .asyncTxRx → ∃ mosi miso rx d, exec .evXferEnd s = .next
      { s with rx := rx, xferDoneHw := true, cplTxRx := true, slaveIn := s.slaveIn.drop s.bufSize.toNat, draws := d,
               busLog := s.busLog ++ [.data .asyncTxRx cs.toNat (mosi.map some) (miso.map some) .ok] } ∧
      SentBytes s.tx s.bufSize.toNat mosi ∧ miso.length = s.bufSize.toNat ∧
      (∀ j v, j < s.bufSize.toNat → s.slaveIn[j]? = some v → miso[j]? = some v) ∧
      PrefixHolds s.rx rx s.bufSize.toNat miso)

/-- The model's choice (log 11): where R190 does not enable EV.XFER_END, nothing happens. -/
def Obligations.XferEndNotEnabledChangesNothing : Prop :=
  ∀ s : State, (s.xferDoneHw = true ∨ (s.periph ≠ .asyncRx ∧ s.periph ≠ .asyncTxRx)) →
    exec .evXferEnd s = .next s

/-- R191, R193: taking the completion interrupt where the register hook runs: the pending bit and XFER_DONE_HW are
cleared, the bus is idle, the last-used line is released and logged, STATUS[k] = (DONE 1, RESULT OK); nothing else
changes. Where the capture hook runs (R192, R216) it is the same, whatever the hook does: nothing else changes but the
record, the counter, FAULTS and the count of free values. -/
def Obligations.CompletionReleasesLineAndPublishes : Prop :=
  ∀ (cs : Byte) (s : State), s.params.irqOrder = .any → s.lastCs = some cs → cs.toNat < s.params.nCs →
    (s.cplRx = true → s.activeDriver = .register → takeInterrupt (.cpl .rx) s =
      { s with cplRx := false, xferDoneHw := false, periph := .idle, csLevel := s.csLevel.set cs.toNat true,
               busLog := s.busLog ++ [.csHigh cs.toNat], statusRx := { done := true, result := some 0x00 } }) ∧
    (s.cplRx = true → s.activeDriver = .capture → ∃ record capCounter faults draws, takeInterrupt (.cpl .rx) s =
      { s with cplRx := false, xferDoneHw := false, periph := .idle, csLevel := s.csLevel.set cs.toNat true,
               busLog := s.busLog ++ [.csHigh cs.toNat], statusRx := { done := true, result := some 0x00 },
               record := record, capCounter := capCounter, faults := faults, draws := draws }) ∧
    (s.cplTxRx = true → takeInterrupt (.cpl .txrx) s =
      { s with cplTxRx := false, xferDoneHw := false, periph := .idle, csLevel := s.csLevel.set cs.toNat true,
               busLog := s.busLog ++ [.csHigh cs.toNat], statusTxRx := { done := true, result := some 0x00 } })

/-! ### Capture (spec/44_capture.md) -/

/-- R210: an edge pends while the edge interrupt is enabled and is discarded while it is not. -/
def Obligations.EdgePendsOnlyWhileEnabled : Prop :=
  ∀ s : State,
    (s.edgeEn = true → exec .evEdge s = .next { s with edgePend := true }) ∧
    (s.edgeEn = false → exec .evEdge s = .next s)

/-- R211: the edge handler on a busy bus does nothing but take the edge; on an idle bus with 0 < c and c ≥ t it disables
the edge interrupt and starts nothing. -/
def Obligations.EdgeHandlerIgnoresOrDisables : Prop :=
  ∀ s : State, s.params.irqOrder = .any → s.edgePend = true →
    (s.periph ≠ .idle → takeInterrupt .edge s = { s with edgePend := false }) ∧
    (s.periph = .idle → s.capCounter ≠ 0 → s.capTarget ≤ s.capCounter →
      takeInterrupt .edge s = { s with edgePend := false, edgeEn := false })

/-- R211, R212: on an idle bus with c = 0 or c < t the edge handler starts a receive on CAP_CS: where the start succeeds
the line is low and the transfer in flight, where the primitive reports failure (R185) the line is released, RESULT is
ERROR and DONE is kept, and where a precondition fails only STATUS[RX].RESULT = ERROR is recorded. -/
def Obligations.EdgeHandlerStartsAReceive : Prop :=
  ∀ (cs : Byte) (s : State), s.params.irqOrder = .any → s.edgePend = true → s.periph = .idle →
    s.capCs = some cs → (s.capCounter = 0 ∨ s.capCounter < s.capTarget) →
    (MayTransfer cs s → (drawStart s).1 = true → takeInterrupt .edge s =
      { s with edgePend := false, csLevel := s.csLevel.set cs.toNat false, busLog := s.busLog ++ [.csLow cs.toNat],
               lastCs := some cs, lastCsV := true, periph := .asyncRx,
               statusRx := { done := false, result := some 0x00 },
               startIn := s.startIn.tail, draws := s.draws + 1 }) ∧
    (MayTransfer cs s → (drawStart s).1 = false → takeInterrupt .edge s =
      { s with edgePend := false, busLog := s.busLog ++ [.csLow cs.toNat, .csHigh cs.toNat],
               lastCs := some cs, lastCsV := true,
               statusRx := { done := s.statusRx.done, result := some 0x0A },
               startIn := s.startIn.tail, draws := s.draws + 1 }) ∧
    ((s.bound = false ∨ s.bufSize = 0 ∨ s.params.nCs ≤ cs.toNat ∨ 0 < lowCount s) → takeInterrupt .edge s =
      { s with edgePend := false, statusRx := { done := s.statusRx.done, result := some 0x0A } })

/-- R216, R217: taking the receive completion of a 3-byte transfer under the capture hook with c < t stores
RX[0]·2^16 + RX[1]·2^8 + RX[2] in slot c, leaves every other slot, counts one up, and raises no fault. -/
def Obligations.CaptureHookStoresOneSample : Prop :=
  ∀ (b0 b1 b2 : Byte) (s : State), s.params.irqOrder = .any → s.cplRx = true → s.activeDriver = .capture →
    s.bufSize = 3 → s.capCounter < s.capTarget → Cells.read s.rx 0 = some b0 → Cells.read s.rx 1 = some b1 →
    Cells.read s.rx 2 = some b2 →
    (takeInterrupt (.cpl .rx) s).capCounter = s.capCounter + 1 ∧
    (takeInterrupt (.cpl .rx) s).faults = s.faults ∧
    (∀ i, Cells.read (takeInterrupt (.cpl .rx) s).record i =
      if i = s.capCounter.toNat then some (BitVec.ofNat 32 (b0.toNat * 2 ^ 16 + b1.toNat * 2 ^ 8 + b2.toNat))
      else Cells.read s.record i)

/-- R216: the capture hook on a transfer that is not 3 bytes raises F_SAMPLE_SIZE, and at c ≥ t nothing; in both cases it
writes no slot and does not count. -/
def Obligations.CaptureHookGuards : Prop :=
  ∀ s : State, s.params.irqOrder = .any → s.cplRx = true → s.activeDriver = .capture →
    (s.bufSize ≠ 3 → (takeInterrupt (.cpl .rx) s).record = s.record ∧
      (takeInterrupt (.cpl .rx) s).capCounter = s.capCounter ∧
      (takeInterrupt (.cpl .rx) s).faults = s.faults ||| 0x10) ∧
    (s.bufSize = 3 → s.capTarget ≤ s.capCounter → (takeInterrupt (.cpl .rx) s).record = s.record ∧
      (takeInterrupt (.cpl .rx) s).capCounter = s.capCounter ∧ (takeInterrupt (.cpl .rx) s).faults = s.faults)

/-- R220: CAP.START run whole on an idle bus sets the target, clears the counter and the record, configures 3 bytes,
stores the index unchecked and enables the edge interrupt; nothing else changes. -/
def Obligations.CapStartArmsACapture : Prop :=
  ∀ (cs : Byte) (n : U32) (s : State), Ready 7 s → n.toNat ≤ s.params.recordCap → s.periph = .idle →
    3 ≤ s.params.bufCap →
    ∃ tx rx, exec (.capStart cs n) s = .next (respond .ok .nothing
        { s with capTarget := n, capCounter := 0, record := [], bufSize := 3, tx := tx, rx := rx,
                 capCs := some cs, edgeEn := true }) ∧
      PrefixHolds s.tx tx 3 [0, 0, 0] ∧ PrefixHolds s.rx rx 3 []

/-- R220: CAP.START with n > RECORD_CAP is rejected with no state changed; with a transfer in flight its embedded SetSize
fails BUSY, the failure is not reported, and the rest happens. -/
def Obligations.CapStartRejectsOrIgnoresBusy : Prop :=
  ∀ (cs : Byte) (n : U32) (s : State),
    (Ready 1 s → s.params.recordCap < n.toNat →
      exec (.capStart cs n) s = .next (respond .capacityExceeded .nothing s)) ∧
    (Ready 7 s → n.toNat ≤ s.params.recordCap → s.periph ≠ .idle →
      exec (.capStart cs n) s = .next (respond .ok .nothing
        { s with capTarget := n, capCounter := 0, record := [], capCs := some cs, edgeEn := true }))

/-- R221, R222: CAP.COUNT answers the counter; CAP.SLOT answers a written slot's value, some u32 for an unwritten one, and
INVALID_INDEX at or above RECORD_CAP. Neither changes anything but the response and the count of free values. -/
def Obligations.CaptureReadsAnswerTheRecord : Prop :=
  ∀ (i : U32) (s : State), Ready 1 s →
    exec .capCount s = .next (respond .ok (.word s.capCounter) s) ∧
    (s.params.recordCap ≤ i.toNat → exec (.capSlot i) s = .next (respond .invalidIndex .nothing s)) ∧
    (i.toNat < s.params.recordCap → ∃ v d,
      exec (.capSlot i) s = .next (respond .ok (.word v) { s with draws := d }) ∧
      ∀ w, Cells.read s.record i.toNat = some w → v = w)

/-- R45 (iv), (v), R31: outside CAP.START's window the counter does not exceed the target, and every slot below the
counter is written: every step keeps both. -/
def Obligations.StepKeepsCaptureRecord : Prop :=
  ∀ s t : State, CounterBounded s → RecordFilled s → step s = .next t →
    CounterBounded t ∧ RecordFilled t

/-- R224 (iii): one capture cycle. From an idle state with the edge interrupt enabled and c < t, an edge, the edge
handler, the end of the 3-byte data phase and the completion handler record exactly that sample in slot c, count one up,
and leave the bus idle with the line released. The model's choices: that the four turns are listed (log 2), and that
PERIPH's turn carries the bytes received (log 10). -/
def Obligations.CaptureCycleRecordsOneSample : Prop :=
  ∀ (cs b0 b1 b2 : Byte) (s : State) (rest : List Turn), s.params.irqOrder = .any → s.edgeEn = true →
    s.xferDoneHw = false → s.capCs = some cs → MayTransfer cs s → (drawStart s).1 = true → s.bufSize = 3 →
    s.activeDriver = .capture → s.capCounter < s.capTarget →
    s.turns = .edge :: .irq .edge :: .periph (some (b0 ++ b1 ++ b2)) :: .irq (.cpl .rx) :: rest →
    ∃ t, Sys2Proof.core.run 4 s = .next t ∧ t.capCounter = s.capCounter + 1 ∧
      Cells.read t.record s.capCounter.toNat =
        some (BitVec.ofNat 32 (b0.toNat * 2 ^ 16 + b1.toNat * 2 ^ 8 + b2.toNat)) ∧
      t.periph = .idle ∧ t.csLevel = s.csLevel ∧ t.faults = s.faults ∧
      t.statusRx = { done := true, result := some 0x00 } ∧
      t.busLog = s.busLog ++ [.csLow cs.toNat,
        .data .asyncRx cs.toNat [none, none, none] [some b0, some b1, some b2] .ok, .csHigh cs.toNat]

/-- R273: whichever of a pending edge and a pending receive completion is taken first, the capture record and the counter
are the same. -/
def Obligations.InterruptOrderGivesTheSameRecord : Prop :=
  ∀ s : State, s.params.irqOrder = .any → s.edgePend = true → s.cplRx = true → s.periph ≠ .idle →
    (takeInterrupt (.cpl .rx) (takeInterrupt .edge s)).record =
      (takeInterrupt .edge (takeInterrupt (.cpl .rx) s)).record ∧
    (takeInterrupt (.cpl .rx) (takeInterrupt .edge s)).capCounter =
      (takeInterrupt .edge (takeInterrupt (.cpl .rx) s)).capCounter

/-! ### Interrupts, contexts, faults, reset (spec/60_exceptions.md, spec/70_reset_and_hazards.md) -/

/-- R275, R280: an interrupt, whichever and whenever it is taken, keeps the interrupted request's FG_PHASE with its local
values, and writes no buffer contents and no transfer size. -/
def Obligations.InterruptKeepsForeground : Prop :=
  ∀ (src : IrqSource) (s : State),
    (takeInterrupt src s).fg = s.fg ∧ (takeInterrupt src s).response = s.response ∧
    (takeInterrupt src s).hostProg = s.hostProg ∧ (takeInterrupt src s).port = s.port ∧
    (takeInterrupt src s).bufSize = s.bufSize ∧ (takeInterrupt src s).tx = s.tx ∧ (takeInterrupt src s).rx = s.rx ∧
    (takeInterrupt src s).capTarget = s.capTarget ∧ (takeInterrupt src s).capCs = s.capCs

/-- R271: taking an interrupt clears its pending bit. The model's choice (log 11): a turn for a source that may not be
taken, because it is not pending or because a fixed IRQ_ORDER (log 23) holds it back, changes nothing. -/
def Obligations.TakingClearsThePendingBit : Prop :=
  ∀ (src : IrqSource) (s : State),
    (mayTake src s = true → pending src (takeInterrupt src s) = false) ∧
    (mayTake src s = false → takeInterrupt src s = s)

/-- R40: a fault bit, once set, is cleared by no step but a reset. -/
def Obligations.FaultsAreSticky : Prop :=
  ∀ s t : State, s.Wf → step s = .next t → (nextTurn s).1 ≠ .platform →
    ∀ j, s.faults.getLsbD j = true → t.faults.getLsbD j = true

/-- R22, R38, R311: no step writes the parameters, and BOUND and ACTIVE_DRIVER stay as reset binds them. -/
def Obligations.BindingNeverChanges : Prop :=
  ∀ s t : State, s.bound = s.params.handleBound → s.activeDriver = s.params.activeDriver → step s = .next t →
    t.params = s.params ∧ t.bound = s.bound ∧ t.activeDriver = s.activeDriver

/-- R36: the edge interrupt becomes enabled only in a turn of FG, and becomes disabled only by the edge interrupt being
taken or by a reset. -/
def Obligations.EdgeEnableHasItsWriters : Prop :=
  ∀ s t : State, s.Wf → step s = .next t →
    (s.edgeEn = false → t.edgeEn = true → ∃ k, (nextTurn s).1 = .fg k) ∧
    (s.edgeEn = true → t.edgeEn = false → (nextTurn s).1 = .irq .edge ∨ (nextTurn s).1 = .platform)

/-- R300: EV.RESET leaves the reset state under the same parameters, whatever the state. -/
def Obligations.ResetReappliesTheResetState : Prop :=
  ∀ s : State, ∃ t, exec .evReset s = .next t ∧
    t.params = s.params ∧ t.fg = .idle ∧ t.bound = s.params.handleBound ∧ t.activeDriver = s.params.activeDriver ∧
    (t.csLevel.length = s.params.nCs ∧ ∀ i, levelOf i t = true) ∧ t.lastCs = none ∧ t.lastCsV = false ∧
    t.periph = .idle ∧ t.xferDoneHw = false ∧ t.bufSize = 0 ∧
    (∀ j, Cells.read t.tx j = none ∧ Cells.read t.rx j = none ∧ Cells.read t.record j = none) ∧
    t.statusRx = { done := true, result := none } ∧ t.statusTxRx = { done := true, result := none } ∧
    t.capCounter = 0 ∧ t.capTarget = 0 ∧ t.capCs = none ∧ t.edgeEn = false ∧ t.edgePend = false ∧
    t.cplRx = false ∧ t.cplTxRx = false ∧ t.faults = 0 ∧ t.busLog = [] ∧ t.response = none

/-- The model's choice (log 12): EV.RESET abandons the host program in progress, and keeps the inputs to come and the
lines already written, which are not the block's. -/
def Obligations.ResetKeepsTheOutsideWorld : Prop :=
  ∀ s : State, ∃ t, exec .evReset s = .next t ∧ t.hostProg = [] ∧ t.turns = s.turns ∧ t.port = s.port ∧
    t.hostIn = s.hostIn ∧ t.lineOut = s.lineOut ∧ t.slaveIn = s.slaveIn ∧ t.outcomeIn = s.outcomeIn ∧
    t.startIn = s.startIn

/-- R261, R262: no state of the block stops the machine: a step of any agent answers a next state, provided the next frame
HOST is to send, if any, is exactly one of R110 or R111 (log 20). -/
def Obligations.NoErrorStopsTheMachine : Prop :=
  ∀ s : State,
    (∀ bs rest, s.hostIn = .frame bs :: rest → ∃ i, decode .frame40 bs = .ok (i, [])) →
    ∃ t, step s = .next t

/-- Every step keeps the shape of R7, R22, R23, R27, R28, R32, R34, R38, R40: the lengths, the capacities, the canonical
stores, the reserved fault bits. -/
def Obligations.StepKeepsWellFormed : Prop :=
  ∀ s t : State, s.Wf → step s = .next t → t.Wf

/-- The machine right after reset has that shape, and the other invariants. -/
def Obligations.ResetIsWellFormed : Prop :=
  State.reset.Wf ∧ MutualExclusion State.reset ∧ CounterBounded State.reset ∧ RecordFilled State.reset ∧
    TransferFlags State.reset

/-- R24, R26, R37: XFER_DONE_HW is 1 only with an asynchronous transfer, a completion is pending only for the kind whose
data phase has ended, and LAST_CS is valid while an asynchronous transfer is in flight: every step keeps that. -/
def Obligations.StepKeepsTransferFlags : Prop :=
  ∀ s t : State, TransferFlags s → step s = .next t → TransferFlags t

/-! ### Encoding (spec/30_encoding.md) and the step -/

/-- R90 to R97, R100, R110 to R112: decoding what a well-formed instruction is encoded as gives it back, with every operand
at every value, whatever bytes follow. -/
def Obligations.DecodeOfEncode : Prop :=
  ∀ (i : Instr) (rest : List Byte), i.wf = true → decode i.format (encode i ++ rest) = .ok (i, rest)

/-- R96: what the decoder accepts is an encoding: the instruction is well formed, has the format asked for, and its bytes
are the ones read. -/
def Obligations.EncodeOfDecode : Prop :=
  ∀ (f : Format) (bs rest : List Byte) (i : Instr), decode f bs = .ok (i, rest) →
    i.wf = true ∧ i.format = f ∧ encode i ++ rest = bs

/-- R95: a request word is illegal exactly when its OPC is not of R94, RSV is not 0, or a field its opcode does not use is
not 0. Which of the eight bytes at the port is OPC, IDX, RSV and N is the model's choice of log 7: the most significant
byte of the word stands first. -/
def Obligations.IllegalWordsAreExactlyR95 : Prop :=
  ∀ (opc idx r0 r1 n0 n1 n2 n3 : Byte) (rest : List Byte),
    decode .req64 (opc :: idx :: r0 :: r1 :: n0 :: n1 :: n2 :: n3 :: rest) = .error .illegalWord ↔
      ((r0 ≠ 0 ∨ r1 ≠ 0) ∨
        opc.toNat ∉ [0x01, 0x02, 0x10, 0x11, 0x12, 0x20, 0x21, 0x30, 0x31, 0x32, 0x40, 0x41, 0x42] ∨
        (idx ≠ 0 ∧ opc.toNat ∈ [0x10, 0x11, 0x12, 0x41, 0x42]) ∨
        ((n0 ≠ 0 ∨ n1 ≠ 0 ∨ n2 ≠ 0 ∨ n3 ≠ 0) ∧
          opc.toNat ∈ [0x01, 0x02, 0x12, 0x20, 0x21, 0x30, 0x31, 0x32, 0x41]))

/-- R95: an illegal word at the port of an idle FG is answered (ILLEGAL, none); no other state changes. The rest is the
model's: the word's bytes stand most significant first (log 7), it is as long as its OPC and N say by R97, so that one
with OPC 0x11 is answered when its N bytes are there and they are taken with it (log 9), and until then FG waits where
HOST gives it nothing else to do (log 8); the port is served before HOST's inputs (log 13), in a listed turn (log 2) with
its quota (log 3). -/
def Obligations.IllegalWordIsAnswered : Prop :=
  ∀ (k : Nat) (rest : List Turn) (s : State), s.turns = .fg k :: rest → s.fg = .idle → s.hostProg = [] →
    decode .req64 s.port = .error .illegalWord →
    (wordLength s.port ≤ s.port.length → step s = .next (respond .illegal .nothing
      { s with turns := rest, quota := k, port := s.port.drop (wordLength s.port) })) ∧
    (s.port.length < wordLength s.port → s.hostIn = [] → step s = .next { s with turns := rest, quota := k })

/-- Words of R94, R100, R110 to R112 written out in full, one or more of each family. -/
def Obligations.KnownWordsDecode : Prop :=
  decodeTableWord 64 0x0101000000000000 = some (.csAssert 1) ∧
  decodeTableWord 64 0x02FF000000000000 = some (.csDeassert 255) ∧
  decodeTableWord 64 0x1000000000000003 = some (.bufSetSize 3) ∧
  decodeTableWord 64 0x2105000000000000 = some (.syncRw 5) ∧
  decodeTableWord 64 0x3201000000000000 = some (.asyncStatus 1) ∧
  decodeTableWord 64 0x400100000001869F = some (.capStart 1 99999) ∧
  decodeTableWord 8 0x02 = some .evXferEnd ∧
  decodeTableWord 40 0x0100000002 = some (.regWriteFrame 1 2) ∧
  decodeTableWord 40 0x8200000000 = some (.regReadFrame 2) ∧
  decodeTableWord 24 0x010203 = some (.sampleFrame 0x010203)

/-- A step of FG runs the request at the port: where FG is idle, no host program is in progress and the port holds a
well-formed request's bytes, the step is `exec` of it, with the turn spent and the bytes taken. The model's choices: the
turn is listed (log 2) and sets the quota (log 3), a request's bytes stand most significant first (log 7), and the port
is served before any of HOST's inputs (log 13). -/
def Obligations.StepRunsTheRequestAtThePort : Prop :=
  ∀ (i : Instr) (k : Nat) (bs : List Byte) (rest : List Turn) (s : State), i.wf = true → i.format = .req64 →
    s.turns = .fg k :: rest → s.fg = .idle → s.hostProg = [] → s.port = encode i ++ bs →
    step s = exec i { s with turns := rest, quota := k, port := bs }

/-- The other ways a step comes to run an instruction: FG goes on with the request in progress, or issues the next request
of its host program (before any at the port: log 13), EDGE's turn runs EV.EDGE, PERIPH's EV.XFER_END or the sample frame
it carries, the platform's EV.RESET, and HOST sends the register frame it is given; the bytes of an event or of a sample
frame, placed, run it next (log 6). IRQ's turn runs none and takes its interrupt (R271; one that may not be taken:
log 11), and SLAVE's and HOST's own turns run none and only bring inputs (log 27). Turns and their quotas are logs 2
and 3, and that a frame is run as an instruction is log 10. -/
def Obligations.StepRunsTheInstructionOfItsTurn : Prop :=
  ∀ (k : Nat) (rest : List Turn) (s : State),
    (∀ i m loc, s.turns = .fg k :: rest → s.fg = .busy i m loc →
      step s = exec i { s with turns := rest, quota := k }) ∧
    (∀ i ops, s.turns = .fg k :: rest → s.fg = .idle → s.hostProg = .issue i :: ops →
      step s = exec i { s with turns := rest, quota := k, hostProg := ops }) ∧
    (s.turns = .edge :: rest → step s = exec .evEdge { s with turns := rest }) ∧
    (s.turns = .periph none :: rest → step s = exec .evXferEnd { s with turns := rest }) ∧
    (∀ v, s.turns = .periph (some v) :: rest → step s = exec (.sampleFrame v) { s with turns := rest }) ∧
    (s.turns = .platform :: rest → step s = exec .evReset { s with turns := rest }) ∧
    (∀ (i : Instr) (ins : List HostInput), i.format = .frame40 → s.turns = .fg k :: rest → s.fg = .idle →
      s.hostProg = [] → s.port = [] → s.hostIn = .frame (encode i) :: ins →
      step s = exec i { s with turns := rest, quota := k, hostIn := ins }) ∧
    (∀ i : Instr, (i.format = .event8 ∨ i.format = .frame24) →
      step (placeBytes i.format (encode i) s) = exec i s) ∧
    (∀ src, s.turns = .irq src :: rest → step s = .next (takeInterrupt src { s with turns := rest })) ∧
    (∀ bytes, s.turns = .slave bytes :: rest →
      step s = .next { s with turns := rest, slaveIn := s.slaveIn ++ bytes }) ∧
    (∀ bytes, s.turns = .host (.send bytes) :: rest →
      step s = .next { s with turns := rest, port := s.port ++ bytes }) ∧
    (∀ x, s.turns = .host (.ask x) :: rest → step s = .next { s with turns := rest, hostIn := s.hostIn ++ [x] })

/-! ### Bus frames (spec/30_encoding.md R110 to R113) and the host (spec/45_host_protocol.md) -/

/-- R110, R243, and the model's choice of log 10: running REG.WRITE.FRAME whole puts exactly the frame's five bytes on the
bus under CS_REG as one SYNC_TX data phase, and answers its outcome. -/
def Obligations.RegWriteFrameGoesOut : Prop :=
  ∀ (a : BitVec 7) (v : U32) (s : State), Ready 8 s → s.bound = true → s.params.csReg.toNat < s.params.nCs →
    lowCount s = 0 → s.periph = .idle → 5 ≤ s.params.bufCap →
    ∃ o tx rx d, exec (.regWriteFrame a v) s = .next (respond (outcomeCode o) .nothing
        { s with
          bufSize := 5
          tx := tx
          rx := rx
          busLog := s.busLog ++ [.csLow s.params.csReg.toNat,
            .data .syncTx s.params.csReg.toNat
              (if o = .ok then (encode (.regWriteFrame a v)).map some else unknownBytes 5) (unknownBytes 5) o,
            .csHigh s.params.csReg.toNat]
          slaveIn := s.slaveIn.drop 5
          outcomeIn := s.outcomeIn.tail
          draws := d }) ∧
      PrefixHolds s.tx tx 5 (encode (.regWriteFrame a v)) ∧ PrefixHolds s.rx rx 5 [] ∧
      (∀ x rest, s.outcomeIn = x :: rest → o = x)

/-- R111, R245, and the model's choice of log 10: running REG.READ.FRAME whole sends the frame under CS_REG as one
SYNC_TXRX data phase, and its response is (OK, five bytes): the five bytes received with it where the outcome is OK. -/
def Obligations.RegReadFrameAnswersTheReceivedBytes : Prop :=
  ∀ (a : BitVec 7) (s : State), Ready 9 s → s.bound = true → s.params.csReg.toNat < s.params.nCs →
    lowCount s = 0 → s.periph = .idle → 5 ≤ s.params.bufCap →
    ∃ o miso bs tx rx d, exec (.regReadFrame a) s = .next (respond .ok (.bytes bs)
        { s with
          bufSize := 5
          tx := tx
          rx := rx
          busLog := s.busLog ++ [.csLow s.params.csReg.toNat,
            .data .syncTxRx s.params.csReg.toNat
              (if o = .ok then (encode (.regReadFrame a)).map some else unknownBytes 5)
              (if o = .ok then miso.map some else unknownBytes 5) o,
            .csHigh s.params.csReg.toNat]
          slaveIn := s.slaveIn.drop 5
          outcomeIn := s.outcomeIn.tail
          draws := d }) ∧
      PrefixHolds s.tx tx 5 (encode (.regReadFrame a)) ∧ bs.length = 5 ∧ miso.length = 5 ∧
      (∀ j v, j < 5 → s.slaveIn[j]? = some v → miso[j]? = some v) ∧ (o = .ok → bs = miso) ∧
      PrefixHolds s.rx rx 5 (if o = .ok then miso else []) ∧ (∀ x rest, s.outcomeIn = x :: rest → o = x)

/-- R112, R190, and the model's choice of log 10: where a 3-byte receive-only data phase is under way, SAMPLE.FRAME ends
it with exactly the frame's bytes in RX[0..2]; where none is, nothing happens. -/
def Obligations.SampleFrameEndsTheReceive : Prop :=
  ∀ (v : U24) (cs : Byte) (s : State),
    (s.periph = .asyncRx → s.xferDoneHw = false → s.bufSize = 3 → s.lastCs = some cs →
      ∃ rx, exec (.sampleFrame v) s = .next
          { s with rx := rx, xferDoneHw := true, cplRx := true,
                   busLog := s.busLog ++ [.data .asyncRx cs.toNat [none, none, none]
                     ((encode (.sampleFrame v)).map some) .ok] } ∧
        PrefixHolds s.rx rx 3 (encode (.sampleFrame v))) ∧
    ((s.periph ≠ .asyncRx ∨ s.xferDoneHw = true ∨ s.bufSize ≠ 3) → exec (.sampleFrame v) s = .next s)

/-- R110: for v < 2^32 and a < 0x80 the packed frame is [a, v[31:24], v[23:16], v[15:8], v[7:0]]. -/
def Obligations.PackedWriteFrameBytes : Prop :=
  ∀ (a : Byte) (v : U64), a.toNat < 0x80 → v.toNat < 2 ^ 32 →
    frameW a v = [a, v.extractLsb' 24 8, v.extractLsb' 16 8, v.extractLsb' 8 8, v.extractLsb' 0 8]

/-- R243: a WREG line with three plain values below 2^32 becomes the six requests of three register write frames on
CS_REG, addresses 0, 1, 2 in order, and then the answer. -/
def Obligations.WregSendsThreeFramesInOrder : Prop :=
  ∀ (p : Params) (t0 t1 t2 : Text) (v0 v1 v2 : Nat) (more : List Text),
    parseNum p t0 = some v0 → parseNum p t1 = some v1 → parseNum p t2 = some v2 →
    v0 < 2 ^ 32 → v1 < 2 ^ 32 → v2 < 2 ^ 32 →
    commandOps p (['W', 'R', 'E', 'G'] :: t0 :: t1 :: t2 :: more) =
      [.issue (setTx (frameW 0 (BitVec.ofNat 64 v0))), .issue (.syncWrite p.csReg),
       .issue (setTx (frameW 1 (BitVec.ofNat 64 v1))), .issue (.syncWrite p.csReg),
       .issue (setTx (frameW 2 (BitVec.ofNat 64 v2))), .issue (.syncWrite p.csReg), .writeLine wregOk]

/-- R246: the binary string has exactly as many characters as bits, each 0 or 1, bit w-1 first. -/
def Obligations.BinaryStringIsFixedWidth : Prop :=
  ∀ (w : Nat) (v : BitVec w), (binText v).length = w ∧
    ∀ j, j < w → (binText v)[j]? = some (if v.getLsbD (w - 1 - j) then '1' else '0')

/-- R247: WAIT.CAP goes on exactly when the count answered is the one wanted, and asks again otherwise. That the look at
the count is a step of FG of its own is log 26 (DEDUCED), that it goes before a request at the port is log 13, and its
listed turn with a quota is logs 2 and 3. -/
def Obligations.CaptureWaitAsksAgain : Prop :=
  ∀ (n k : Nat) (v : U32) (ops : List HostOp) (rest : List Turn) (s : State), s.turns = .fg k :: rest →
    s.fg = .idle → s.hostProg = .checkCount n :: ops → s.response = some { rc := .ok, data := .word v } →
    (v.toNat = n → step s = .next { s with turns := rest, quota := k, hostProg := ops }) ∧
    (v.toNat ≠ n → step s = .next
      { s with turns := rest, quota := k, hostProg := .issue .capCount :: .checkCount n :: ops })

/-- NOT true of the rules' pseudocode (log 19): R45 (ii), (vi) say that in a fault-free reachable state the line of the
transfer in flight is low. An edge handler that runs between the check and the drive of a foreground start on the SAME
line, and completes before the primitive, leaves a fault-free transfer in flight with its line high. -/
def Obligations.FaultFreeInFlightLineIsLow : Prop :=
  ∀ s : State, Reachable s → faultFree s = true → InFlightLineLow s
end

