-- ==== Sys2Proof/Laws/Cells.lean ====
section
/-! SUPPORT. The laws of the indexed stores: what a cell reads after a write, and that every operation keeps the canonical
form and the range. -/

namespace Sys2Proof.Machine

variable {α : Type}

@[simp] theorem Cells.read_nil (a : Nat) : Cells.read ([] : Cells α) a = none := rfl

theorem Cells.wf_cons {k : Nat} {w : α} {m : Cells α} :
    Cells.wf ((k, w) :: m) = true ↔ (∀ c ∈ m, k < c.1) ∧ Cells.wf m = true := by
  simp [Cells.wf]

theorem Cells.read_none_of_lt {m : Cells α} {a : Nat} (h : ∀ c ∈ m, a < c.1) : Cells.read m a = none := by
  induction m with
  | nil => rfl
  | cons c m ih =>
    have := h c (by simp)
    simp only [Cells.read, if_neg (show ¬ c.1 = a by omega)]
    exact ih fun d hd => h d (by simp [hd])

/-- A cell after a write. -/
theorem Cells.read_write (m : Cells α) (a b : Nat) (v : α) :
    Cells.read (Cells.write m a v) b = if b = a then some v else Cells.read m b := by
  induction m with
  | nil => simp [Cells.write, Cells.read, eq_comm]
  | cons c m ih =>
    obtain ⟨k, w⟩ := c
    simp only [Cells.write]
    split
    · simp only [Cells.read, eq_comm]
    · split
      · subst_vars
        simp only [Cells.read, eq_comm]
        split <;> rfl
      · simp only [Cells.read, ih]
        split <;> split <;> first | rfl | omega

theorem Cells.mem_write {m : Cells α} {a : Nat} {v : α} {c : Nat × α} (h : c ∈ Cells.write m a v) :
    c = (a, v) ∨ c ∈ m := by
  induction m with
  | nil => simpa [Cells.write] using h
  | cons d m ih =>
    obtain ⟨k, w⟩ := d
    simp only [Cells.write] at h
    split at h
    · simpa using h
    · split at h
      · simp only [List.mem_cons] at h ⊢; tauto
      · simp only [List.mem_cons] at h ⊢
        rcases h with h | h
        · exact .inr (.inl h)
        · rcases ih h with h | h
          · exact .inl h
          · exact .inr (.inr h)

/-- A write keeps the canonical form. -/
theorem Cells.wf_write {m : Cells α} (h : Cells.wf m = true) (a : Nat) (v : α) :
    Cells.wf (Cells.write m a v) = true := by
  induction m with
  | nil => simp [Cells.write, Cells.wf]
  | cons c m ih =>
    obtain ⟨k, w⟩ := c
    rw [Cells.wf_cons] at h
    simp only [Cells.write]
    split
    · refine Cells.wf_cons.2 ⟨fun d hd => ?_, Cells.wf_cons.2 h⟩
      rcases List.mem_cons.1 hd with rfl | hd
      · assumption
      · have := h.1 d hd; omega
    · split
      · exact Cells.wf_cons.2 ⟨fun d hd => by have := h.1 d hd; omega, h.2⟩
      · refine Cells.wf_cons.2 ⟨fun d hd => ?_, ih h.2⟩
        rcases Cells.mem_write hd with rfl | hd
        · show k < a
          omega
        · exact h.1 d hd

theorem Cells.below_write {m : Cells α} {cap : Nat} (h : Cells.below cap m = true) {a : Nat} (ha : a < cap) (v : α) :
    Cells.below cap (Cells.write m a v) = true := by
  simp only [Cells.below, List.all_eq_true, decide_eq_true_eq] at h ⊢
  intro c hc
  rcases Cells.mem_write hc with rfl | hc
  · exact ha
  · exact h c hc

/-- A cell after a run of writes. -/
theorem Cells.read_writeFrom (m : Cells α) (a b : Nat) (vs : List α) :
    Cells.read (Cells.writeFrom m a vs) b =
      if a ≤ b ∧ b < a + vs.length then vs[b - a]? else Cells.read m b := by
  induction vs generalizing m a with
  | nil => simp only [Cells.writeFrom, List.length_nil, Nat.add_zero]; split <;> first | rfl | omega
  | cons v vs ih =>
    simp only [Cells.writeFrom, ih, Cells.read_write, List.length_cons]
    by_cases h1 : a = b
    · subst h1; simp
    · by_cases h2 : a + 1 ≤ b ∧ b < a + 1 + vs.length
      · rw [if_pos h2, if_pos (by omega), show b - a = (b - (a + 1)) + 1 by omega, List.getElem?_cons_succ]
      · rw [if_neg h2, if_neg (by omega), if_neg (by omega)]

theorem Cells.wf_writeFrom {m : Cells α} (h : Cells.wf m = true) (a : Nat) (vs : List α) :
    Cells.wf (Cells.writeFrom m a vs) = true := by
  induction vs generalizing m a with
  | nil => exact h
  | cons v vs ih => exact ih (Cells.wf_write h a v) (a + 1)

theorem Cells.below_writeFrom {m : Cells α} {cap : Nat} (h : Cells.below cap m = true) (a : Nat) (vs : List α)
    (ha : a + vs.length ≤ cap) : Cells.below cap (Cells.writeFrom m a vs) = true := by
  induction vs generalizing m a with
  | nil => exact h
  | cons v vs ih =>
    simp only [List.length_cons] at ha
    exact ih (Cells.below_write h (by omega) v) (a + 1) (by omega)

/-- A cell after the first `n` are made unknown. -/
theorem Cells.read_eraseBelow (m : Cells α) (n b : Nat) :
    Cells.read (Cells.eraseBelow m n) b = if b < n then none else Cells.read m b := by
  induction m with
  | nil => simp [Cells.eraseBelow]
  | cons c m ih =>
    obtain ⟨k, w⟩ := c
    simp only [Cells.eraseBelow, List.filter_cons, decide_eq_true_eq] at ih ⊢
    by_cases hk : n ≤ k
    · rw [if_pos hk]
      simp only [Cells.read, ih]
      split <;> split <;> first | rfl | omega
    · rw [if_neg hk, ih]
      by_cases hb : b < n
      · rw [if_pos hb, if_pos hb]
      · rw [if_neg hb, if_neg hb, Cells.read, if_neg (by omega)]

theorem Cells.wf_eraseBelow {m : Cells α} (h : Cells.wf m = true) (n : Nat) :
    Cells.wf (Cells.eraseBelow m n) = true := by
  simp only [Cells.wf, decide_eq_true_eq] at h ⊢
  exact h.filter _

theorem Cells.below_eraseBelow {m : Cells α} {cap : Nat} (h : Cells.below cap m = true) (n : Nat) :
    Cells.below cap (Cells.eraseBelow m n) = true := by
  simp only [Cells.below, Cells.eraseBelow, List.all_eq_true, List.mem_filter] at h ⊢
  exact fun c hc => h c hc.1

/-- Every operation on a byte store keeps its canonical form. -/
theorem Memory.wf_write {m : Memory} (h : Memory.wf m = true) (a : Nat) (v : Byte) :
    Memory.wf (Cells.write m a v) = true := Cells.wf_write h a v

theorem Memory.wf_writeFrom {m : Memory} (h : Memory.wf m = true) (a : Nat) (vs : List Byte) :
    Memory.wf (Cells.writeFrom m a vs) = true := Cells.wf_writeFrom h a vs

theorem Memory.wf_eraseBelow {m : Memory} (h : Memory.wf m = true) (n : Nat) :
    Memory.wf (Cells.eraseBelow m n) = true := Cells.wf_eraseBelow h n

/-- Two canonical stores that read the same are the same. -/
theorem Cells.ext_of_read {m m' : Cells α} (h : Cells.wf m = true) (h' : Cells.wf m' = true)
    (hr : ∀ a, Cells.read m a = Cells.read m' a) : m = m' := by
  induction m generalizing m' with
  | nil =>
    cases m' with
    | nil => rfl
    | cons c m' => have := hr c.1; simp [Cells.read] at this
  | cons c m ih =>
    obtain ⟨k, w⟩ := c
    cases m' with
    | nil => have := hr k; simp [Cells.read] at this
    | cons d m' =>
      obtain ⟨k', w'⟩ := d
      rw [Cells.wf_cons] at h h'
      have hk : k = k' := by
        rcases Nat.lt_trichotomy k k' with hlt | heq | hgt
        · have := hr k
          simp only [Cells.read, if_true, if_neg (show ¬ k' = k by omega)] at this
          rw [Cells.read_none_of_lt fun c hc => by have := h'.1 c hc; omega] at this
          exact absurd this (by simp)
        · exact heq
        · have := hr k'
          simp only [Cells.read, if_true, if_neg (show ¬ k = k' by omega)] at this
          rw [Cells.read_none_of_lt fun c hc => by have := h.1 c hc; omega] at this
          exact absurd this (by simp)
      subst hk
      have hw : w = w' := by simpa [Cells.read] using hr k
      subst hw
      rw [ih h.2 h'.2 fun a => ?_]
      by_cases ha : k = a
      · subst ha
        rw [Cells.read_none_of_lt h.1, Cells.read_none_of_lt h'.1]
      · simpa [Cells.read, ha] using hr a

/-- The byte stores after reset have the canonical form. -/
theorem Memory.wf_reset : Memory.wf State.reset.tx = true ∧ Memory.wf State.reset.rx = true ∧
    Cells.wf State.reset.record = true := by
  refine ⟨rfl, rfl, rfl⟩

end Sys2Proof.Machine
end

