-- ==== Sys2Proof/Laws/Decode.lean ====
section
/-! SUPPORT. The decoder's parts: payloads, the four bytes of a 32-bit field, and what each format decodes to. -/

namespace Sys2Proof

theorem splitPayload_append (p rest : List Byte) : splitPayload p.length (p ++ rest) = some (p, rest) := by
  induction p with
  | nil => rfl
  | cons b p ih => simp [splitPayload, ih]

theorem splitPayload_some {n : Nat} {bs p rest : List Byte} (h : splitPayload n bs = some (p, rest)) :
    p.length = n ∧ p ++ rest = bs := by
  induction n generalizing bs p with
  | zero =>
    simp only [splitPayload, Option.some.injEq, Prod.mk.injEq] at h
    obtain ⟨rfl, rfl⟩ := h
    exact ⟨rfl, rfl⟩
  | succ n ih =>
    cases bs with
    | nil => simp [splitPayload] at h
    | cons b bs =>
      simp only [splitPayload, Option.map_eq_some_iff, Prod.mk.injEq] at h
      obtain ⟨⟨q, r⟩, hq, rfl, rfl⟩ := h
      obtain ⟨h1, h2⟩ := ih hq
      exact ⟨by simp [h1], by simp [h2]⟩

/-- The four bytes of a 32-bit field put together again. -/
theorem append_extract32 (v : U32) :
    v.extractLsb' 24 8 ++ v.extractLsb' 16 8 ++ v.extractLsb' 8 8 ++ v.extractLsb' 0 8 = v := by
  apply BitVec.eq_of_getLsbD_eq
  intro i hi
  simp only [BitVec.getLsbD_append, BitVec.getLsbD_extractLsb']
  split
  · simp [*]
  · split
    · rename_i h1 h2
      simp [show i - 8 < 8 by omega, show 8 + (i - 8) = i by omega]
    · split
      · simp [show i - 8 - 8 < 8 by omega, show 16 + (i - 8 - 8) = i by omega]
      · simp [show i - 8 - 8 - 8 < 8 by omega, show 24 + (i - 8 - 8 - 8) = i by omega]

theorem bytes32_append (b0 b1 b2 b3 : Byte) : bytes32 (b0 ++ b1 ++ b2 ++ b3) = [b0, b1, b2, b3] := by
  simp only [bytes32, List.cons.injEq, and_true]
  refine ⟨?_, ?_, ?_, ?_⟩ <;>
  · apply BitVec.eq_of_getLsbD_eq
    intro i hi
    simp only [BitVec.getLsbD_append, BitVec.getLsbD_extractLsb', hi, decide_true, Bool.true_and]
    repeat' split
    all_goals first | omega | congr 1; omega

theorem append_extract24 (v : U24) : v.extractLsb' 16 8 ++ v.extractLsb' 8 8 ++ v.extractLsb' 0 8 = v := by
  apply BitVec.eq_of_getLsbD_eq
  intro i hi
  simp only [BitVec.getLsbD_append, BitVec.getLsbD_extractLsb']
  split
  · simp [*]
  · split
    · simp [show i - 8 < 8 by omega, show 8 + (i - 8) = i by omega]
    · simp [show i - 8 - 8 < 8 by omega, show 16 + (i - 8 - 8) = i by omega]

theorem extract24_append (b0 b1 b2 : Byte) :
    [(b0 ++ b1 ++ b2 : U24).extractLsb' 16 8, (b0 ++ b1 ++ b2 : U24).extractLsb' 8 8,
      (b0 ++ b1 ++ b2 : U24).extractLsb' 0 8] = [b0, b1, b2] := by
  simp only [List.cons.injEq, and_true]
  refine ⟨?_, ?_, ?_⟩ <;>
  · apply BitVec.eq_of_getLsbD_eq
    intro i hi
    simp only [BitVec.getLsbD_append, BitVec.getLsbD_extractLsb', hi, decide_true, Bool.true_and]
    repeat' split
    all_goals first | omega | congr 1; omega

theorem onlyIf_ok {z : Bool} {i j : Instr} {rest rest' : List Byte} (h : onlyIf z i rest = .ok (j, rest')) :
    z = true ∧ j = i ∧ rest' = rest := by
  unfold onlyIf at h
  split at h
  · simp only [Except.ok.injEq, Prod.mk.injEq] at h
    exact ⟨by assumption, h.1.symm, h.2.symm⟩
  · simp at h

/-- What a request word's fields decode to is a well-formed request. -/
theorem decodeFields_request {opc idx : Byte} {rsv : U16} {n : U32} {rest rest' : List Byte} {i : Instr}
    (h : decodeFields opc idx rsv n rest = .ok (i, rest')) : i.wf = true ∧ i.format = .req64 := by
  unfold decodeFields at h
  split at h
  · simp at h
  · split at h
    case h_4 =>
      split at h
      · split at h
        · rename_i hp
          simp only [Except.ok.injEq, Prod.mk.injEq] at h
          obtain ⟨rfl, -⟩ := h
          exact ⟨by simp [Instr.wf, (splitPayload_some hp).1], rfl⟩
        · simp at h
      · simp at h
    case h_11 => simp only [Except.ok.injEq, Prod.mk.injEq] at h; obtain ⟨rfl, -⟩ := h; exact ⟨rfl, rfl⟩
    case h_14 => simp at h
    all_goals obtain ⟨-, rfl, -⟩ := onlyIf_ok h; exact ⟨rfl, rfl⟩

/-- What a request's bytes decode to is a well-formed request. -/
theorem decodeRequest_request {bs rest : List Byte} {i : Instr} (h : decode .req64 bs = .ok (i, rest)) :
    i.wf = true ∧ i.format = .req64 := by
  simp only [decode] at h
  unfold decodeRequest at h
  split at h
  · exact decodeFields_request h
  · simp at h

/-- What a register frame's bytes decode to is a well-formed register frame. -/
theorem decodeRegFrame_frame {bs rest : List Byte} {i : Instr} (h : decode .frame40 bs = .ok (i, rest)) :
    i.wf = true ∧ i.format = .frame40 := by
  simp only [decode] at h
  unfold decodeRegFrame at h
  repeat' split at h
  all_goals simp only [Except.ok.injEq, Prod.mk.injEq, reduceCtorEq] at h
  all_goals obtain ⟨rfl, -⟩ := h; exact ⟨rfl, rfl⟩

/-- A well-formed request is as long as its OPC and N say (R97). -/
theorem wordLength_encode {i : Instr} (h : i.wf = true) (hf : i.format = .req64) (rest : List Byte) :
    wordLength (encode i ++ rest) = (encode i).length := by
  cases i <;> simp only [Instr.format, reduceCtorEq] at hf <;> try rfl
  rename_i n p
  simp only [Instr.wf, beq_iff_eq] at h
  simp only [encode, reqWord, bytes32, List.cons_append, List.nil_append, wordLength, append_extract32,
    List.length_cons, h]
  simp; omega

end Sys2Proof
end

