-- ==== Sys2Proof/Laws/State.lean ====
section
/-! SUPPORT. One lemma per field for every named update of the state: what it sets and what it leaves. -/

namespace Sys2Proof.Machine

/-! ### Raising a fault -/

section
variable (f : Byte) (s : State)

@[simp] theorem raiseFault_params : (raiseFault f s).params = s.params := rfl
@[simp] theorem raiseFault_fg : (raiseFault f s).fg = s.fg := rfl
@[simp] theorem raiseFault_irqPhase : (raiseFault f s).irqPhase = s.irqPhase := rfl
@[simp] theorem raiseFault_bound : (raiseFault f s).bound = s.bound := rfl
@[simp] theorem raiseFault_activeDriver : (raiseFault f s).activeDriver = s.activeDriver := rfl
@[simp] theorem raiseFault_csLevel : (raiseFault f s).csLevel = s.csLevel := rfl
@[simp] theorem raiseFault_lastCs : (raiseFault f s).lastCs = s.lastCs := rfl
@[simp] theorem raiseFault_lastCsV : (raiseFault f s).lastCsV = s.lastCsV := rfl
@[simp] theorem raiseFault_periph : (raiseFault f s).periph = s.periph := rfl
@[simp] theorem raiseFault_xferDoneHw : (raiseFault f s).xferDoneHw = s.xferDoneHw := rfl
@[simp] theorem raiseFault_bufSize : (raiseFault f s).bufSize = s.bufSize := rfl
@[simp] theorem raiseFault_tx : (raiseFault f s).tx = s.tx := rfl
@[simp] theorem raiseFault_rx : (raiseFault f s).rx = s.rx := rfl
@[simp] theorem raiseFault_statusRx : (raiseFault f s).statusRx = s.statusRx := rfl
@[simp] theorem raiseFault_statusTxRx : (raiseFault f s).statusTxRx = s.statusTxRx := rfl
@[simp] theorem raiseFault_capCounter : (raiseFault f s).capCounter = s.capCounter := rfl
@[simp] theorem raiseFault_capTarget : (raiseFault f s).capTarget = s.capTarget := rfl
@[simp] theorem raiseFault_capCs : (raiseFault f s).capCs = s.capCs := rfl
@[simp] theorem raiseFault_record : (raiseFault f s).record = s.record := rfl
@[simp] theorem raiseFault_edgeEn : (raiseFault f s).edgeEn = s.edgeEn := rfl
@[simp] theorem raiseFault_edgePend : (raiseFault f s).edgePend = s.edgePend := rfl
@[simp] theorem raiseFault_cplRx : (raiseFault f s).cplRx = s.cplRx := rfl
@[simp] theorem raiseFault_cplTxRx : (raiseFault f s).cplTxRx = s.cplTxRx := rfl
@[simp] theorem raiseFault_faults : (raiseFault f s).faults = s.faults ||| f := rfl
@[simp] theorem raiseFault_busLog : (raiseFault f s).busLog = s.busLog := rfl
@[simp] theorem raiseFault_response : (raiseFault f s).response = s.response := rfl
@[simp] theorem raiseFault_hostProg : (raiseFault f s).hostProg = s.hostProg := rfl
@[simp] theorem raiseFault_hostIn : (raiseFault f s).hostIn = s.hostIn := rfl
@[simp] theorem raiseFault_lineOut : (raiseFault f s).lineOut = s.lineOut := rfl
@[simp] theorem raiseFault_port : (raiseFault f s).port = s.port := rfl
@[simp] theorem raiseFault_turns : (raiseFault f s).turns = s.turns := rfl
@[simp] theorem raiseFault_quota : (raiseFault f s).quota = s.quota := rfl
@[simp] theorem raiseFault_slaveIn : (raiseFault f s).slaveIn = s.slaveIn := rfl
@[simp] theorem raiseFault_outcomeIn : (raiseFault f s).outcomeIn = s.outcomeIn := rfl
@[simp] theorem raiseFault_startIn : (raiseFault f s).startIn = s.startIn := rfl
@[simp] theorem raiseFault_draws : (raiseFault f s).draws = s.draws := rfl

end

/-! ### Logging a bus record -/

section
variable (r : BusRecord) (s : State)

@[simp] theorem emit_params : (emit r s).params = s.params := rfl
@[simp] theorem emit_fg : (emit r s).fg = s.fg := rfl
@[simp] theorem emit_irqPhase : (emit r s).irqPhase = s.irqPhase := rfl
@[simp] theorem emit_bound : (emit r s).bound = s.bound := rfl
@[simp] theorem emit_activeDriver : (emit r s).activeDriver = s.activeDriver := rfl
@[simp] theorem emit_csLevel : (emit r s).csLevel = s.csLevel := rfl
@[simp] theorem emit_lastCs : (emit r s).lastCs = s.lastCs := rfl
@[simp] theorem emit_lastCsV : (emit r s).lastCsV = s.lastCsV := rfl
@[simp] theorem emit_periph : (emit r s).periph = s.periph := rfl
@[simp] theorem emit_xferDoneHw : (emit r s).xferDoneHw = s.xferDoneHw := rfl
@[simp] theorem emit_bufSize : (emit r s).bufSize = s.bufSize := rfl
@[simp] theorem emit_tx : (emit r s).tx = s.tx := rfl
@[simp] theorem emit_rx : (emit r s).rx = s.rx := rfl
@[simp] theorem emit_statusRx : (emit r s).statusRx = s.statusRx := rfl
@[simp] theorem emit_statusTxRx : (emit r s).statusTxRx = s.statusTxRx := rfl
@[simp] theorem emit_capCounter : (emit r s).capCounter = s.capCounter := rfl
@[simp] theorem emit_capTarget : (emit r s).capTarget = s.capTarget := rfl
@[simp] theorem emit_capCs : (emit r s).capCs = s.capCs := rfl
@[simp] theorem emit_record : (emit r s).record = s.record := rfl
@[simp] theorem emit_edgeEn : (emit r s).edgeEn = s.edgeEn := rfl
@[simp] theorem emit_edgePend : (emit r s).edgePend = s.edgePend := rfl
@[simp] theorem emit_cplRx : (emit r s).cplRx = s.cplRx := rfl
@[simp] theorem emit_cplTxRx : (emit r s).cplTxRx = s.cplTxRx := rfl
@[simp] theorem emit_faults : (emit r s).faults = s.faults := rfl
@[simp] theorem emit_busLog : (emit r s).busLog = s.busLog ++ [r] := rfl
@[simp] theorem emit_response : (emit r s).response = s.response := rfl
@[simp] theorem emit_hostProg : (emit r s).hostProg = s.hostProg := rfl
@[simp] theorem emit_hostIn : (emit r s).hostIn = s.hostIn := rfl
@[simp] theorem emit_lineOut : (emit r s).lineOut = s.lineOut := rfl
@[simp] theorem emit_port : (emit r s).port = s.port := rfl
@[simp] theorem emit_turns : (emit r s).turns = s.turns := rfl
@[simp] theorem emit_quota : (emit r s).quota = s.quota := rfl
@[simp] theorem emit_slaveIn : (emit r s).slaveIn = s.slaveIn := rfl
@[simp] theorem emit_outcomeIn : (emit r s).outcomeIn = s.outcomeIn := rfl
@[simp] theorem emit_startIn : (emit r s).startIn = s.startIn := rfl
@[simp] theorem emit_draws : (emit r s).draws = s.draws := rfl

end

/-! ### Answering a request -/

section
variable (rc : ResultCode) (d : RespData) (s : State)

@[simp] theorem respond_params : (respond rc d s).params = s.params := rfl
@[simp] theorem respond_fg : (respond rc d s).fg = .idle := rfl
@[simp] theorem respond_irqPhase : (respond rc d s).irqPhase = s.irqPhase := rfl
@[simp] theorem respond_bound : (respond rc d s).bound = s.bound := rfl
@[simp] theorem respond_activeDriver : (respond rc d s).activeDriver = s.activeDriver := rfl
@[simp] theorem respond_csLevel : (respond rc d s).csLevel = s.csLevel := rfl
@[simp] theorem respond_lastCs : (respond rc d s).lastCs = s.lastCs := rfl
@[simp] theorem respond_lastCsV : (respond rc d s).lastCsV = s.lastCsV := rfl
@[simp] theorem respond_periph : (respond rc d s).periph = s.periph := rfl
@[simp] theorem respond_xferDoneHw : (respond rc d s).xferDoneHw = s.xferDoneHw := rfl
@[simp] theorem respond_bufSize : (respond rc d s).bufSize = s.bufSize := rfl
@[simp] theorem respond_tx : (respond rc d s).tx = s.tx := rfl
@[simp] theorem respond_rx : (respond rc d s).rx = s.rx := rfl
@[simp] theorem respond_statusRx : (respond rc d s).statusRx = s.statusRx := rfl
@[simp] theorem respond_statusTxRx : (respond rc d s).statusTxRx = s.statusTxRx := rfl
@[simp] theorem respond_capCounter : (respond rc d s).capCounter = s.capCounter := rfl
@[simp] theorem respond_capTarget : (respond rc d s).capTarget = s.capTarget := rfl
@[simp] theorem respond_capCs : (respond rc d s).capCs = s.capCs := rfl
@[simp] theorem respond_record : (respond rc d s).record = s.record := rfl
@[simp] theorem respond_edgeEn : (respond rc d s).edgeEn = s.edgeEn := rfl
@[simp] theorem respond_edgePend : (respond rc d s).edgePend = s.edgePend := rfl
@[simp] theorem respond_cplRx : (respond rc d s).cplRx = s.cplRx := rfl
@[simp] theorem respond_cplTxRx : (respond rc d s).cplTxRx = s.cplTxRx := rfl
@[simp] theorem respond_faults : (respond rc d s).faults = s.faults := rfl
@[simp] theorem respond_busLog : (respond rc d s).busLog = s.busLog := rfl
@[simp] theorem respond_response : (respond rc d s).response = some { rc := rc, data := d } := rfl
@[simp] theorem respond_hostProg : (respond rc d s).hostProg = s.hostProg := rfl
@[simp] theorem respond_hostIn : (respond rc d s).hostIn = s.hostIn := rfl
@[simp] theorem respond_lineOut : (respond rc d s).lineOut = s.lineOut := rfl
@[simp] theorem respond_port : (respond rc d s).port = s.port := rfl
@[simp] theorem respond_turns : (respond rc d s).turns = s.turns := rfl
@[simp] theorem respond_quota : (respond rc d s).quota = s.quota := rfl
@[simp] theorem respond_slaveIn : (respond rc d s).slaveIn = s.slaveIn := rfl
@[simp] theorem respond_outcomeIn : (respond rc d s).outcomeIn = s.outcomeIn := rfl
@[simp] theorem respond_startIn : (respond rc d s).startIn = s.startIn := rfl
@[simp] theorem respond_draws : (respond rc d s).draws = s.draws := rfl

end

/-! ### Taking a request -/

section
variable (i : Instr) (s : State)

@[simp] theorem accept_params : (accept i s).params = s.params := rfl
@[simp] theorem accept_fg : (accept i s).fg = .busy i .a {} := rfl
@[simp] theorem accept_irqPhase : (accept i s).irqPhase = s.irqPhase := rfl
@[simp] theorem accept_bound : (accept i s).bound = s.bound := rfl
@[simp] theorem accept_activeDriver : (accept i s).activeDriver = s.activeDriver := rfl
@[simp] theorem accept_csLevel : (accept i s).csLevel = s.csLevel := rfl
@[simp] theorem accept_lastCs : (accept i s).lastCs = s.lastCs := rfl
@[simp] theorem accept_lastCsV : (accept i s).lastCsV = s.lastCsV := rfl
@[simp] theorem accept_periph : (accept i s).periph = s.periph := rfl
@[simp] theorem accept_xferDoneHw : (accept i s).xferDoneHw = s.xferDoneHw := rfl
@[simp] theorem accept_bufSize : (accept i s).bufSize = s.bufSize := rfl
@[simp] theorem accept_tx : (accept i s).tx = s.tx := rfl
@[simp] theorem accept_rx : (accept i s).rx = s.rx := rfl
@[simp] theorem accept_statusRx : (accept i s).statusRx = s.statusRx := rfl
@[simp] theorem accept_statusTxRx : (accept i s).statusTxRx = s.statusTxRx := rfl
@[simp] theorem accept_capCounter : (accept i s).capCounter = s.capCounter := rfl
@[simp] theorem accept_capTarget : (accept i s).capTarget = s.capTarget := rfl
@[simp] theorem accept_capCs : (accept i s).capCs = s.capCs := rfl
@[simp] theorem accept_record : (accept i s).record = s.record := rfl
@[simp] theorem accept_edgeEn : (accept i s).edgeEn = s.edgeEn := rfl
@[simp] theorem accept_edgePend : (accept i s).edgePend = s.edgePend := rfl
@[simp] theorem accept_cplRx : (accept i s).cplRx = s.cplRx := rfl
@[simp] theorem accept_cplTxRx : (accept i s).cplTxRx = s.cplTxRx := rfl
@[simp] theorem accept_faults : (accept i s).faults = s.faults := rfl
@[simp] theorem accept_busLog : (accept i s).busLog = s.busLog := rfl
@[simp] theorem accept_response : (accept i s).response = none := rfl
@[simp] theorem accept_hostProg : (accept i s).hostProg = s.hostProg := rfl
@[simp] theorem accept_hostIn : (accept i s).hostIn = s.hostIn := rfl
@[simp] theorem accept_lineOut : (accept i s).lineOut = s.lineOut := rfl
@[simp] theorem accept_port : (accept i s).port = s.port := rfl
@[simp] theorem accept_turns : (accept i s).turns = s.turns := rfl
@[simp] theorem accept_quota : (accept i s).quota = s.quota := rfl
@[simp] theorem accept_slaveIn : (accept i s).slaveIn = s.slaveIn := rfl
@[simp] theorem accept_outcomeIn : (accept i s).outcomeIn = s.outcomeIn := rfl
@[simp] theorem accept_startIn : (accept i s).startIn = s.startIn := rfl
@[simp] theorem accept_draws : (accept i s).draws = s.draws := rfl

end

/-! ### Going on with a request -/

section
variable (i : Instr) (m : Micro) (loc : Locals) (s : State)

@[simp] theorem continueAt_params : (continueAt i m loc s).params = s.params := rfl
@[simp] theorem continueAt_fg : (continueAt i m loc s).fg = .busy i m loc := rfl
@[simp] theorem continueAt_irqPhase : (continueAt i m loc s).irqPhase = s.irqPhase := rfl
@[simp] theorem continueAt_bound : (continueAt i m loc s).bound = s.bound := rfl
@[simp] theorem continueAt_activeDriver : (continueAt i m loc s).activeDriver = s.activeDriver := rfl
@[simp] theorem continueAt_csLevel : (continueAt i m loc s).csLevel = s.csLevel := rfl
@[simp] theorem continueAt_lastCs : (continueAt i m loc s).lastCs = s.lastCs := rfl
@[simp] theorem continueAt_lastCsV : (continueAt i m loc s).lastCsV = s.lastCsV := rfl
@[simp] theorem continueAt_periph : (continueAt i m loc s).periph = s.periph := rfl
@[simp] theorem continueAt_xferDoneHw : (continueAt i m loc s).xferDoneHw = s.xferDoneHw := rfl
@[simp] theorem continueAt_bufSize : (continueAt i m loc s).bufSize = s.bufSize := rfl
@[simp] theorem continueAt_tx : (continueAt i m loc s).tx = s.tx := rfl
@[simp] theorem continueAt_rx : (continueAt i m loc s).rx = s.rx := rfl
@[simp] theorem continueAt_statusRx : (continueAt i m loc s).statusRx = s.statusRx := rfl
@[simp] theorem continueAt_statusTxRx : (continueAt i m loc s).statusTxRx = s.statusTxRx := rfl
@[simp] theorem continueAt_capCounter : (continueAt i m loc s).capCounter = s.capCounter := rfl
@[simp] theorem continueAt_capTarget : (continueAt i m loc s).capTarget = s.capTarget := rfl
@[simp] theorem continueAt_capCs : (continueAt i m loc s).capCs = s.capCs := rfl
@[simp] theorem continueAt_record : (continueAt i m loc s).record = s.record := rfl
@[simp] theorem continueAt_edgeEn : (continueAt i m loc s).edgeEn = s.edgeEn := rfl
@[simp] theorem continueAt_edgePend : (continueAt i m loc s).edgePend = s.edgePend := rfl
@[simp] theorem continueAt_cplRx : (continueAt i m loc s).cplRx = s.cplRx := rfl
@[simp] theorem continueAt_cplTxRx : (continueAt i m loc s).cplTxRx = s.cplTxRx := rfl
@[simp] theorem continueAt_faults : (continueAt i m loc s).faults = s.faults := rfl
@[simp] theorem continueAt_busLog : (continueAt i m loc s).busLog = s.busLog := rfl
@[simp] theorem continueAt_response : (continueAt i m loc s).response = s.response := rfl
@[simp] theorem continueAt_hostProg : (continueAt i m loc s).hostProg = s.hostProg := rfl
@[simp] theorem continueAt_hostIn : (continueAt i m loc s).hostIn = s.hostIn := rfl
@[simp] theorem continueAt_lineOut : (continueAt i m loc s).lineOut = s.lineOut := rfl
@[simp] theorem continueAt_port : (continueAt i m loc s).port = s.port := rfl
@[simp] theorem continueAt_turns : (continueAt i m loc s).turns = s.turns := rfl
@[simp] theorem continueAt_quota : (continueAt i m loc s).quota = s.quota := rfl
@[simp] theorem continueAt_slaveIn : (continueAt i m loc s).slaveIn = s.slaveIn := rfl
@[simp] theorem continueAt_outcomeIn : (continueAt i m loc s).outcomeIn = s.outcomeIn := rfl
@[simp] theorem continueAt_startIn : (continueAt i m loc s).startIn = s.startIn := rfl
@[simp] theorem continueAt_draws : (continueAt i m loc s).draws = s.draws := rfl

end

/-! ### Writing PERIPH_STATE -/

section
variable (p : PeriphState) (s : State)

@[simp] theorem setPeriph_params : (setPeriph p s).params = s.params := rfl
@[simp] theorem setPeriph_fg : (setPeriph p s).fg = s.fg := rfl
@[simp] theorem setPeriph_irqPhase : (setPeriph p s).irqPhase = s.irqPhase := rfl
@[simp] theorem setPeriph_bound : (setPeriph p s).bound = s.bound := rfl
@[simp] theorem setPeriph_activeDriver : (setPeriph p s).activeDriver = s.activeDriver := rfl
@[simp] theorem setPeriph_csLevel : (setPeriph p s).csLevel = s.csLevel := rfl
@[simp] theorem setPeriph_lastCs : (setPeriph p s).lastCs = s.lastCs := rfl
@[simp] theorem setPeriph_lastCsV : (setPeriph p s).lastCsV = s.lastCsV := rfl
@[simp] theorem setPeriph_periph : (setPeriph p s).periph = p := rfl
@[simp] theorem setPeriph_xferDoneHw : (setPeriph p s).xferDoneHw = s.xferDoneHw := rfl
@[simp] theorem setPeriph_bufSize : (setPeriph p s).bufSize = s.bufSize := rfl
@[simp] theorem setPeriph_tx : (setPeriph p s).tx = s.tx := rfl
@[simp] theorem setPeriph_rx : (setPeriph p s).rx = s.rx := rfl
@[simp] theorem setPeriph_statusRx : (setPeriph p s).statusRx = s.statusRx := rfl
@[simp] theorem setPeriph_statusTxRx : (setPeriph p s).statusTxRx = s.statusTxRx := rfl
@[simp] theorem setPeriph_capCounter : (setPeriph p s).capCounter = s.capCounter := rfl
@[simp] theorem setPeriph_capTarget : (setPeriph p s).capTarget = s.capTarget := rfl
@[simp] theorem setPeriph_capCs : (setPeriph p s).capCs = s.capCs := rfl
@[simp] theorem setPeriph_record : (setPeriph p s).record = s.record := rfl
@[simp] theorem setPeriph_edgeEn : (setPeriph p s).edgeEn = s.edgeEn := rfl
@[simp] theorem setPeriph_edgePend : (setPeriph p s).edgePend = s.edgePend := rfl
@[simp] theorem setPeriph_cplRx : (setPeriph p s).cplRx = s.cplRx := rfl
@[simp] theorem setPeriph_cplTxRx : (setPeriph p s).cplTxRx = s.cplTxRx := rfl
@[simp] theorem setPeriph_faults : (setPeriph p s).faults = s.faults := rfl
@[simp] theorem setPeriph_busLog : (setPeriph p s).busLog = s.busLog := rfl
@[simp] theorem setPeriph_response : (setPeriph p s).response = s.response := rfl
@[simp] theorem setPeriph_hostProg : (setPeriph p s).hostProg = s.hostProg := rfl
@[simp] theorem setPeriph_hostIn : (setPeriph p s).hostIn = s.hostIn := rfl
@[simp] theorem setPeriph_lineOut : (setPeriph p s).lineOut = s.lineOut := rfl
@[simp] theorem setPeriph_port : (setPeriph p s).port = s.port := rfl
@[simp] theorem setPeriph_turns : (setPeriph p s).turns = s.turns := rfl
@[simp] theorem setPeriph_quota : (setPeriph p s).quota = s.quota := rfl
@[simp] theorem setPeriph_slaveIn : (setPeriph p s).slaveIn = s.slaveIn := rfl
@[simp] theorem setPeriph_outcomeIn : (setPeriph p s).outcomeIn = s.outcomeIn := rfl
@[simp] theorem setPeriph_startIn : (setPeriph p s).startIn = s.startIn := rfl
@[simp] theorem setPeriph_draws : (setPeriph p s).draws = s.draws := rfl

end

/-! ### Disabling the edge interrupt -/

section
variable (s : State)

@[simp] theorem disableEdge_params : (disableEdge s).params = s.params := rfl
@[simp] theorem disableEdge_fg : (disableEdge s).fg = s.fg := rfl
@[simp] theorem disableEdge_irqPhase : (disableEdge s).irqPhase = s.irqPhase := rfl
@[simp] theorem disableEdge_bound : (disableEdge s).bound = s.bound := rfl
@[simp] theorem disableEdge_activeDriver : (disableEdge s).activeDriver = s.activeDriver := rfl
@[simp] theorem disableEdge_csLevel : (disableEdge s).csLevel = s.csLevel := rfl
@[simp] theorem disableEdge_lastCs : (disableEdge s).lastCs = s.lastCs := rfl
@[simp] theorem disableEdge_lastCsV : (disableEdge s).lastCsV = s.lastCsV := rfl
@[simp] theorem disableEdge_periph : (disableEdge s).periph = s.periph := rfl
@[simp] theorem disableEdge_xferDoneHw : (disableEdge s).xferDoneHw = s.xferDoneHw := rfl
@[simp] theorem disableEdge_bufSize : (disableEdge s).bufSize = s.bufSize := rfl
@[simp] theorem disableEdge_tx : (disableEdge s).tx = s.tx := rfl
@[simp] theorem disableEdge_rx : (disableEdge s).rx = s.rx := rfl
@[simp] theorem disableEdge_statusRx : (disableEdge s).statusRx = s.statusRx := rfl
@[simp] theorem disableEdge_statusTxRx : (disableEdge s).statusTxRx = s.statusTxRx := rfl
@[simp] theorem disableEdge_capCounter : (disableEdge s).capCounter = s.capCounter := rfl
@[simp] theorem disableEdge_capTarget : (disableEdge s).capTarget = s.capTarget := rfl
@[simp] theorem disableEdge_capCs : (disableEdge s).capCs = s.capCs := rfl
@[simp] theorem disableEdge_record : (disableEdge s).record = s.record := rfl
@[simp] theorem disableEdge_edgeEn : (disableEdge s).edgeEn = false := rfl
@[simp] theorem disableEdge_edgePend : (disableEdge s).edgePend = false := rfl
@[simp] theorem disableEdge_cplRx : (disableEdge s).cplRx = s.cplRx := rfl
@[simp] theorem disableEdge_cplTxRx : (disableEdge s).cplTxRx = s.cplTxRx := rfl
@[simp] theorem disableEdge_faults : (disableEdge s).faults = s.faults := rfl
@[simp] theorem disableEdge_busLog : (disableEdge s).busLog = s.busLog := rfl
@[simp] theorem disableEdge_response : (disableEdge s).response = s.response := rfl
@[simp] theorem disableEdge_hostProg : (disableEdge s).hostProg = s.hostProg := rfl
@[simp] theorem disableEdge_hostIn : (disableEdge s).hostIn = s.hostIn := rfl
@[simp] theorem disableEdge_lineOut : (disableEdge s).lineOut = s.lineOut := rfl
@[simp] theorem disableEdge_port : (disableEdge s).port = s.port := rfl
@[simp] theorem disableEdge_turns : (disableEdge s).turns = s.turns := rfl
@[simp] theorem disableEdge_quota : (disableEdge s).quota = s.quota := rfl
@[simp] theorem disableEdge_slaveIn : (disableEdge s).slaveIn = s.slaveIn := rfl
@[simp] theorem disableEdge_outcomeIn : (disableEdge s).outcomeIn = s.outcomeIn := rfl
@[simp] theorem disableEdge_startIn : (disableEdge s).startIn = s.startIn := rfl
@[simp] theorem disableEdge_draws : (disableEdge s).draws = s.draws := rfl

end

/-! ### Enabling the edge interrupt -/

section
variable (s : State)

@[simp] theorem enableEdge_params : (enableEdge s).params = s.params := rfl
@[simp] theorem enableEdge_fg : (enableEdge s).fg = s.fg := rfl
@[simp] theorem enableEdge_irqPhase : (enableEdge s).irqPhase = s.irqPhase := rfl
@[simp] theorem enableEdge_bound : (enableEdge s).bound = s.bound := rfl
@[simp] theorem enableEdge_activeDriver : (enableEdge s).activeDriver = s.activeDriver := rfl
@[simp] theorem enableEdge_csLevel : (enableEdge s).csLevel = s.csLevel := rfl
@[simp] theorem enableEdge_lastCs : (enableEdge s).lastCs = s.lastCs := rfl
@[simp] theorem enableEdge_lastCsV : (enableEdge s).lastCsV = s.lastCsV := rfl
@[simp] theorem enableEdge_periph : (enableEdge s).periph = s.periph := rfl
@[simp] theorem enableEdge_xferDoneHw : (enableEdge s).xferDoneHw = s.xferDoneHw := rfl
@[simp] theorem enableEdge_bufSize : (enableEdge s).bufSize = s.bufSize := rfl
@[simp] theorem enableEdge_tx : (enableEdge s).tx = s.tx := rfl
@[simp] theorem enableEdge_rx : (enableEdge s).rx = s.rx := rfl
@[simp] theorem enableEdge_statusRx : (enableEdge s).statusRx = s.statusRx := rfl
@[simp] theorem enableEdge_statusTxRx : (enableEdge s).statusTxRx = s.statusTxRx := rfl
@[simp] theorem enableEdge_capCounter : (enableEdge s).capCounter = s.capCounter := rfl
@[simp] theorem enableEdge_capTarget : (enableEdge s).capTarget = s.capTarget := rfl
@[simp] theorem enableEdge_capCs : (enableEdge s).capCs = s.capCs := rfl
@[simp] theorem enableEdge_record : (enableEdge s).record = s.record := rfl
@[simp] theorem enableEdge_edgeEn : (enableEdge s).edgeEn = true := rfl
@[simp] theorem enableEdge_edgePend : (enableEdge s).edgePend = s.edgePend := rfl
@[simp] theorem enableEdge_cplRx : (enableEdge s).cplRx = s.cplRx := rfl
@[simp] theorem enableEdge_cplTxRx : (enableEdge s).cplTxRx = s.cplTxRx := rfl
@[simp] theorem enableEdge_faults : (enableEdge s).faults = s.faults := rfl
@[simp] theorem enableEdge_busLog : (enableEdge s).busLog = s.busLog := rfl
@[simp] theorem enableEdge_response : (enableEdge s).response = s.response := rfl
@[simp] theorem enableEdge_hostProg : (enableEdge s).hostProg = s.hostProg := rfl
@[simp] theorem enableEdge_hostIn : (enableEdge s).hostIn = s.hostIn := rfl
@[simp] theorem enableEdge_lineOut : (enableEdge s).lineOut = s.lineOut := rfl
@[simp] theorem enableEdge_port : (enableEdge s).port = s.port := rfl
@[simp] theorem enableEdge_turns : (enableEdge s).turns = s.turns := rfl
@[simp] theorem enableEdge_quota : (enableEdge s).quota = s.quota := rfl
@[simp] theorem enableEdge_slaveIn : (enableEdge s).slaveIn = s.slaveIn := rfl
@[simp] theorem enableEdge_outcomeIn : (enableEdge s).outcomeIn = s.outcomeIn := rfl
@[simp] theorem enableEdge_startIn : (enableEdge s).startIn = s.startIn := rfl
@[simp] theorem enableEdge_draws : (enableEdge s).draws = s.draws := rfl

end

/-! ### Writing CAP_TARGET -/

section
variable (n : U32) (s : State)

@[simp] theorem setTarget_params : (setTarget n s).params = s.params := rfl
@[simp] theorem setTarget_fg : (setTarget n s).fg = s.fg := rfl
@[simp] theorem setTarget_irqPhase : (setTarget n s).irqPhase = s.irqPhase := rfl
@[simp] theorem setTarget_bound : (setTarget n s).bound = s.bound := rfl
@[simp] theorem setTarget_activeDriver : (setTarget n s).activeDriver = s.activeDriver := rfl
@[simp] theorem setTarget_csLevel : (setTarget n s).csLevel = s.csLevel := rfl
@[simp] theorem setTarget_lastCs : (setTarget n s).lastCs = s.lastCs := rfl
@[simp] theorem setTarget_lastCsV : (setTarget n s).lastCsV = s.lastCsV := rfl
@[simp] theorem setTarget_periph : (setTarget n s).periph = s.periph := rfl
@[simp] theorem setTarget_xferDoneHw : (setTarget n s).xferDoneHw = s.xferDoneHw := rfl
@[simp] theorem setTarget_bufSize : (setTarget n s).bufSize = s.bufSize := rfl
@[simp] theorem setTarget_tx : (setTarget n s).tx = s.tx := rfl
@[simp] theorem setTarget_rx : (setTarget n s).rx = s.rx := rfl
@[simp] theorem setTarget_statusRx : (setTarget n s).statusRx = s.statusRx := rfl
@[simp] theorem setTarget_statusTxRx : (setTarget n s).statusTxRx = s.statusTxRx := rfl
@[simp] theorem setTarget_capCounter : (setTarget n s).capCounter = s.capCounter := rfl
@[simp] theorem setTarget_capTarget : (setTarget n s).capTarget = n := rfl
@[simp] theorem setTarget_capCs : (setTarget n s).capCs = s.capCs := rfl
@[simp] theorem setTarget_record : (setTarget n s).record = s.record := rfl
@[simp] theorem setTarget_edgeEn : (setTarget n s).edgeEn = s.edgeEn := rfl
@[simp] theorem setTarget_edgePend : (setTarget n s).edgePend = s.edgePend := rfl
@[simp] theorem setTarget_cplRx : (setTarget n s).cplRx = s.cplRx := rfl
@[simp] theorem setTarget_cplTxRx : (setTarget n s).cplTxRx = s.cplTxRx := rfl
@[simp] theorem setTarget_faults : (setTarget n s).faults = s.faults := rfl
@[simp] theorem setTarget_busLog : (setTarget n s).busLog = s.busLog := rfl
@[simp] theorem setTarget_response : (setTarget n s).response = s.response := rfl
@[simp] theorem setTarget_hostProg : (setTarget n s).hostProg = s.hostProg := rfl
@[simp] theorem setTarget_hostIn : (setTarget n s).hostIn = s.hostIn := rfl
@[simp] theorem setTarget_lineOut : (setTarget n s).lineOut = s.lineOut := rfl
@[simp] theorem setTarget_port : (setTarget n s).port = s.port := rfl
@[simp] theorem setTarget_turns : (setTarget n s).turns = s.turns := rfl
@[simp] theorem setTarget_quota : (setTarget n s).quota = s.quota := rfl
@[simp] theorem setTarget_slaveIn : (setTarget n s).slaveIn = s.slaveIn := rfl
@[simp] theorem setTarget_outcomeIn : (setTarget n s).outcomeIn = s.outcomeIn := rfl
@[simp] theorem setTarget_startIn : (setTarget n s).startIn = s.startIn := rfl
@[simp] theorem setTarget_draws : (setTarget n s).draws = s.draws := rfl

end

/-! ### Clearing the record -/

section
variable (s : State)

@[simp] theorem clearRecord_params : (clearRecord s).params = s.params := rfl
@[simp] theorem clearRecord_fg : (clearRecord s).fg = s.fg := rfl
@[simp] theorem clearRecord_irqPhase : (clearRecord s).irqPhase = s.irqPhase := rfl
@[simp] theorem clearRecord_bound : (clearRecord s).bound = s.bound := rfl
@[simp] theorem clearRecord_activeDriver : (clearRecord s).activeDriver = s.activeDriver := rfl
@[simp] theorem clearRecord_csLevel : (clearRecord s).csLevel = s.csLevel := rfl
@[simp] theorem clearRecord_lastCs : (clearRecord s).lastCs = s.lastCs := rfl
@[simp] theorem clearRecord_lastCsV : (clearRecord s).lastCsV = s.lastCsV := rfl
@[simp] theorem clearRecord_periph : (clearRecord s).periph = s.periph := rfl
@[simp] theorem clearRecord_xferDoneHw : (clearRecord s).xferDoneHw = s.xferDoneHw := rfl
@[simp] theorem clearRecord_bufSize : (clearRecord s).bufSize = s.bufSize := rfl
@[simp] theorem clearRecord_tx : (clearRecord s).tx = s.tx := rfl
@[simp] theorem clearRecord_rx : (clearRecord s).rx = s.rx := rfl
@[simp] theorem clearRecord_statusRx : (clearRecord s).statusRx = s.statusRx := rfl
@[simp] theorem clearRecord_statusTxRx : (clearRecord s).statusTxRx = s.statusTxRx := rfl
@[simp] theorem clearRecord_capCounter : (clearRecord s).capCounter = 0 := rfl
@[simp] theorem clearRecord_capTarget : (clearRecord s).capTarget = s.capTarget := rfl
@[simp] theorem clearRecord_capCs : (clearRecord s).capCs = s.capCs := rfl
@[simp] theorem clearRecord_record : (clearRecord s).record = [] := rfl
@[simp] theorem clearRecord_edgeEn : (clearRecord s).edgeEn = s.edgeEn := rfl
@[simp] theorem clearRecord_edgePend : (clearRecord s).edgePend = s.edgePend := rfl
@[simp] theorem clearRecord_cplRx : (clearRecord s).cplRx = s.cplRx := rfl
@[simp] theorem clearRecord_cplTxRx : (clearRecord s).cplTxRx = s.cplTxRx := rfl
@[simp] theorem clearRecord_faults : (clearRecord s).faults = s.faults := rfl
@[simp] theorem clearRecord_busLog : (clearRecord s).busLog = s.busLog := rfl
@[simp] theorem clearRecord_response : (clearRecord s).response = s.response := rfl
@[simp] theorem clearRecord_hostProg : (clearRecord s).hostProg = s.hostProg := rfl
@[simp] theorem clearRecord_hostIn : (clearRecord s).hostIn = s.hostIn := rfl
@[simp] theorem clearRecord_lineOut : (clearRecord s).lineOut = s.lineOut := rfl
@[simp] theorem clearRecord_port : (clearRecord s).port = s.port := rfl
@[simp] theorem clearRecord_turns : (clearRecord s).turns = s.turns := rfl
@[simp] theorem clearRecord_quota : (clearRecord s).quota = s.quota := rfl
@[simp] theorem clearRecord_slaveIn : (clearRecord s).slaveIn = s.slaveIn := rfl
@[simp] theorem clearRecord_outcomeIn : (clearRecord s).outcomeIn = s.outcomeIn := rfl
@[simp] theorem clearRecord_startIn : (clearRecord s).startIn = s.startIn := rfl
@[simp] theorem clearRecord_draws : (clearRecord s).draws = s.draws := rfl

end

/-! ### Writing CAP_CS -/

section
variable (cs : Byte) (s : State)

@[simp] theorem setCaptureLine_params : (setCaptureLine cs s).params = s.params := rfl
@[simp] theorem setCaptureLine_fg : (setCaptureLine cs s).fg = s.fg := rfl
@[simp] theorem setCaptureLine_irqPhase : (setCaptureLine cs s).irqPhase = s.irqPhase := rfl
@[simp] theorem setCaptureLine_bound : (setCaptureLine cs s).bound = s.bound := rfl
@[simp] theorem setCaptureLine_activeDriver : (setCaptureLine cs s).activeDriver = s.activeDriver := rfl
@[simp] theorem setCaptureLine_csLevel : (setCaptureLine cs s).csLevel = s.csLevel := rfl
@[simp] theorem setCaptureLine_lastCs : (setCaptureLine cs s).lastCs = s.lastCs := rfl
@[simp] theorem setCaptureLine_lastCsV : (setCaptureLine cs s).lastCsV = s.lastCsV := rfl
@[simp] theorem setCaptureLine_periph : (setCaptureLine cs s).periph = s.periph := rfl
@[simp] theorem setCaptureLine_xferDoneHw : (setCaptureLine cs s).xferDoneHw = s.xferDoneHw := rfl
@[simp] theorem setCaptureLine_bufSize : (setCaptureLine cs s).bufSize = s.bufSize := rfl
@[simp] theorem setCaptureLine_tx : (setCaptureLine cs s).tx = s.tx := rfl
@[simp] theorem setCaptureLine_rx : (setCaptureLine cs s).rx = s.rx := rfl
@[simp] theorem setCaptureLine_statusRx : (setCaptureLine cs s).statusRx = s.statusRx := rfl
@[simp] theorem setCaptureLine_statusTxRx : (setCaptureLine cs s).statusTxRx = s.statusTxRx := rfl
@[simp] theorem setCaptureLine_capCounter : (setCaptureLine cs s).capCounter = s.capCounter := rfl
@[simp] theorem setCaptureLine_capTarget : (setCaptureLine cs s).capTarget = s.capTarget := rfl
@[simp] theorem setCaptureLine_capCs : (setCaptureLine cs s).capCs = some cs := rfl
@[simp] theorem setCaptureLine_record : (setCaptureLine cs s).record = s.record := rfl
@[simp] theorem setCaptureLine_edgeEn : (setCaptureLine cs s).edgeEn = s.edgeEn := rfl
@[simp] theorem setCaptureLine_edgePend : (setCaptureLine cs s).edgePend = s.edgePend := rfl
@[simp] theorem setCaptureLine_cplRx : (setCaptureLine cs s).cplRx = s.cplRx := rfl
@[simp] theorem setCaptureLine_cplTxRx : (setCaptureLine cs s).cplTxRx = s.cplTxRx := rfl
@[simp] theorem setCaptureLine_faults : (setCaptureLine cs s).faults = s.faults := rfl
@[simp] theorem setCaptureLine_busLog : (setCaptureLine cs s).busLog = s.busLog := rfl
@[simp] theorem setCaptureLine_response : (setCaptureLine cs s).response = s.response := rfl
@[simp] theorem setCaptureLine_hostProg : (setCaptureLine cs s).hostProg = s.hostProg := rfl
@[simp] theorem setCaptureLine_hostIn : (setCaptureLine cs s).hostIn = s.hostIn := rfl
@[simp] theorem setCaptureLine_lineOut : (setCaptureLine cs s).lineOut = s.lineOut := rfl
@[simp] theorem setCaptureLine_port : (setCaptureLine cs s).port = s.port := rfl
@[simp] theorem setCaptureLine_turns : (setCaptureLine cs s).turns = s.turns := rfl
@[simp] theorem setCaptureLine_quota : (setCaptureLine cs s).quota = s.quota := rfl
@[simp] theorem setCaptureLine_slaveIn : (setCaptureLine cs s).slaveIn = s.slaveIn := rfl
@[simp] theorem setCaptureLine_outcomeIn : (setCaptureLine cs s).outcomeIn = s.outcomeIn := rfl
@[simp] theorem setCaptureLine_startIn : (setCaptureLine cs s).startIn = s.startIn := rfl
@[simp] theorem setCaptureLine_draws : (setCaptureLine cs s).draws = s.draws := rfl

end

/-! ### Recording a sample -/

section
variable (v : U32) (s : State)

@[simp] theorem recordSample_params : (recordSample v s).params = s.params := rfl
@[simp] theorem recordSample_fg : (recordSample v s).fg = s.fg := rfl
@[simp] theorem recordSample_irqPhase : (recordSample v s).irqPhase = s.irqPhase := rfl
@[simp] theorem recordSample_bound : (recordSample v s).bound = s.bound := rfl
@[simp] theorem recordSample_activeDriver : (recordSample v s).activeDriver = s.activeDriver := rfl
@[simp] theorem recordSample_csLevel : (recordSample v s).csLevel = s.csLevel := rfl
@[simp] theorem recordSample_lastCs : (recordSample v s).lastCs = s.lastCs := rfl
@[simp] theorem recordSample_lastCsV : (recordSample v s).lastCsV = s.lastCsV := rfl
@[simp] theorem recordSample_periph : (recordSample v s).periph = s.periph := rfl
@[simp] theorem recordSample_xferDoneHw : (recordSample v s).xferDoneHw = s.xferDoneHw := rfl
@[simp] theorem recordSample_bufSize : (recordSample v s).bufSize = s.bufSize := rfl
@[simp] theorem recordSample_tx : (recordSample v s).tx = s.tx := rfl
@[simp] theorem recordSample_rx : (recordSample v s).rx = s.rx := rfl
@[simp] theorem recordSample_statusRx : (recordSample v s).statusRx = s.statusRx := rfl
@[simp] theorem recordSample_statusTxRx : (recordSample v s).statusTxRx = s.statusTxRx := rfl
@[simp] theorem recordSample_capCounter : (recordSample v s).capCounter = s.capCounter + 1 := rfl
@[simp] theorem recordSample_capTarget : (recordSample v s).capTarget = s.capTarget := rfl
@[simp] theorem recordSample_capCs : (recordSample v s).capCs = s.capCs := rfl
@[simp] theorem recordSample_record : (recordSample v s).record = Cells.write s.record s.capCounter.toNat v := rfl
@[simp] theorem recordSample_edgeEn : (recordSample v s).edgeEn = s.edgeEn := rfl
@[simp] theorem recordSample_edgePend : (recordSample v s).edgePend = s.edgePend := rfl
@[simp] theorem recordSample_cplRx : (recordSample v s).cplRx = s.cplRx := rfl
@[simp] theorem recordSample_cplTxRx : (recordSample v s).cplTxRx = s.cplTxRx := rfl
@[simp] theorem recordSample_faults : (recordSample v s).faults = s.faults := rfl
@[simp] theorem recordSample_busLog : (recordSample v s).busLog = s.busLog := rfl
@[simp] theorem recordSample_response : (recordSample v s).response = s.response := rfl
@[simp] theorem recordSample_hostProg : (recordSample v s).hostProg = s.hostProg := rfl
@[simp] theorem recordSample_hostIn : (recordSample v s).hostIn = s.hostIn := rfl
@[simp] theorem recordSample_lineOut : (recordSample v s).lineOut = s.lineOut := rfl
@[simp] theorem recordSample_port : (recordSample v s).port = s.port := rfl
@[simp] theorem recordSample_turns : (recordSample v s).turns = s.turns := rfl
@[simp] theorem recordSample_quota : (recordSample v s).quota = s.quota := rfl
@[simp] theorem recordSample_slaveIn : (recordSample v s).slaveIn = s.slaveIn := rfl
@[simp] theorem recordSample_outcomeIn : (recordSample v s).outcomeIn = s.outcomeIn := rfl
@[simp] theorem recordSample_startIn : (recordSample v s).startIn = s.startIn := rfl
@[simp] theorem recordSample_draws : (recordSample v s).draws = s.draws := rfl

end

/-! ### Writing a transfer status -/

section
variable (k : Kind) (v : XferStatus) (s : State)

@[simp] theorem setStatus_params : (setStatus k v s).params = s.params := by cases k <;> rfl
@[simp] theorem setStatus_fg : (setStatus k v s).fg = s.fg := by cases k <;> rfl
@[simp] theorem setStatus_irqPhase : (setStatus k v s).irqPhase = s.irqPhase := by cases k <;> rfl
@[simp] theorem setStatus_bound : (setStatus k v s).bound = s.bound := by cases k <;> rfl
@[simp] theorem setStatus_activeDriver : (setStatus k v s).activeDriver = s.activeDriver := by cases k <;> rfl
@[simp] theorem setStatus_csLevel : (setStatus k v s).csLevel = s.csLevel := by cases k <;> rfl
@[simp] theorem setStatus_lastCs : (setStatus k v s).lastCs = s.lastCs := by cases k <;> rfl
@[simp] theorem setStatus_lastCsV : (setStatus k v s).lastCsV = s.lastCsV := by cases k <;> rfl
@[simp] theorem setStatus_periph : (setStatus k v s).periph = s.periph := by cases k <;> rfl
@[simp] theorem setStatus_xferDoneHw : (setStatus k v s).xferDoneHw = s.xferDoneHw := by cases k <;> rfl
@[simp] theorem setStatus_bufSize : (setStatus k v s).bufSize = s.bufSize := by cases k <;> rfl
@[simp] theorem setStatus_tx : (setStatus k v s).tx = s.tx := by cases k <;> rfl
@[simp] theorem setStatus_rx : (setStatus k v s).rx = s.rx := by cases k <;> rfl
@[simp] theorem setStatus_statusRx : (setStatus k v s).statusRx = if k = .rx then v else s.statusRx := by cases k <;> rfl
@[simp] theorem setStatus_statusTxRx : (setStatus k v s).statusTxRx = if k = .txrx then v else s.statusTxRx := by cases k <;> rfl
@[simp] theorem setStatus_capCounter : (setStatus k v s).capCounter = s.capCounter := by cases k <;> rfl
@[simp] theorem setStatus_capTarget : (setStatus k v s).capTarget = s.capTarget := by cases k <;> rfl
@[simp] theorem setStatus_capCs : (setStatus k v s).capCs = s.capCs := by cases k <;> rfl
@[simp] theorem setStatus_record : (setStatus k v s).record = s.record := by cases k <;> rfl
@[simp] theorem setStatus_edgeEn : (setStatus k v s).edgeEn = s.edgeEn := by cases k <;> rfl
@[simp] theorem setStatus_edgePend : (setStatus k v s).edgePend = s.edgePend := by cases k <;> rfl
@[simp] theorem setStatus_cplRx : (setStatus k v s).cplRx = s.cplRx := by cases k <;> rfl
@[simp] theorem setStatus_cplTxRx : (setStatus k v s).cplTxRx = s.cplTxRx := by cases k <;> rfl
@[simp] theorem setStatus_faults : (setStatus k v s).faults = s.faults := by cases k <;> rfl
@[simp] theorem setStatus_busLog : (setStatus k v s).busLog = s.busLog := by cases k <;> rfl
@[simp] theorem setStatus_response : (setStatus k v s).response = s.response := by cases k <;> rfl
@[simp] theorem setStatus_hostProg : (setStatus k v s).hostProg = s.hostProg := by cases k <;> rfl
@[simp] theorem setStatus_hostIn : (setStatus k v s).hostIn = s.hostIn := by cases k <;> rfl
@[simp] theorem setStatus_lineOut : (setStatus k v s).lineOut = s.lineOut := by cases k <;> rfl
@[simp] theorem setStatus_port : (setStatus k v s).port = s.port := by cases k <;> rfl
@[simp] theorem setStatus_turns : (setStatus k v s).turns = s.turns := by cases k <;> rfl
@[simp] theorem setStatus_quota : (setStatus k v s).quota = s.quota := by cases k <;> rfl
@[simp] theorem setStatus_slaveIn : (setStatus k v s).slaveIn = s.slaveIn := by cases k <;> rfl
@[simp] theorem setStatus_outcomeIn : (setStatus k v s).outcomeIn = s.outcomeIn := by cases k <;> rfl
@[simp] theorem setStatus_startIn : (setStatus k v s).startIn = s.startIn := by cases k <;> rfl
@[simp] theorem setStatus_draws : (setStatus k v s).draws = s.draws := by cases k <;> rfl

end

/-! ### Writing a transfer result -/

section
variable (k : Kind) (rc : ResultCode) (s : State)

@[simp] theorem setResult_params : (setResult k rc s).params = s.params := by cases k <;> rfl
@[simp] theorem setResult_fg : (setResult k rc s).fg = s.fg := by cases k <;> rfl
@[simp] theorem setResult_irqPhase : (setResult k rc s).irqPhase = s.irqPhase := by cases k <;> rfl
@[simp] theorem setResult_bound : (setResult k rc s).bound = s.bound := by cases k <;> rfl
@[simp] theorem setResult_activeDriver : (setResult k rc s).activeDriver = s.activeDriver := by cases k <;> rfl
@[simp] theorem setResult_csLevel : (setResult k rc s).csLevel = s.csLevel := by cases k <;> rfl
@[simp] theorem setResult_lastCs : (setResult k rc s).lastCs = s.lastCs := by cases k <;> rfl
@[simp] theorem setResult_lastCsV : (setResult k rc s).lastCsV = s.lastCsV := by cases k <;> rfl
@[simp] theorem setResult_periph : (setResult k rc s).periph = s.periph := by cases k <;> rfl
@[simp] theorem setResult_xferDoneHw : (setResult k rc s).xferDoneHw = s.xferDoneHw := by cases k <;> rfl
@[simp] theorem setResult_bufSize : (setResult k rc s).bufSize = s.bufSize := by cases k <;> rfl
@[simp] theorem setResult_tx : (setResult k rc s).tx = s.tx := by cases k <;> rfl
@[simp] theorem setResult_rx : (setResult k rc s).rx = s.rx := by cases k <;> rfl
@[simp] theorem setResult_statusRx : (setResult k rc s).statusRx = if k = .rx then { done := s.statusRx.done, result := some rc.code } else s.statusRx := by cases k <;> rfl
@[simp] theorem setResult_statusTxRx : (setResult k rc s).statusTxRx = if k = .txrx then { done := s.statusTxRx.done, result := some rc.code } else s.statusTxRx := by cases k <;> rfl
@[simp] theorem setResult_capCounter : (setResult k rc s).capCounter = s.capCounter := by cases k <;> rfl
@[simp] theorem setResult_capTarget : (setResult k rc s).capTarget = s.capTarget := by cases k <;> rfl
@[simp] theorem setResult_capCs : (setResult k rc s).capCs = s.capCs := by cases k <;> rfl
@[simp] theorem setResult_record : (setResult k rc s).record = s.record := by cases k <;> rfl
@[simp] theorem setResult_edgeEn : (setResult k rc s).edgeEn = s.edgeEn := by cases k <;> rfl
@[simp] theorem setResult_edgePend : (setResult k rc s).edgePend = s.edgePend := by cases k <;> rfl
@[simp] theorem setResult_cplRx : (setResult k rc s).cplRx = s.cplRx := by cases k <;> rfl
@[simp] theorem setResult_cplTxRx : (setResult k rc s).cplTxRx = s.cplTxRx := by cases k <;> rfl
@[simp] theorem setResult_faults : (setResult k rc s).faults = s.faults := by cases k <;> rfl
@[simp] theorem setResult_busLog : (setResult k rc s).busLog = s.busLog := by cases k <;> rfl
@[simp] theorem setResult_response : (setResult k rc s).response = s.response := by cases k <;> rfl
@[simp] theorem setResult_hostProg : (setResult k rc s).hostProg = s.hostProg := by cases k <;> rfl
@[simp] theorem setResult_hostIn : (setResult k rc s).hostIn = s.hostIn := by cases k <;> rfl
@[simp] theorem setResult_lineOut : (setResult k rc s).lineOut = s.lineOut := by cases k <;> rfl
@[simp] theorem setResult_port : (setResult k rc s).port = s.port := by cases k <;> rfl
@[simp] theorem setResult_turns : (setResult k rc s).turns = s.turns := by cases k <;> rfl
@[simp] theorem setResult_quota : (setResult k rc s).quota = s.quota := by cases k <;> rfl
@[simp] theorem setResult_slaveIn : (setResult k rc s).slaveIn = s.slaveIn := by cases k <;> rfl
@[simp] theorem setResult_outcomeIn : (setResult k rc s).outcomeIn = s.outcomeIn := by cases k <;> rfl
@[simp] theorem setResult_startIn : (setResult k rc s).startIn = s.startIn := by cases k <;> rfl
@[simp] theorem setResult_draws : (setResult k rc s).draws = s.draws := by cases k <;> rfl

end

/-! ### Setting a completion pending -/

section
variable (k : Kind) (s : State)

@[simp] theorem setCplPend_params : (setCplPend k s).params = s.params := by cases k <;> rfl
@[simp] theorem setCplPend_fg : (setCplPend k s).fg = s.fg := by cases k <;> rfl
@[simp] theorem setCplPend_irqPhase : (setCplPend k s).irqPhase = s.irqPhase := by cases k <;> rfl
@[simp] theorem setCplPend_bound : (setCplPend k s).bound = s.bound := by cases k <;> rfl
@[simp] theorem setCplPend_activeDriver : (setCplPend k s).activeDriver = s.activeDriver := by cases k <;> rfl
@[simp] theorem setCplPend_csLevel : (setCplPend k s).csLevel = s.csLevel := by cases k <;> rfl
@[simp] theorem setCplPend_lastCs : (setCplPend k s).lastCs = s.lastCs := by cases k <;> rfl
@[simp] theorem setCplPend_lastCsV : (setCplPend k s).lastCsV = s.lastCsV := by cases k <;> rfl
@[simp] theorem setCplPend_periph : (setCplPend k s).periph = s.periph := by cases k <;> rfl
@[simp] theorem setCplPend_xferDoneHw : (setCplPend k s).xferDoneHw = s.xferDoneHw := by cases k <;> rfl
@[simp] theorem setCplPend_bufSize : (setCplPend k s).bufSize = s.bufSize := by cases k <;> rfl
@[simp] theorem setCplPend_tx : (setCplPend k s).tx = s.tx := by cases k <;> rfl
@[simp] theorem setCplPend_rx : (setCplPend k s).rx = s.rx := by cases k <;> rfl
@[simp] theorem setCplPend_statusRx : (setCplPend k s).statusRx = s.statusRx := by cases k <;> rfl
@[simp] theorem setCplPend_statusTxRx : (setCplPend k s).statusTxRx = s.statusTxRx := by cases k <;> rfl
@[simp] theorem setCplPend_capCounter : (setCplPend k s).capCounter = s.capCounter := by cases k <;> rfl
@[simp] theorem setCplPend_capTarget : (setCplPend k s).capTarget = s.capTarget := by cases k <;> rfl
@[simp] theorem setCplPend_capCs : (setCplPend k s).capCs = s.capCs := by cases k <;> rfl
@[simp] theorem setCplPend_record : (setCplPend k s).record = s.record := by cases k <;> rfl
@[simp] theorem setCplPend_edgeEn : (setCplPend k s).edgeEn = s.edgeEn := by cases k <;> rfl
@[simp] theorem setCplPend_edgePend : (setCplPend k s).edgePend = s.edgePend := by cases k <;> rfl
@[simp] theorem setCplPend_cplRx : (setCplPend k s).cplRx = if k = .rx then true else s.cplRx := by cases k <;> rfl
@[simp] theorem setCplPend_cplTxRx : (setCplPend k s).cplTxRx = if k = .txrx then true else s.cplTxRx := by cases k <;> rfl
@[simp] theorem setCplPend_faults : (setCplPend k s).faults = s.faults := by cases k <;> rfl
@[simp] theorem setCplPend_busLog : (setCplPend k s).busLog = s.busLog := by cases k <;> rfl
@[simp] theorem setCplPend_response : (setCplPend k s).response = s.response := by cases k <;> rfl
@[simp] theorem setCplPend_hostProg : (setCplPend k s).hostProg = s.hostProg := by cases k <;> rfl
@[simp] theorem setCplPend_hostIn : (setCplPend k s).hostIn = s.hostIn := by cases k <;> rfl
@[simp] theorem setCplPend_lineOut : (setCplPend k s).lineOut = s.lineOut := by cases k <;> rfl
@[simp] theorem setCplPend_port : (setCplPend k s).port = s.port := by cases k <;> rfl
@[simp] theorem setCplPend_turns : (setCplPend k s).turns = s.turns := by cases k <;> rfl
@[simp] theorem setCplPend_quota : (setCplPend k s).quota = s.quota := by cases k <;> rfl
@[simp] theorem setCplPend_slaveIn : (setCplPend k s).slaveIn = s.slaveIn := by cases k <;> rfl
@[simp] theorem setCplPend_outcomeIn : (setCplPend k s).outcomeIn = s.outcomeIn := by cases k <;> rfl
@[simp] theorem setCplPend_startIn : (setCplPend k s).startIn = s.startIn := by cases k <;> rfl
@[simp] theorem setCplPend_draws : (setCplPend k s).draws = s.draws := by cases k <;> rfl

end

/-! ### Clearing a pending bit -/

section
variable (src : IrqSource) (s : State)

@[simp] theorem acknowledge_params : (acknowledge src s).params = s.params := by rcases src with _ | _ | _ <;> rfl
@[simp] theorem acknowledge_fg : (acknowledge src s).fg = s.fg := by rcases src with _ | _ | _ <;> rfl
@[simp] theorem acknowledge_irqPhase : (acknowledge src s).irqPhase = s.irqPhase := by rcases src with _ | _ | _ <;> rfl
@[simp] theorem acknowledge_bound : (acknowledge src s).bound = s.bound := by rcases src with _ | _ | _ <;> rfl
@[simp] theorem acknowledge_activeDriver : (acknowledge src s).activeDriver = s.activeDriver := by rcases src with _ | _ | _ <;> rfl
@[simp] theorem acknowledge_csLevel : (acknowledge src s).csLevel = s.csLevel := by rcases src with _ | _ | _ <;> rfl
@[simp] theorem acknowledge_lastCs : (acknowledge src s).lastCs = s.lastCs := by rcases src with _ | _ | _ <;> rfl
@[simp] theorem acknowledge_lastCsV : (acknowledge src s).lastCsV = s.lastCsV := by rcases src with _ | _ | _ <;> rfl
@[simp] theorem acknowledge_periph : (acknowledge src s).periph = s.periph := by rcases src with _ | _ | _ <;> rfl
@[simp] theorem acknowledge_xferDoneHw : (acknowledge src s).xferDoneHw = s.xferDoneHw := by rcases src with _ | _ | _ <;> rfl
@[simp] theorem acknowledge_bufSize : (acknowledge src s).bufSize = s.bufSize := by rcases src with _ | _ | _ <;> rfl
@[simp] theorem acknowledge_tx : (acknowledge src s).tx = s.tx := by rcases src with _ | _ | _ <;> rfl
@[simp] theorem acknowledge_rx : (acknowledge src s).rx = s.rx := by rcases src with _ | _ | _ <;> rfl
@[simp] theorem acknowledge_statusRx : (acknowledge src s).statusRx = s.statusRx := by rcases src with _ | _ | _ <;> rfl
@[simp] theorem acknowledge_statusTxRx : (acknowledge src s).statusTxRx = s.statusTxRx := by rcases src with _ | _ | _ <;> rfl
@[simp] theorem acknowledge_capCounter : (acknowledge src s).capCounter = s.capCounter := by rcases src with _ | _ | _ <;> rfl
@[simp] theorem acknowledge_capTarget : (acknowledge src s).capTarget = s.capTarget := by rcases src with _ | _ | _ <;> rfl
@[simp] theorem acknowledge_capCs : (acknowledge src s).capCs = s.capCs := by rcases src with _ | _ | _ <;> rfl
@[simp] theorem acknowledge_record : (acknowledge src s).record = s.record := by rcases src with _ | _ | _ <;> rfl
@[simp] theorem acknowledge_edgeEn : (acknowledge src s).edgeEn = s.edgeEn := by rcases src with _ | _ | _ <;> rfl
@[simp] theorem acknowledge_edgePend : (acknowledge src s).edgePend = if src = .edge then false else s.edgePend := by rcases src with _ | _ | _ <;> rfl
@[simp] theorem acknowledge_cplRx : (acknowledge src s).cplRx = if src = .cpl .rx then false else s.cplRx := by rcases src with _ | _ | _ <;> rfl
@[simp] theorem acknowledge_cplTxRx : (acknowledge src s).cplTxRx = if src = .cpl .txrx then false else s.cplTxRx := by rcases src with _ | _ | _ <;> rfl
@[simp] theorem acknowledge_faults : (acknowledge src s).faults = s.faults := by rcases src with _ | _ | _ <;> rfl
@[simp] theorem acknowledge_busLog : (acknowledge src s).busLog = s.busLog := by rcases src with _ | _ | _ <;> rfl
@[simp] theorem acknowledge_response : (acknowledge src s).response = s.response := by rcases src with _ | _ | _ <;> rfl
@[simp] theorem acknowledge_hostProg : (acknowledge src s).hostProg = s.hostProg := by rcases src with _ | _ | _ <;> rfl
@[simp] theorem acknowledge_hostIn : (acknowledge src s).hostIn = s.hostIn := by rcases src with _ | _ | _ <;> rfl
@[simp] theorem acknowledge_lineOut : (acknowledge src s).lineOut = s.lineOut := by rcases src with _ | _ | _ <;> rfl
@[simp] theorem acknowledge_port : (acknowledge src s).port = s.port := by rcases src with _ | _ | _ <;> rfl
@[simp] theorem acknowledge_turns : (acknowledge src s).turns = s.turns := by rcases src with _ | _ | _ <;> rfl
@[simp] theorem acknowledge_quota : (acknowledge src s).quota = s.quota := by rcases src with _ | _ | _ <;> rfl
@[simp] theorem acknowledge_slaveIn : (acknowledge src s).slaveIn = s.slaveIn := by rcases src with _ | _ | _ <;> rfl
@[simp] theorem acknowledge_outcomeIn : (acknowledge src s).outcomeIn = s.outcomeIn := by rcases src with _ | _ | _ <;> rfl
@[simp] theorem acknowledge_startIn : (acknowledge src s).startIn = s.startIn := by rcases src with _ | _ | _ <;> rfl
@[simp] theorem acknowledge_draws : (acknowledge src s).draws = s.draws := by rcases src with _ | _ | _ <;> rfl

end

/-! ### Drawing a byte -/

section
variable (s : State)

@[simp] theorem drawByte_params : ((drawByte s).2).params = s.params := rfl
@[simp] theorem drawByte_fg : ((drawByte s).2).fg = s.fg := rfl
@[simp] theorem drawByte_irqPhase : ((drawByte s).2).irqPhase = s.irqPhase := rfl
@[simp] theorem drawByte_bound : ((drawByte s).2).bound = s.bound := rfl
@[simp] theorem drawByte_activeDriver : ((drawByte s).2).activeDriver = s.activeDriver := rfl
@[simp] theorem drawByte_csLevel : ((drawByte s).2).csLevel = s.csLevel := rfl
@[simp] theorem drawByte_lastCs : ((drawByte s).2).lastCs = s.lastCs := rfl
@[simp] theorem drawByte_lastCsV : ((drawByte s).2).lastCsV = s.lastCsV := rfl
@[simp] theorem drawByte_periph : ((drawByte s).2).periph = s.periph := rfl
@[simp] theorem drawByte_xferDoneHw : ((drawByte s).2).xferDoneHw = s.xferDoneHw := rfl
@[simp] theorem drawByte_bufSize : ((drawByte s).2).bufSize = s.bufSize := rfl
@[simp] theorem drawByte_tx : ((drawByte s).2).tx = s.tx := rfl
@[simp] theorem drawByte_rx : ((drawByte s).2).rx = s.rx := rfl
@[simp] theorem drawByte_statusRx : ((drawByte s).2).statusRx = s.statusRx := rfl
@[simp] theorem drawByte_statusTxRx : ((drawByte s).2).statusTxRx = s.statusTxRx := rfl
@[simp] theorem drawByte_capCounter : ((drawByte s).2).capCounter = s.capCounter := rfl
@[simp] theorem drawByte_capTarget : ((drawByte s).2).capTarget = s.capTarget := rfl
@[simp] theorem drawByte_capCs : ((drawByte s).2).capCs = s.capCs := rfl
@[simp] theorem drawByte_record : ((drawByte s).2).record = s.record := rfl
@[simp] theorem drawByte_edgeEn : ((drawByte s).2).edgeEn = s.edgeEn := rfl
@[simp] theorem drawByte_edgePend : ((drawByte s).2).edgePend = s.edgePend := rfl
@[simp] theorem drawByte_cplRx : ((drawByte s).2).cplRx = s.cplRx := rfl
@[simp] theorem drawByte_cplTxRx : ((drawByte s).2).cplTxRx = s.cplTxRx := rfl
@[simp] theorem drawByte_faults : ((drawByte s).2).faults = s.faults := rfl
@[simp] theorem drawByte_busLog : ((drawByte s).2).busLog = s.busLog := rfl
@[simp] theorem drawByte_response : ((drawByte s).2).response = s.response := rfl
@[simp] theorem drawByte_hostProg : ((drawByte s).2).hostProg = s.hostProg := rfl
@[simp] theorem drawByte_hostIn : ((drawByte s).2).hostIn = s.hostIn := rfl
@[simp] theorem drawByte_lineOut : ((drawByte s).2).lineOut = s.lineOut := rfl
@[simp] theorem drawByte_port : ((drawByte s).2).port = s.port := rfl
@[simp] theorem drawByte_turns : ((drawByte s).2).turns = s.turns := rfl
@[simp] theorem drawByte_quota : ((drawByte s).2).quota = s.quota := rfl
@[simp] theorem drawByte_slaveIn : ((drawByte s).2).slaveIn = s.slaveIn := rfl
@[simp] theorem drawByte_outcomeIn : ((drawByte s).2).outcomeIn = s.outcomeIn := rfl
@[simp] theorem drawByte_startIn : ((drawByte s).2).startIn = s.startIn := rfl
@[simp] theorem drawByte_draws : ((drawByte s).2).draws = s.draws + 1 := rfl

end

/-! ### Drawing bytes -/

section
variable (n : Nat) (s : State)

@[simp] theorem drawBytes_params : ((drawBytes n s).2).params = s.params := rfl
@[simp] theorem drawBytes_fg : ((drawBytes n s).2).fg = s.fg := rfl
@[simp] theorem drawBytes_irqPhase : ((drawBytes n s).2).irqPhase = s.irqPhase := rfl
@[simp] theorem drawBytes_bound : ((drawBytes n s).2).bound = s.bound := rfl
@[simp] theorem drawBytes_activeDriver : ((drawBytes n s).2).activeDriver = s.activeDriver := rfl
@[simp] theorem drawBytes_csLevel : ((drawBytes n s).2).csLevel = s.csLevel := rfl
@[simp] theorem drawBytes_lastCs : ((drawBytes n s).2).lastCs = s.lastCs := rfl
@[simp] theorem drawBytes_lastCsV : ((drawBytes n s).2).lastCsV = s.lastCsV := rfl
@[simp] theorem drawBytes_periph : ((drawBytes n s).2).periph = s.periph := rfl
@[simp] theorem drawBytes_xferDoneHw : ((drawBytes n s).2).xferDoneHw = s.xferDoneHw := rfl
@[simp] theorem drawBytes_bufSize : ((drawBytes n s).2).bufSize = s.bufSize := rfl
@[simp] theorem drawBytes_tx : ((drawBytes n s).2).tx = s.tx := rfl
@[simp] theorem drawBytes_rx : ((drawBytes n s).2).rx = s.rx := rfl
@[simp] theorem drawBytes_statusRx : ((drawBytes n s).2).statusRx = s.statusRx := rfl
@[simp] theorem drawBytes_statusTxRx : ((drawBytes n s).2).statusTxRx = s.statusTxRx := rfl
@[simp] theorem drawBytes_capCounter : ((drawBytes n s).2).capCounter = s.capCounter := rfl
@[simp] theorem drawBytes_capTarget : ((drawBytes n s).2).capTarget = s.capTarget := rfl
@[simp] theorem drawBytes_capCs : ((drawBytes n s).2).capCs = s.capCs := rfl
@[simp] theorem drawBytes_record : ((drawBytes n s).2).record = s.record := rfl
@[simp] theorem drawBytes_edgeEn : ((drawBytes n s).2).edgeEn = s.edgeEn := rfl
@[simp] theorem drawBytes_edgePend : ((drawBytes n s).2).edgePend = s.edgePend := rfl
@[simp] theorem drawBytes_cplRx : ((drawBytes n s).2).cplRx = s.cplRx := rfl
@[simp] theorem drawBytes_cplTxRx : ((drawBytes n s).2).cplTxRx = s.cplTxRx := rfl
@[simp] theorem drawBytes_faults : ((drawBytes n s).2).faults = s.faults := rfl
@[simp] theorem drawBytes_busLog : ((drawBytes n s).2).busLog = s.busLog := rfl
@[simp] theorem drawBytes_response : ((drawBytes n s).2).response = s.response := rfl
@[simp] theorem drawBytes_hostProg : ((drawBytes n s).2).hostProg = s.hostProg := rfl
@[simp] theorem drawBytes_hostIn : ((drawBytes n s).2).hostIn = s.hostIn := rfl
@[simp] theorem drawBytes_lineOut : ((drawBytes n s).2).lineOut = s.lineOut := rfl
@[simp] theorem drawBytes_port : ((drawBytes n s).2).port = s.port := rfl
@[simp] theorem drawBytes_turns : ((drawBytes n s).2).turns = s.turns := rfl
@[simp] theorem drawBytes_quota : ((drawBytes n s).2).quota = s.quota := rfl
@[simp] theorem drawBytes_slaveIn : ((drawBytes n s).2).slaveIn = s.slaveIn := rfl
@[simp] theorem drawBytes_outcomeIn : ((drawBytes n s).2).outcomeIn = s.outcomeIn := rfl
@[simp] theorem drawBytes_startIn : ((drawBytes n s).2).startIn = s.startIn := rfl
@[simp] theorem drawBytes_draws : ((drawBytes n s).2).draws = s.draws + n := rfl

end

/-! ### Drawing a word -/

section
variable (s : State)

@[simp] theorem drawWord_params : ((drawWord s).2).params = s.params := rfl
@[simp] theorem drawWord_fg : ((drawWord s).2).fg = s.fg := rfl
@[simp] theorem drawWord_irqPhase : ((drawWord s).2).irqPhase = s.irqPhase := rfl
@[simp] theorem drawWord_bound : ((drawWord s).2).bound = s.bound := rfl
@[simp] theorem drawWord_activeDriver : ((drawWord s).2).activeDriver = s.activeDriver := rfl
@[simp] theorem drawWord_csLevel : ((drawWord s).2).csLevel = s.csLevel := rfl
@[simp] theorem drawWord_lastCs : ((drawWord s).2).lastCs = s.lastCs := rfl
@[simp] theorem drawWord_lastCsV : ((drawWord s).2).lastCsV = s.lastCsV := rfl
@[simp] theorem drawWord_periph : ((drawWord s).2).periph = s.periph := rfl
@[simp] theorem drawWord_xferDoneHw : ((drawWord s).2).xferDoneHw = s.xferDoneHw := rfl
@[simp] theorem drawWord_bufSize : ((drawWord s).2).bufSize = s.bufSize := rfl
@[simp] theorem drawWord_tx : ((drawWord s).2).tx = s.tx := rfl
@[simp] theorem drawWord_rx : ((drawWord s).2).rx = s.rx := rfl
@[simp] theorem drawWord_statusRx : ((drawWord s).2).statusRx = s.statusRx := rfl
@[simp] theorem drawWord_statusTxRx : ((drawWord s).2).statusTxRx = s.statusTxRx := rfl
@[simp] theorem drawWord_capCounter : ((drawWord s).2).capCounter = s.capCounter := rfl
@[simp] theorem drawWord_capTarget : ((drawWord s).2).capTarget = s.capTarget := rfl
@[simp] theorem drawWord_capCs : ((drawWord s).2).capCs = s.capCs := rfl
@[simp] theorem drawWord_record : ((drawWord s).2).record = s.record := rfl
@[simp] theorem drawWord_edgeEn : ((drawWord s).2).edgeEn = s.edgeEn := rfl
@[simp] theorem drawWord_edgePend : ((drawWord s).2).edgePend = s.edgePend := rfl
@[simp] theorem drawWord_cplRx : ((drawWord s).2).cplRx = s.cplRx := rfl
@[simp] theorem drawWord_cplTxRx : ((drawWord s).2).cplTxRx = s.cplTxRx := rfl
@[simp] theorem drawWord_faults : ((drawWord s).2).faults = s.faults := rfl
@[simp] theorem drawWord_busLog : ((drawWord s).2).busLog = s.busLog := rfl
@[simp] theorem drawWord_response : ((drawWord s).2).response = s.response := rfl
@[simp] theorem drawWord_hostProg : ((drawWord s).2).hostProg = s.hostProg := rfl
@[simp] theorem drawWord_hostIn : ((drawWord s).2).hostIn = s.hostIn := rfl
@[simp] theorem drawWord_lineOut : ((drawWord s).2).lineOut = s.lineOut := rfl
@[simp] theorem drawWord_port : ((drawWord s).2).port = s.port := rfl
@[simp] theorem drawWord_turns : ((drawWord s).2).turns = s.turns := rfl
@[simp] theorem drawWord_quota : ((drawWord s).2).quota = s.quota := rfl
@[simp] theorem drawWord_slaveIn : ((drawWord s).2).slaveIn = s.slaveIn := rfl
@[simp] theorem drawWord_outcomeIn : ((drawWord s).2).outcomeIn = s.outcomeIn := rfl
@[simp] theorem drawWord_startIn : ((drawWord s).2).startIn = s.startIn := rfl
@[simp] theorem drawWord_draws : ((drawWord s).2).draws = s.draws + 1 := rfl

end

/-! ### Reading an element that may be unknown -/

section
variable (v : Option Byte) (s : State)

@[simp] theorem known_params : ((known v s).2).params = s.params := by cases v <;> rfl
@[simp] theorem known_fg : ((known v s).2).fg = s.fg := by cases v <;> rfl
@[simp] theorem known_irqPhase : ((known v s).2).irqPhase = s.irqPhase := by cases v <;> rfl
@[simp] theorem known_bound : ((known v s).2).bound = s.bound := by cases v <;> rfl
@[simp] theorem known_activeDriver : ((known v s).2).activeDriver = s.activeDriver := by cases v <;> rfl
@[simp] theorem known_csLevel : ((known v s).2).csLevel = s.csLevel := by cases v <;> rfl
@[simp] theorem known_lastCs : ((known v s).2).lastCs = s.lastCs := by cases v <;> rfl
@[simp] theorem known_lastCsV : ((known v s).2).lastCsV = s.lastCsV := by cases v <;> rfl
@[simp] theorem known_periph : ((known v s).2).periph = s.periph := by cases v <;> rfl
@[simp] theorem known_xferDoneHw : ((known v s).2).xferDoneHw = s.xferDoneHw := by cases v <;> rfl
@[simp] theorem known_bufSize : ((known v s).2).bufSize = s.bufSize := by cases v <;> rfl
@[simp] theorem known_tx : ((known v s).2).tx = s.tx := by cases v <;> rfl
@[simp] theorem known_rx : ((known v s).2).rx = s.rx := by cases v <;> rfl
@[simp] theorem known_statusRx : ((known v s).2).statusRx = s.statusRx := by cases v <;> rfl
@[simp] theorem known_statusTxRx : ((known v s).2).statusTxRx = s.statusTxRx := by cases v <;> rfl
@[simp] theorem known_capCounter : ((known v s).2).capCounter = s.capCounter := by cases v <;> rfl
@[simp] theorem known_capTarget : ((known v s).2).capTarget = s.capTarget := by cases v <;> rfl
@[simp] theorem known_capCs : ((known v s).2).capCs = s.capCs := by cases v <;> rfl
@[simp] theorem known_record : ((known v s).2).record = s.record := by cases v <;> rfl
@[simp] theorem known_edgeEn : ((known v s).2).edgeEn = s.edgeEn := by cases v <;> rfl
@[simp] theorem known_edgePend : ((known v s).2).edgePend = s.edgePend := by cases v <;> rfl
@[simp] theorem known_cplRx : ((known v s).2).cplRx = s.cplRx := by cases v <;> rfl
@[simp] theorem known_cplTxRx : ((known v s).2).cplTxRx = s.cplTxRx := by cases v <;> rfl
@[simp] theorem known_faults : ((known v s).2).faults = s.faults := by cases v <;> rfl
@[simp] theorem known_busLog : ((known v s).2).busLog = s.busLog := by cases v <;> rfl
@[simp] theorem known_response : ((known v s).2).response = s.response := by cases v <;> rfl
@[simp] theorem known_hostProg : ((known v s).2).hostProg = s.hostProg := by cases v <;> rfl
@[simp] theorem known_hostIn : ((known v s).2).hostIn = s.hostIn := by cases v <;> rfl
@[simp] theorem known_lineOut : ((known v s).2).lineOut = s.lineOut := by cases v <;> rfl
@[simp] theorem known_port : ((known v s).2).port = s.port := by cases v <;> rfl
@[simp] theorem known_turns : ((known v s).2).turns = s.turns := by cases v <;> rfl
@[simp] theorem known_quota : ((known v s).2).quota = s.quota := by cases v <;> rfl
@[simp] theorem known_slaveIn : ((known v s).2).slaveIn = s.slaveIn := by cases v <;> rfl
@[simp] theorem known_outcomeIn : ((known v s).2).outcomeIn = s.outcomeIn := by cases v <;> rfl
@[simp] theorem known_startIn : ((known v s).2).startIn = s.startIn := by cases v <;> rfl

end

/-! ### Reading cells -/

section
variable (m : Memory) (n : Nat) (s : State)

@[simp] theorem readBytes_params : ((readBytes m n s).2).params = s.params := rfl
@[simp] theorem readBytes_fg : ((readBytes m n s).2).fg = s.fg := rfl
@[simp] theorem readBytes_irqPhase : ((readBytes m n s).2).irqPhase = s.irqPhase := rfl
@[simp] theorem readBytes_bound : ((readBytes m n s).2).bound = s.bound := rfl
@[simp] theorem readBytes_activeDriver : ((readBytes m n s).2).activeDriver = s.activeDriver := rfl
@[simp] theorem readBytes_csLevel : ((readBytes m n s).2).csLevel = s.csLevel := rfl
@[simp] theorem readBytes_lastCs : ((readBytes m n s).2).lastCs = s.lastCs := rfl
@[simp] theorem readBytes_lastCsV : ((readBytes m n s).2).lastCsV = s.lastCsV := rfl
@[simp] theorem readBytes_periph : ((readBytes m n s).2).periph = s.periph := rfl
@[simp] theorem readBytes_xferDoneHw : ((readBytes m n s).2).xferDoneHw = s.xferDoneHw := rfl
@[simp] theorem readBytes_bufSize : ((readBytes m n s).2).bufSize = s.bufSize := rfl
@[simp] theorem readBytes_tx : ((readBytes m n s).2).tx = s.tx := rfl
@[simp] theorem readBytes_rx : ((readBytes m n s).2).rx = s.rx := rfl
@[simp] theorem readBytes_statusRx : ((readBytes m n s).2).statusRx = s.statusRx := rfl
@[simp] theorem readBytes_statusTxRx : ((readBytes m n s).2).statusTxRx = s.statusTxRx := rfl
@[simp] theorem readBytes_capCounter : ((readBytes m n s).2).capCounter = s.capCounter := rfl
@[simp] theorem readBytes_capTarget : ((readBytes m n s).2).capTarget = s.capTarget := rfl
@[simp] theorem readBytes_capCs : ((readBytes m n s).2).capCs = s.capCs := rfl
@[simp] theorem readBytes_record : ((readBytes m n s).2).record = s.record := rfl
@[simp] theorem readBytes_edgeEn : ((readBytes m n s).2).edgeEn = s.edgeEn := rfl
@[simp] theorem readBytes_edgePend : ((readBytes m n s).2).edgePend = s.edgePend := rfl
@[simp] theorem readBytes_cplRx : ((readBytes m n s).2).cplRx = s.cplRx := rfl
@[simp] theorem readBytes_cplTxRx : ((readBytes m n s).2).cplTxRx = s.cplTxRx := rfl
@[simp] theorem readBytes_faults : ((readBytes m n s).2).faults = s.faults := rfl
@[simp] theorem readBytes_busLog : ((readBytes m n s).2).busLog = s.busLog := rfl
@[simp] theorem readBytes_response : ((readBytes m n s).2).response = s.response := rfl
@[simp] theorem readBytes_hostProg : ((readBytes m n s).2).hostProg = s.hostProg := rfl
@[simp] theorem readBytes_hostIn : ((readBytes m n s).2).hostIn = s.hostIn := rfl
@[simp] theorem readBytes_lineOut : ((readBytes m n s).2).lineOut = s.lineOut := rfl
@[simp] theorem readBytes_port : ((readBytes m n s).2).port = s.port := rfl
@[simp] theorem readBytes_turns : ((readBytes m n s).2).turns = s.turns := rfl
@[simp] theorem readBytes_quota : ((readBytes m n s).2).quota = s.quota := rfl
@[simp] theorem readBytes_slaveIn : ((readBytes m n s).2).slaveIn = s.slaveIn := rfl
@[simp] theorem readBytes_outcomeIn : ((readBytes m n s).2).outcomeIn = s.outcomeIn := rfl
@[simp] theorem readBytes_startIn : ((readBytes m n s).2).startIn = s.startIn := rfl
@[simp] theorem readBytes_draws : ((readBytes m n s).2).draws = s.draws + n := rfl

end

/-! ### The bytes SLAVE answers -/

section
variable (n : Nat) (s : State)

@[simp] theorem slaveBytes_params : ((slaveBytes n s).2).params = s.params := rfl
@[simp] theorem slaveBytes_fg : ((slaveBytes n s).2).fg = s.fg := rfl
@[simp] theorem slaveBytes_irqPhase : ((slaveBytes n s).2).irqPhase = s.irqPhase := rfl
@[simp] theorem slaveBytes_bound : ((slaveBytes n s).2).bound = s.bound := rfl
@[simp] theorem slaveBytes_activeDriver : ((slaveBytes n s).2).activeDriver = s.activeDriver := rfl
@[simp] theorem slaveBytes_csLevel : ((slaveBytes n s).2).csLevel = s.csLevel := rfl
@[simp] theorem slaveBytes_lastCs : ((slaveBytes n s).2).lastCs = s.lastCs := rfl
@[simp] theorem slaveBytes_lastCsV : ((slaveBytes n s).2).lastCsV = s.lastCsV := rfl
@[simp] theorem slaveBytes_periph : ((slaveBytes n s).2).periph = s.periph := rfl
@[simp] theorem slaveBytes_xferDoneHw : ((slaveBytes n s).2).xferDoneHw = s.xferDoneHw := rfl
@[simp] theorem slaveBytes_bufSize : ((slaveBytes n s).2).bufSize = s.bufSize := rfl
@[simp] theorem slaveBytes_tx : ((slaveBytes n s).2).tx = s.tx := rfl
@[simp] theorem slaveBytes_rx : ((slaveBytes n s).2).rx = s.rx := rfl
@[simp] theorem slaveBytes_statusRx : ((slaveBytes n s).2).statusRx = s.statusRx := rfl
@[simp] theorem slaveBytes_statusTxRx : ((slaveBytes n s).2).statusTxRx = s.statusTxRx := rfl
@[simp] theorem slaveBytes_capCounter : ((slaveBytes n s).2).capCounter = s.capCounter := rfl
@[simp] theorem slaveBytes_capTarget : ((slaveBytes n s).2).capTarget = s.capTarget := rfl
@[simp] theorem slaveBytes_capCs : ((slaveBytes n s).2).capCs = s.capCs := rfl
@[simp] theorem slaveBytes_record : ((slaveBytes n s).2).record = s.record := rfl
@[simp] theorem slaveBytes_edgeEn : ((slaveBytes n s).2).edgeEn = s.edgeEn := rfl
@[simp] theorem slaveBytes_edgePend : ((slaveBytes n s).2).edgePend = s.edgePend := rfl
@[simp] theorem slaveBytes_cplRx : ((slaveBytes n s).2).cplRx = s.cplRx := rfl
@[simp] theorem slaveBytes_cplTxRx : ((slaveBytes n s).2).cplTxRx = s.cplTxRx := rfl
@[simp] theorem slaveBytes_faults : ((slaveBytes n s).2).faults = s.faults := rfl
@[simp] theorem slaveBytes_busLog : ((slaveBytes n s).2).busLog = s.busLog := rfl
@[simp] theorem slaveBytes_response : ((slaveBytes n s).2).response = s.response := rfl
@[simp] theorem slaveBytes_hostProg : ((slaveBytes n s).2).hostProg = s.hostProg := rfl
@[simp] theorem slaveBytes_hostIn : ((slaveBytes n s).2).hostIn = s.hostIn := rfl
@[simp] theorem slaveBytes_lineOut : ((slaveBytes n s).2).lineOut = s.lineOut := rfl
@[simp] theorem slaveBytes_port : ((slaveBytes n s).2).port = s.port := rfl
@[simp] theorem slaveBytes_turns : ((slaveBytes n s).2).turns = s.turns := rfl
@[simp] theorem slaveBytes_quota : ((slaveBytes n s).2).quota = s.quota := rfl
@[simp] theorem slaveBytes_slaveIn : ((slaveBytes n s).2).slaveIn = s.slaveIn.drop n := rfl
@[simp] theorem slaveBytes_outcomeIn : ((slaveBytes n s).2).outcomeIn = s.outcomeIn := rfl
@[simp] theorem slaveBytes_startIn : ((slaveBytes n s).2).startIn = s.startIn := rfl
@[simp] theorem slaveBytes_draws : ((slaveBytes n s).2).draws = s.draws + n := rfl

end

/-! ### The outcome of a data phase -/

section
variable (s : State)

@[simp] theorem drawOutcome_params : ((drawOutcome s).2).params = s.params := rfl
@[simp] theorem drawOutcome_fg : ((drawOutcome s).2).fg = s.fg := rfl
@[simp] theorem drawOutcome_irqPhase : ((drawOutcome s).2).irqPhase = s.irqPhase := rfl
@[simp] theorem drawOutcome_bound : ((drawOutcome s).2).bound = s.bound := rfl
@[simp] theorem drawOutcome_activeDriver : ((drawOutcome s).2).activeDriver = s.activeDriver := rfl
@[simp] theorem drawOutcome_csLevel : ((drawOutcome s).2).csLevel = s.csLevel := rfl
@[simp] theorem drawOutcome_lastCs : ((drawOutcome s).2).lastCs = s.lastCs := rfl
@[simp] theorem drawOutcome_lastCsV : ((drawOutcome s).2).lastCsV = s.lastCsV := rfl
@[simp] theorem drawOutcome_periph : ((drawOutcome s).2).periph = s.periph := rfl
@[simp] theorem drawOutcome_xferDoneHw : ((drawOutcome s).2).xferDoneHw = s.xferDoneHw := rfl
@[simp] theorem drawOutcome_bufSize : ((drawOutcome s).2).bufSize = s.bufSize := rfl
@[simp] theorem drawOutcome_tx : ((drawOutcome s).2).tx = s.tx := rfl
@[simp] theorem drawOutcome_rx : ((drawOutcome s).2).rx = s.rx := rfl
@[simp] theorem drawOutcome_statusRx : ((drawOutcome s).2).statusRx = s.statusRx := rfl
@[simp] theorem drawOutcome_statusTxRx : ((drawOutcome s).2).statusTxRx = s.statusTxRx := rfl
@[simp] theorem drawOutcome_capCounter : ((drawOutcome s).2).capCounter = s.capCounter := rfl
@[simp] theorem drawOutcome_capTarget : ((drawOutcome s).2).capTarget = s.capTarget := rfl
@[simp] theorem drawOutcome_capCs : ((drawOutcome s).2).capCs = s.capCs := rfl
@[simp] theorem drawOutcome_record : ((drawOutcome s).2).record = s.record := rfl
@[simp] theorem drawOutcome_edgeEn : ((drawOutcome s).2).edgeEn = s.edgeEn := rfl
@[simp] theorem drawOutcome_edgePend : ((drawOutcome s).2).edgePend = s.edgePend := rfl
@[simp] theorem drawOutcome_cplRx : ((drawOutcome s).2).cplRx = s.cplRx := rfl
@[simp] theorem drawOutcome_cplTxRx : ((drawOutcome s).2).cplTxRx = s.cplTxRx := rfl
@[simp] theorem drawOutcome_faults : ((drawOutcome s).2).faults = s.faults := rfl
@[simp] theorem drawOutcome_busLog : ((drawOutcome s).2).busLog = s.busLog := rfl
@[simp] theorem drawOutcome_response : ((drawOutcome s).2).response = s.response := rfl
@[simp] theorem drawOutcome_hostProg : ((drawOutcome s).2).hostProg = s.hostProg := rfl
@[simp] theorem drawOutcome_hostIn : ((drawOutcome s).2).hostIn = s.hostIn := rfl
@[simp] theorem drawOutcome_lineOut : ((drawOutcome s).2).lineOut = s.lineOut := rfl
@[simp] theorem drawOutcome_port : ((drawOutcome s).2).port = s.port := rfl
@[simp] theorem drawOutcome_turns : ((drawOutcome s).2).turns = s.turns := rfl
@[simp] theorem drawOutcome_quota : ((drawOutcome s).2).quota = s.quota := rfl
@[simp] theorem drawOutcome_slaveIn : ((drawOutcome s).2).slaveIn = s.slaveIn := rfl
@[simp] theorem drawOutcome_outcomeIn : ((drawOutcome s).2).outcomeIn = s.outcomeIn.tail := rfl
@[simp] theorem drawOutcome_startIn : ((drawOutcome s).2).startIn = s.startIn := rfl
@[simp] theorem drawOutcome_draws : ((drawOutcome s).2).draws = s.draws + 1 := rfl

end

/-! ### The answer of the non-blocking primitive -/

section
variable (s : State)

@[simp] theorem drawStart_params : ((drawStart s).2).params = s.params := rfl
@[simp] theorem drawStart_fg : ((drawStart s).2).fg = s.fg := rfl
@[simp] theorem drawStart_irqPhase : ((drawStart s).2).irqPhase = s.irqPhase := rfl
@[simp] theorem drawStart_bound : ((drawStart s).2).bound = s.bound := rfl
@[simp] theorem drawStart_activeDriver : ((drawStart s).2).activeDriver = s.activeDriver := rfl
@[simp] theorem drawStart_csLevel : ((drawStart s).2).csLevel = s.csLevel := rfl
@[simp] theorem drawStart_lastCs : ((drawStart s).2).lastCs = s.lastCs := rfl
@[simp] theorem drawStart_lastCsV : ((drawStart s).2).lastCsV = s.lastCsV := rfl
@[simp] theorem drawStart_periph : ((drawStart s).2).periph = s.periph := rfl
@[simp] theorem drawStart_xferDoneHw : ((drawStart s).2).xferDoneHw = s.xferDoneHw := rfl
@[simp] theorem drawStart_bufSize : ((drawStart s).2).bufSize = s.bufSize := rfl
@[simp] theorem drawStart_tx : ((drawStart s).2).tx = s.tx := rfl
@[simp] theorem drawStart_rx : ((drawStart s).2).rx = s.rx := rfl
@[simp] theorem drawStart_statusRx : ((drawStart s).2).statusRx = s.statusRx := rfl
@[simp] theorem drawStart_statusTxRx : ((drawStart s).2).statusTxRx = s.statusTxRx := rfl
@[simp] theorem drawStart_capCounter : ((drawStart s).2).capCounter = s.capCounter := rfl
@[simp] theorem drawStart_capTarget : ((drawStart s).2).capTarget = s.capTarget := rfl
@[simp] theorem drawStart_capCs : ((drawStart s).2).capCs = s.capCs := rfl
@[simp] theorem drawStart_record : ((drawStart s).2).record = s.record := rfl
@[simp] theorem drawStart_edgeEn : ((drawStart s).2).edgeEn = s.edgeEn := rfl
@[simp] theorem drawStart_edgePend : ((drawStart s).2).edgePend = s.edgePend := rfl
@[simp] theorem drawStart_cplRx : ((drawStart s).2).cplRx = s.cplRx := rfl
@[simp] theorem drawStart_cplTxRx : ((drawStart s).2).cplTxRx = s.cplTxRx := rfl
@[simp] theorem drawStart_faults : ((drawStart s).2).faults = s.faults := rfl
@[simp] theorem drawStart_busLog : ((drawStart s).2).busLog = s.busLog := rfl
@[simp] theorem drawStart_response : ((drawStart s).2).response = s.response := rfl
@[simp] theorem drawStart_hostProg : ((drawStart s).2).hostProg = s.hostProg := rfl
@[simp] theorem drawStart_hostIn : ((drawStart s).2).hostIn = s.hostIn := rfl
@[simp] theorem drawStart_lineOut : ((drawStart s).2).lineOut = s.lineOut := rfl
@[simp] theorem drawStart_port : ((drawStart s).2).port = s.port := rfl
@[simp] theorem drawStart_turns : ((drawStart s).2).turns = s.turns := rfl
@[simp] theorem drawStart_quota : ((drawStart s).2).quota = s.quota := rfl
@[simp] theorem drawStart_slaveIn : ((drawStart s).2).slaveIn = s.slaveIn := rfl
@[simp] theorem drawStart_outcomeIn : ((drawStart s).2).outcomeIn = s.outcomeIn := rfl
@[simp] theorem drawStart_startIn : ((drawStart s).2).startIn = s.startIn.tail := rfl
@[simp] theorem drawStart_draws : ((drawStart s).2).draws = s.draws + 1 := rfl

end

/-! ### Driving a line low -/

section
variable (i : Nat) (s : State)

@[simp] theorem assertDrive_params : (assertDrive i s).params = s.params := by simp only [assertDrive]; split <;> rfl
@[simp] theorem assertDrive_fg : (assertDrive i s).fg = s.fg := by simp only [assertDrive]; split <;> rfl
@[simp] theorem assertDrive_irqPhase : (assertDrive i s).irqPhase = s.irqPhase := rfl
@[simp] theorem assertDrive_bound : (assertDrive i s).bound = s.bound := by simp only [assertDrive]; split <;> rfl
@[simp] theorem assertDrive_activeDriver : (assertDrive i s).activeDriver = s.activeDriver := by simp only [assertDrive]; split <;> rfl
@[simp] theorem assertDrive_csLevel : (assertDrive i s).csLevel = s.csLevel.set i false := by simp only [assertDrive]; split <;> rfl
@[simp] theorem assertDrive_lastCs : (assertDrive i s).lastCs = s.lastCs := by simp only [assertDrive]; split <;> rfl
@[simp] theorem assertDrive_lastCsV : (assertDrive i s).lastCsV = s.lastCsV := by simp only [assertDrive]; split <;> rfl
@[simp] theorem assertDrive_periph : (assertDrive i s).periph = s.periph := by simp only [assertDrive]; split <;> rfl
@[simp] theorem assertDrive_xferDoneHw : (assertDrive i s).xferDoneHw = s.xferDoneHw := by simp only [assertDrive]; split <;> rfl
@[simp] theorem assertDrive_bufSize : (assertDrive i s).bufSize = s.bufSize := by simp only [assertDrive]; split <;> rfl
@[simp] theorem assertDrive_tx : (assertDrive i s).tx = s.tx := by simp only [assertDrive]; split <;> rfl
@[simp] theorem assertDrive_rx : (assertDrive i s).rx = s.rx := by simp only [assertDrive]; split <;> rfl
@[simp] theorem assertDrive_statusRx : (assertDrive i s).statusRx = s.statusRx := by simp only [assertDrive]; split <;> rfl
@[simp] theorem assertDrive_statusTxRx : (assertDrive i s).statusTxRx = s.statusTxRx := by simp only [assertDrive]; split <;> rfl
@[simp] theorem assertDrive_capCounter : (assertDrive i s).capCounter = s.capCounter := by simp only [assertDrive]; split <;> rfl
@[simp] theorem assertDrive_capTarget : (assertDrive i s).capTarget = s.capTarget := by simp only [assertDrive]; split <;> rfl
@[simp] theorem assertDrive_capCs : (assertDrive i s).capCs = s.capCs := by simp only [assertDrive]; split <;> rfl
@[simp] theorem assertDrive_record : (assertDrive i s).record = s.record := by simp only [assertDrive]; split <;> rfl
@[simp] theorem assertDrive_edgeEn : (assertDrive i s).edgeEn = s.edgeEn := by simp only [assertDrive]; split <;> rfl
@[simp] theorem assertDrive_edgePend : (assertDrive i s).edgePend = s.edgePend := by simp only [assertDrive]; split <;> rfl
@[simp] theorem assertDrive_cplRx : (assertDrive i s).cplRx = s.cplRx := by simp only [assertDrive]; split <;> rfl
@[simp] theorem assertDrive_cplTxRx : (assertDrive i s).cplTxRx = s.cplTxRx := by simp only [assertDrive]; split <;> rfl
@[simp] theorem assertDrive_busLog : (assertDrive i s).busLog = s.busLog ++ [.csLow i] := by simp only [assertDrive]; split <;> rfl
@[simp] theorem assertDrive_response : (assertDrive i s).response = s.response := by simp only [assertDrive]; split <;> rfl
@[simp] theorem assertDrive_hostProg : (assertDrive i s).hostProg = s.hostProg := by simp only [assertDrive]; split <;> rfl
@[simp] theorem assertDrive_hostIn : (assertDrive i s).hostIn = s.hostIn := by simp only [assertDrive]; split <;> rfl
@[simp] theorem assertDrive_lineOut : (assertDrive i s).lineOut = s.lineOut := by simp only [assertDrive]; split <;> rfl
@[simp] theorem assertDrive_port : (assertDrive i s).port = s.port := by simp only [assertDrive]; split <;> rfl
@[simp] theorem assertDrive_turns : (assertDrive i s).turns = s.turns := by simp only [assertDrive]; split <;> rfl
@[simp] theorem assertDrive_quota : (assertDrive i s).quota = s.quota := by simp only [assertDrive]; split <;> rfl
@[simp] theorem assertDrive_slaveIn : (assertDrive i s).slaveIn = s.slaveIn := by simp only [assertDrive]; split <;> rfl
@[simp] theorem assertDrive_outcomeIn : (assertDrive i s).outcomeIn = s.outcomeIn := by simp only [assertDrive]; split <;> rfl
@[simp] theorem assertDrive_startIn : (assertDrive i s).startIn = s.startIn := by simp only [assertDrive]; split <;> rfl
@[simp] theorem assertDrive_draws : (assertDrive i s).draws = s.draws := by simp only [assertDrive]; split <;> rfl

end

/-! ### Writing the buffer's size -/

section
variable (n : U32) (bs : List Byte) (s : State)

@[simp] theorem sizeWrite_params : (sizeWrite n bs s).params = s.params := by simp only [sizeWrite]; split <;> rfl
@[simp] theorem sizeWrite_fg : (sizeWrite n bs s).fg = s.fg := by simp only [sizeWrite]; split <;> rfl
@[simp] theorem sizeWrite_irqPhase : (sizeWrite n bs s).irqPhase = s.irqPhase := rfl
@[simp] theorem sizeWrite_bound : (sizeWrite n bs s).bound = s.bound := by simp only [sizeWrite]; split <;> rfl
@[simp] theorem sizeWrite_activeDriver : (sizeWrite n bs s).activeDriver = s.activeDriver := by simp only [sizeWrite]; split <;> rfl
@[simp] theorem sizeWrite_csLevel : (sizeWrite n bs s).csLevel = s.csLevel := by simp only [sizeWrite]; split <;> rfl
@[simp] theorem sizeWrite_lastCs : (sizeWrite n bs s).lastCs = s.lastCs := by simp only [sizeWrite]; split <;> rfl
@[simp] theorem sizeWrite_lastCsV : (sizeWrite n bs s).lastCsV = s.lastCsV := by simp only [sizeWrite]; split <;> rfl
@[simp] theorem sizeWrite_periph : (sizeWrite n bs s).periph = s.periph := by simp only [sizeWrite]; split <;> rfl
@[simp] theorem sizeWrite_xferDoneHw : (sizeWrite n bs s).xferDoneHw = s.xferDoneHw := by simp only [sizeWrite]; split <;> rfl
@[simp] theorem sizeWrite_bufSize : (sizeWrite n bs s).bufSize = n := rfl
@[simp] theorem sizeWrite_tx : (sizeWrite n bs s).tx = Cells.writeFrom s.tx 0 bs := by simp only [sizeWrite]; split <;> rfl
@[simp] theorem sizeWrite_rx : (sizeWrite n bs s).rx = Cells.eraseBelow s.rx n.toNat := by simp only [sizeWrite]; split <;> rfl
@[simp] theorem sizeWrite_statusRx : (sizeWrite n bs s).statusRx = s.statusRx := by simp only [sizeWrite]; split <;> rfl
@[simp] theorem sizeWrite_statusTxRx : (sizeWrite n bs s).statusTxRx = s.statusTxRx := by simp only [sizeWrite]; split <;> rfl
@[simp] theorem sizeWrite_capCounter : (sizeWrite n bs s).capCounter = s.capCounter := by simp only [sizeWrite]; split <;> rfl
@[simp] theorem sizeWrite_capTarget : (sizeWrite n bs s).capTarget = s.capTarget := by simp only [sizeWrite]; split <;> rfl
@[simp] theorem sizeWrite_capCs : (sizeWrite n bs s).capCs = s.capCs := by simp only [sizeWrite]; split <;> rfl
@[simp] theorem sizeWrite_record : (sizeWrite n bs s).record = s.record := by simp only [sizeWrite]; split <;> rfl
@[simp] theorem sizeWrite_edgeEn : (sizeWrite n bs s).edgeEn = s.edgeEn := by simp only [sizeWrite]; split <;> rfl
@[simp] theorem sizeWrite_edgePend : (sizeWrite n bs s).edgePend = s.edgePend := by simp only [sizeWrite]; split <;> rfl
@[simp] theorem sizeWrite_cplRx : (sizeWrite n bs s).cplRx = s.cplRx := by simp only [sizeWrite]; split <;> rfl
@[simp] theorem sizeWrite_cplTxRx : (sizeWrite n bs s).cplTxRx = s.cplTxRx := by simp only [sizeWrite]; split <;> rfl
@[simp] theorem sizeWrite_faults : (sizeWrite n bs s).faults = if s.periph ≠ .idle then s.faults ||| fBufferWriteInFlight else s.faults := by simp only [sizeWrite]; split <;> rfl
@[simp] theorem sizeWrite_busLog : (sizeWrite n bs s).busLog = s.busLog := by simp only [sizeWrite]; split <;> rfl
@[simp] theorem sizeWrite_response : (sizeWrite n bs s).response = s.response := by simp only [sizeWrite]; split <;> rfl
@[simp] theorem sizeWrite_hostProg : (sizeWrite n bs s).hostProg = s.hostProg := by simp only [sizeWrite]; split <;> rfl
@[simp] theorem sizeWrite_hostIn : (sizeWrite n bs s).hostIn = s.hostIn := by simp only [sizeWrite]; split <;> rfl
@[simp] theorem sizeWrite_lineOut : (sizeWrite n bs s).lineOut = s.lineOut := by simp only [sizeWrite]; split <;> rfl
@[simp] theorem sizeWrite_port : (sizeWrite n bs s).port = s.port := by simp only [sizeWrite]; split <;> rfl
@[simp] theorem sizeWrite_turns : (sizeWrite n bs s).turns = s.turns := by simp only [sizeWrite]; split <;> rfl
@[simp] theorem sizeWrite_quota : (sizeWrite n bs s).quota = s.quota := by simp only [sizeWrite]; split <;> rfl
@[simp] theorem sizeWrite_slaveIn : (sizeWrite n bs s).slaveIn = s.slaveIn := by simp only [sizeWrite]; split <;> rfl
@[simp] theorem sizeWrite_outcomeIn : (sizeWrite n bs s).outcomeIn = s.outcomeIn := by simp only [sizeWrite]; split <;> rfl
@[simp] theorem sizeWrite_startIn : (sizeWrite n bs s).startIn = s.startIn := by simp only [sizeWrite]; split <;> rfl
@[simp] theorem sizeWrite_draws : (sizeWrite n bs s).draws = s.draws := by simp only [sizeWrite]; split <;> rfl

end

/-! ### Releasing a line -/

section
variable (i : Nat) (s : State)

@[simp] theorem deassert_params : ((deassert i s).1).params = s.params := by simp only [deassert]; split <;> [skip; split] <;> simp_all [emit, raiseFault]
@[simp] theorem deassert_fg : ((deassert i s).1).fg = s.fg := by simp only [deassert]; split <;> [skip; split] <;> simp_all [emit, raiseFault]
@[simp] theorem deassert_irqPhase : ((deassert i s).1).irqPhase = s.irqPhase := rfl
@[simp] theorem deassert_bound : ((deassert i s).1).bound = s.bound := by simp only [deassert]; split <;> [skip; split] <;> simp_all [emit, raiseFault]
@[simp] theorem deassert_activeDriver : ((deassert i s).1).activeDriver = s.activeDriver := by simp only [deassert]; split <;> [skip; split] <;> simp_all [emit, raiseFault]
@[simp] theorem deassert_csLevel : ((deassert i s).1).csLevel = if s.params.nCs ≤ i then s.csLevel else s.csLevel.set i true := by simp only [deassert]; split <;> [skip; split] <;> simp_all [emit, raiseFault]
@[simp] theorem deassert_lastCs : ((deassert i s).1).lastCs = s.lastCs := by simp only [deassert]; split <;> [skip; split] <;> simp_all [emit, raiseFault]
@[simp] theorem deassert_lastCsV : ((deassert i s).1).lastCsV = s.lastCsV := by simp only [deassert]; split <;> [skip; split] <;> simp_all [emit, raiseFault]
@[simp] theorem deassert_periph : ((deassert i s).1).periph = s.periph := by simp only [deassert]; split <;> [skip; split] <;> simp_all [emit, raiseFault]
@[simp] theorem deassert_xferDoneHw : ((deassert i s).1).xferDoneHw = s.xferDoneHw := by simp only [deassert]; split <;> [skip; split] <;> simp_all [emit, raiseFault]
@[simp] theorem deassert_bufSize : ((deassert i s).1).bufSize = s.bufSize := by simp only [deassert]; split <;> [skip; split] <;> simp_all [emit, raiseFault]
@[simp] theorem deassert_tx : ((deassert i s).1).tx = s.tx := by simp only [deassert]; split <;> [skip; split] <;> simp_all [emit, raiseFault]
@[simp] theorem deassert_rx : ((deassert i s).1).rx = s.rx := by simp only [deassert]; split <;> [skip; split] <;> simp_all [emit, raiseFault]
@[simp] theorem deassert_statusRx : ((deassert i s).1).statusRx = s.statusRx := by simp only [deassert]; split <;> [skip; split] <;> simp_all [emit, raiseFault]
@[simp] theorem deassert_statusTxRx : ((deassert i s).1).statusTxRx = s.statusTxRx := by simp only [deassert]; split <;> [skip; split] <;> simp_all [emit, raiseFault]
@[simp] theorem deassert_capCounter : ((deassert i s).1).capCounter = s.capCounter := by simp only [deassert]; split <;> [skip; split] <;> simp_all [emit, raiseFault]
@[simp] theorem deassert_capTarget : ((deassert i s).1).capTarget = s.capTarget := by simp only [deassert]; split <;> [skip; split] <;> simp_all [emit, raiseFault]
@[simp] theorem deassert_capCs : ((deassert i s).1).capCs = s.capCs := by simp only [deassert]; split <;> [skip; split] <;> simp_all [emit, raiseFault]
@[simp] theorem deassert_record : ((deassert i s).1).record = s.record := by simp only [deassert]; split <;> [skip; split] <;> simp_all [emit, raiseFault]
@[simp] theorem deassert_edgeEn : ((deassert i s).1).edgeEn = s.edgeEn := by simp only [deassert]; split <;> [skip; split] <;> simp_all [emit, raiseFault]
@[simp] theorem deassert_edgePend : ((deassert i s).1).edgePend = s.edgePend := by simp only [deassert]; split <;> [skip; split] <;> simp_all [emit, raiseFault]
@[simp] theorem deassert_cplRx : ((deassert i s).1).cplRx = s.cplRx := by simp only [deassert]; split <;> [skip; split] <;> simp_all [emit, raiseFault]
@[simp] theorem deassert_cplTxRx : ((deassert i s).1).cplTxRx = s.cplTxRx := by simp only [deassert]; split <;> [skip; split] <;> simp_all [emit, raiseFault]
@[simp] theorem deassert_faults : ((deassert i s).1).faults = if s.params.nCs ≤ i ∨ ¬(s.periph ≠ .idle ∧ levelOf i s = false) then s.faults else s.faults ||| fCsReleasedInFlight := by simp only [deassert]; split <;> [skip; split] <;> simp_all [emit, raiseFault]
@[simp] theorem deassert_busLog : ((deassert i s).1).busLog = if s.params.nCs ≤ i then s.busLog else s.busLog ++ [.csHigh i] := by simp only [deassert]; split <;> [skip; split] <;> simp_all [emit, raiseFault]
@[simp] theorem deassert_response : ((deassert i s).1).response = s.response := by simp only [deassert]; split <;> [skip; split] <;> simp_all [emit, raiseFault]
@[simp] theorem deassert_hostProg : ((deassert i s).1).hostProg = s.hostProg := by simp only [deassert]; split <;> [skip; split] <;> simp_all [emit, raiseFault]
@[simp] theorem deassert_hostIn : ((deassert i s).1).hostIn = s.hostIn := by simp only [deassert]; split <;> [skip; split] <;> simp_all [emit, raiseFault]
@[simp] theorem deassert_lineOut : ((deassert i s).1).lineOut = s.lineOut := by simp only [deassert]; split <;> [skip; split] <;> simp_all [emit, raiseFault]
@[simp] theorem deassert_port : ((deassert i s).1).port = s.port := by simp only [deassert]; split <;> [skip; split] <;> simp_all [emit, raiseFault]
@[simp] theorem deassert_turns : ((deassert i s).1).turns = s.turns := by simp only [deassert]; split <;> [skip; split] <;> simp_all [emit, raiseFault]
@[simp] theorem deassert_quota : ((deassert i s).1).quota = s.quota := by simp only [deassert]; split <;> [skip; split] <;> simp_all [emit, raiseFault]
@[simp] theorem deassert_slaveIn : ((deassert i s).1).slaveIn = s.slaveIn := by simp only [deassert]; split <;> [skip; split] <;> simp_all [emit, raiseFault]
@[simp] theorem deassert_outcomeIn : ((deassert i s).1).outcomeIn = s.outcomeIn := by simp only [deassert]; split <;> [skip; split] <;> simp_all [emit, raiseFault]
@[simp] theorem deassert_startIn : ((deassert i s).1).startIn = s.startIn := by simp only [deassert]; split <;> [skip; split] <;> simp_all [emit, raiseFault]
@[simp] theorem deassert_draws : ((deassert i s).1).draws = s.draws := by simp only [deassert]; split <;> [skip; split] <;> simp_all [emit, raiseFault]

end

/-! ### Selecting for a start -/

section
variable (cs : Byte) (s : State)

@[simp] theorem startSelect_params : (startSelect cs s).params = s.params := by simp [startSelect]
@[simp] theorem startSelect_fg : (startSelect cs s).fg = s.fg := by simp [startSelect]
@[simp] theorem startSelect_irqPhase : (startSelect cs s).irqPhase = s.irqPhase := rfl
@[simp] theorem startSelect_bound : (startSelect cs s).bound = s.bound := by simp [startSelect]
@[simp] theorem startSelect_activeDriver : (startSelect cs s).activeDriver = s.activeDriver := by simp [startSelect]
@[simp] theorem startSelect_csLevel : (startSelect cs s).csLevel = s.csLevel.set cs.toNat false := by simp [startSelect]
@[simp] theorem startSelect_lastCs : (startSelect cs s).lastCs = some cs := rfl
@[simp] theorem startSelect_lastCsV : (startSelect cs s).lastCsV = true := rfl
@[simp] theorem startSelect_periph : (startSelect cs s).periph = s.periph := by simp [startSelect]
@[simp] theorem startSelect_xferDoneHw : (startSelect cs s).xferDoneHw = s.xferDoneHw := by simp [startSelect]
@[simp] theorem startSelect_bufSize : (startSelect cs s).bufSize = s.bufSize := by simp [startSelect]
@[simp] theorem startSelect_tx : (startSelect cs s).tx = s.tx := by simp [startSelect]
@[simp] theorem startSelect_rx : (startSelect cs s).rx = s.rx := by simp [startSelect]
@[simp] theorem startSelect_statusRx : (startSelect cs s).statusRx = s.statusRx := by simp [startSelect]
@[simp] theorem startSelect_statusTxRx : (startSelect cs s).statusTxRx = s.statusTxRx := by simp [startSelect]
@[simp] theorem startSelect_capCounter : (startSelect cs s).capCounter = s.capCounter := by simp [startSelect]
@[simp] theorem startSelect_capTarget : (startSelect cs s).capTarget = s.capTarget := by simp [startSelect]
@[simp] theorem startSelect_capCs : (startSelect cs s).capCs = s.capCs := by simp [startSelect]
@[simp] theorem startSelect_record : (startSelect cs s).record = s.record := by simp [startSelect]
@[simp] theorem startSelect_edgeEn : (startSelect cs s).edgeEn = s.edgeEn := by simp [startSelect]
@[simp] theorem startSelect_edgePend : (startSelect cs s).edgePend = s.edgePend := by simp [startSelect]
@[simp] theorem startSelect_cplRx : (startSelect cs s).cplRx = s.cplRx := by simp [startSelect]
@[simp] theorem startSelect_cplTxRx : (startSelect cs s).cplTxRx = s.cplTxRx := by simp [startSelect]
@[simp] theorem startSelect_faults : (startSelect cs s).faults = (assertDrive cs.toNat s).faults := rfl
@[simp] theorem startSelect_busLog : (startSelect cs s).busLog = s.busLog ++ [.csLow cs.toNat] := by simp [startSelect]
@[simp] theorem startSelect_response : (startSelect cs s).response = s.response := by simp [startSelect]
@[simp] theorem startSelect_hostProg : (startSelect cs s).hostProg = s.hostProg := by simp [startSelect]
@[simp] theorem startSelect_hostIn : (startSelect cs s).hostIn = s.hostIn := by simp [startSelect]
@[simp] theorem startSelect_lineOut : (startSelect cs s).lineOut = s.lineOut := by simp [startSelect]
@[simp] theorem startSelect_port : (startSelect cs s).port = s.port := by simp [startSelect]
@[simp] theorem startSelect_turns : (startSelect cs s).turns = s.turns := by simp [startSelect]
@[simp] theorem startSelect_quota : (startSelect cs s).quota = s.quota := by simp [startSelect]
@[simp] theorem startSelect_slaveIn : (startSelect cs s).slaveIn = s.slaveIn := by simp [startSelect]
@[simp] theorem startSelect_outcomeIn : (startSelect cs s).outcomeIn = s.outcomeIn := by simp [startSelect]
@[simp] theorem startSelect_startIn : (startSelect cs s).startIn = s.startIn := by simp [startSelect]
@[simp] theorem startSelect_draws : (startSelect cs s).draws = s.draws := by simp [startSelect]

end

end Sys2Proof.Machine
end

