-- ==== Sys2Proof/Laws/Ops.lean ====
section
/-! SUPPORT. One lemma for each shared operation: what it can do. -/

namespace Sys2Proof.Machine

/-! ### Lines -/

theorem lowCount_eq_zero {s : State} : lowCount s = 0 ↔ ∀ level ∈ s.csLevel, level = true := by
  simp [lowCount, List.countP_eq_zero]

theorem countP_set_le (l : List Bool) (i : Nat) (b : Bool) (f : Bool → Bool) :
    (l.set i b).countP f ≤ l.countP f + 1 := by
  induction l generalizing i with
  | nil => simp
  | cons a l ih =>
    cases i with
    | zero => simp only [List.set_cons_zero, List.countP_cons]; split <;> split <;> omega
    | succ i =>
      simp only [List.set_cons_succ, List.countP_cons]
      have := ih i
      omega

theorem countP_low_set_true (l : List Bool) (i : Nat) :
    (l.set i true).countP (fun level => !level) ≤ l.countP (fun level => !level) := by
  induction l generalizing i with
  | nil => simp
  | cons a l ih =>
    cases i with
    | zero => simp only [List.set_cons_zero, List.countP_cons]; simp
    | succ i =>
      simp only [List.set_cons_succ, List.countP_cons]
      have := ih i
      omega

theorem set_true_of_all {l : List Bool} (h : ∀ b ∈ l, b = true) (i : Nat) : l.set i true = l := by
  induction l generalizing i with
  | nil => rfl
  | cons a l ih =>
    cases i with
    | zero => rw [List.set_cons_zero, h a (by simp)]
    | succ i => rw [List.set_cons_succ, ih fun b hb => h b (by simp [hb])]

theorem getD_set (l : List Bool) (i j : Nat) (b : Bool) (h : i < l.length) :
    (l.set i b).getD j true = if j = i then b else l.getD j true := by
  simp only [List.getD_eq_getElem?_getD, List.getElem?_set]
  by_cases hj : i = j
  · subst hj; simp [h]
  · rw [if_neg hj, if_neg (Ne.symm hj)]

/-- Two lines low are counted. -/
theorem two_le_countP_low {l : List Bool} {i j : Nat} (hij : i ≠ j) (hi : l.getD i true = false)
    (hj : l.getD j true = false) : 2 ≤ l.countP fun level => !level := by
  induction l generalizing i j with
  | nil => simp at hi
  | cons a l ih =>
    have pos : ∀ n, l.getD n true = false → 0 < l.countP fun level => !level := by
      intro n hn
      rw [List.countP_pos_iff]
      refine ⟨false, ?_, rfl⟩
      rw [List.getD_eq_getElem?_getD] at hn
      cases h : l[n]? with
      | none => simp [h] at hn
      | some b => simp [h] at hn; subst hn; exact List.mem_of_getElem? h
    simp only [List.countP_cons]
    cases i with
    | zero =>
      cases j with
      | zero => exact absurd rfl hij
      | succ j => simp at hi hj; subst hi; have := pos j (by simpa using hj); simp only [Bool.not_false, if_true]; omega
    | succ i =>
      cases j with
      | zero => simp at hi hj; subst hj; have := pos i (by simpa using hi); simp only [Bool.not_false, if_true]; omega
      | succ j =>
        have := ih (i := i) (j := j) (by omega) (by simpa using hi) (by simpa using hj)
        omega

/-- At most the one line low is counted. -/
theorem countP_low_le_one {l : List Bool} {i : Nat} (h : ∀ j, j ≠ i → l.getD j true = true) :
    (l.countP fun level => !level) ≤ 1 := by
  induction l generalizing i with
  | nil => simp
  | cons a l ih =>
    simp only [List.countP_cons]
    cases i with
    | zero =>
      have : (l.countP fun level => !level) = 0 := by
        rw [List.countP_eq_zero]
        intro b hb
        obtain ⟨n, hn⟩ := List.mem_iff_getElem?.1 hb
        have := h (n + 1) (by omega)
        simp [List.getD_eq_getElem?_getD, hn] at this
        simp [this]
      split <;> omega
    | succ i =>
      have ha : a = true := by simpa using h 0 (by omega)
      subst ha
      have := ih (i := i) fun j hj => by simpa using h (j + 1) (by omega)
      simpa using this

/-- The check of Assert succeeds exactly on an index in range with no line low. -/
theorem assertCheck_eq_ok {i : Nat} {s : State} :
    assertCheck i s = .ok ↔ i < s.params.nCs ∧ lowCount s = 0 := by
  unfold assertCheck
  split
  · simp; omega
  · split <;> simp <;> omega

/-- Driving a line with no line low raises no fault. -/
theorem assertDrive_of_none_low {s : State} (h : lowCount s = 0) (i : Nat) :
    assertDrive i s = { s with csLevel := s.csLevel.set i false, busLog := s.busLog ++ [.csLow i] } := by
  have h2 : ¬ 2 ≤ lowCount (emit (.csLow i) { s with csLevel := s.csLevel.set i false }) := by
    have h1 := countP_set_le s.csLevel i false fun level => !level
    change ¬ 2 ≤ (s.csLevel.set i false).countP fun level => !level
    simp only [lowCount] at h
    omega
  rw [assertDrive, if_neg h2]
  rfl

/-- Driving a line: the level, the log, and the fault bit exactly where two lines are low after it. -/
theorem assertDrive_eq (i : Nat) (s : State) :
    assertDrive i s = { s with
      csLevel := s.csLevel.set i false
      busLog := s.busLog ++ [.csLow i]
      faults := if 2 ≤ (s.csLevel.set i false).countP (fun level => !level) then s.faults ||| fMultiSelect
        else s.faults } := by
  by_cases h : 2 ≤ (s.csLevel.set i false).countP fun level => !level
  · rw [if_pos h]
    exact (if_pos (show 2 ≤ lowCount (emit (.csLow i) { s with csLevel := s.csLevel.set i false }) from h)).trans rfl
  · rw [if_neg h]
    exact (if_neg (show ¬ 2 ≤ lowCount (emit (.csLow i) { s with csLevel := s.csLevel.set i false }) from h)).trans rfl

/-- Releasing a line out of range changes nothing. -/
theorem deassert_out {i : Nat} {s : State} (h : s.params.nCs ≤ i) : deassert i s = (s, .invalidIndex) := by
  simp [deassert, h]

/-- Releasing a line in range. -/
theorem deassert_in {i : Nat} {s : State} (h : i < s.params.nCs) :
    deassert i s = ({ s with
      csLevel := s.csLevel.set i true
      busLog := s.busLog ++ [.csHigh i]
      faults := if s.periph ≠ .idle ∧ levelOf i s = false then s.faults ||| fCsReleasedInFlight else s.faults }, .ok) := by
  simp only [deassert, if_neg (show ¬ s.params.nCs ≤ i by omega)]
  split <;> simp [emit, raiseFault]

/-- Releasing a line on an idle bus raises no fault. -/
theorem deassert_idle {i : Nat} {s : State} (h : i < s.params.nCs) (hp : s.periph = .idle) :
    deassert i s = ({ s with csLevel := s.csLevel.set i true, busLog := s.busLog ++ [.csHigh i] }, .ok) := by
  rw [deassert_in h]
  simp [hp]

/-! ### Free values and the environment's answers -/

theorem readBytes_sent (m : Memory) (n : Nat) (s : State) : SentBytes m n (readBytes m n s).1 := by
  refine ⟨by simp [readBytes], fun j v hj hv => ?_⟩
  simp [readBytes, hj, hv]

theorem readBytes_state (m : Memory) (n : Nat) (s : State) : (readBytes m n s).2 = { s with draws := s.draws + n } := rfl

@[simp] theorem readBytes_length (m : Memory) (n : Nat) (s : State) : (readBytes m n s).1.length = n := by
  simp [readBytes]

@[simp] theorem slaveBytes_length (n : Nat) (s : State) : (slaveBytes n s).1.length = n := by simp [slaveBytes]

theorem slaveBytes_state (n : Nat) (s : State) :
    (slaveBytes n s).2 = { s with slaveIn := s.slaveIn.drop n, draws := s.draws + n } := rfl

/-- SLAVE's bytes to come are the ones answered. -/
theorem slaveBytes_get {n j : Nat} {s : State} {v : Byte} (hj : j < n) (hv : s.slaveIn[j]? = some v) :
    (slaveBytes n s).1[j]? = some v := by
  simp [slaveBytes, hj, hv]

theorem drawOutcome_state (s : State) :
    (drawOutcome s).2 = { s with outcomeIn := s.outcomeIn.tail, draws := s.draws + 1 } := rfl

/-- The environment's next answer is the outcome. -/
theorem drawOutcome_of_cons {s : State} {o : PhaseOutcome} {rest : List PhaseOutcome} (h : s.outcomeIn = o :: rest) :
    (drawOutcome s).1 = o := by simp [drawOutcome, h]

theorem drawStart_state (s : State) :
    (drawStart s).2 = { s with startIn := s.startIn.tail, draws := s.draws + 1 } := rfl

/-- The environment's next answer is whether the start succeeds. -/
theorem drawStart_of_cons {s : State} {b : Bool} {rest : List Bool} (h : s.startIn = b :: rest) :
    (drawStart s).1 = b := by simp [drawStart, h]

theorem known_some (b : Byte) (s : State) : known (some b) s = (b, s) := rfl

theorem known_state (v : Option Byte) (s : State) : ∃ d, (known v s).2 = { s with draws := d } := by
  cases v
  · exact ⟨s.draws + 1, rfl⟩
  · exact ⟨s.draws, rfl⟩

/-! ### Running a request -/

@[simp] theorem runMicro_zero (i : Instr) (f : MicroFn) (s : State) : runMicro i f 0 s = s := rfl

theorem runMicro_idle {s : State} (h : s.fg = .idle) (i : Instr) (f : MicroFn) (k : Nat) : runMicro i f k s = s := by
  cases k with
  | zero => rfl
  | succ k => simp [runMicro, h]

theorem runMicro_busy {s : State} {j : Instr} {m : Micro} {loc : Locals} (h : s.fg = .busy j m loc) (i : Instr)
    (f : MicroFn) (k : Nat) : runMicro i f (k + 1) s = runMicro i f k (microStep i f m loc s) := by
  simp [runMicro, h]

theorem microStep_go {i : Instr} {f : MicroFn} {m m' : Micro} {loc loc' : Locals} {s s' : State}
    (h : f m loc s = .go s' m' loc') : microStep i f m loc s = continueAt i m' loc' s' := by
  simp [microStep, h]

theorem microStep_ret {i : Instr} {f : MicroFn} {m : Micro} {loc : Locals} {s s' : State} {rc : ResultCode}
    {d : RespData} (h : f m loc s = .ret s' rc d) : microStep i f m loc s = respond rc d s' := by
  simp [microStep, h]

/-- A request that ends at its next micro-step, in a turn of at least one. -/
theorem runMicro_ret {i j : Instr} {f : MicroFn} {m : Micro} {loc : Locals} {s s' : State} {rc : ResultCode}
    {d : RespData} {k : Nat} (hfg : s.fg = .busy j m loc) (h : f m loc s = .ret s' rc d) :
    runMicro i f (k + 1) s = respond rc d s' := by
  rw [runMicro_busy hfg, microStep_ret h, runMicro_idle rfl]

/-- A request that goes on after its next micro-step. -/
theorem runMicro_go {i j : Instr} {f : MicroFn} {m m' : Micro} {loc loc' : Locals} {s s' : State} {k : Nat}
    (hfg : s.fg = .busy j m loc) (h : f m loc s = .go s' m' loc') :
    runMicro i f (k + 1) s = runMicro i f k (continueAt i m' loc' s') := by
  rw [runMicro_busy hfg, microStep_go h]

theorem runRequest_idle {i : Instr} {f : MicroFn} {s : State} (h : s.fg = .idle) :
    runRequest i f s = .next (runMicro i f s.quota (accept i s)) := by simp [runRequest, h]

theorem runRequest_busy {i : Instr} {f : MicroFn} {s : State} {m : Micro} {loc : Locals} (h : s.fg = .busy i m loc) :
    runRequest i f s = .next (runMicro i f s.quota s) := by simp [runRequest, h]

/-- All a turn of FG with a request can do. -/
theorem runRequest_next {i : Instr} {f : MicroFn} {s t : State} (h : runRequest i f s = .next t) :
    (s.fg = .idle ∧ t = runMicro i f s.quota (accept i s)) ∨
      ∃ m loc, s.fg = .busy i m loc ∧ t = runMicro i f s.quota s := by
  unfold runRequest at h
  split at h
  · simp at h; exact .inl ⟨‹_›, h.symm⟩
  · rename_i j m loc hfg
    split at h
    · subst_vars; simp at h; exact .inr ⟨m, loc, hfg, h.symm⟩
    · simp at h

end Sys2Proof.Machine
end

