-- ==== Sys2Proof/Laws/Step.lean ====
section
/-! SUPPORT. All a step can do: a step is a chain of acts of the agent whose turn it is. -/

namespace Sys2Proof.Machine

/-- The micro-steps of an instruction that FG runs, under parameters `p`; an event or a sample frame has none. -/
def microOf (p : Params) : Instr → Option MicroFn
  | .csAssert cs => some (microCsAssert cs)
  | .csDeassert cs => some (microCsDeassert cs)
  | .bufSetSize n => some (microBufSetSize n)
  | .bufSetTx n bs => some (microBufSetTx n bs)
  | .bufReadRx => some microBufReadRx
  | .syncWrite cs => some (microSync .write cs)
  | .syncRw cs => some (microSync .rw cs)
  | .asyncRead cs => some (microAsyncStart .rx cs)
  | .asyncRw cs => some (microAsyncStart .txrx cs)
  | .asyncStatus k => some (microAsyncStatus k)
  | .capStart cs n => some (microCapStart cs n)
  | .capCount => some microCapCount
  | .capSlot n => some (microCapSlot n)
  | .evEdge => none
  | .evXferEnd => none
  | .evReset => none
  | .regWriteFrame a v => some (microRegWrite p.csReg a v)
  | .regReadFrame a => some (microRegRead p.csReg a)
  | .sampleFrame _ => none

/-- Running a request is running its micro-steps. -/
theorem exec_request {i : Instr} {s : State} {f : MicroFn} (h : microOf s.params i = some f) :
    exec i s = runRequest i f s := by
  cases i <;> simp [microOf] at h <;> subst h <;> rfl

theorem microOf_isSome (p : Params) (i : Instr) : (microOf p i).isSome = isRequest i := by
  cases i <;> rfl

/-- The state a micro-step leads to. -/
def MicroOut.state : MicroOut → State
  | .go s _ _ => s
  | .ret s _ _ => s

/-- The next micro-step, or the response. -/
theorem microStep_eq (i : Instr) (f : MicroFn) (m : Micro) (loc : Locals) (s : State) :
    ∃ fg r, microStep i f m loc s = { (f m loc s).state with fg := fg, response := r } ∧
      (fg = .idle ∨ ∃ m' loc', fg = .busy i m' loc' ∧ f m loc s = .go (f m loc s).state m' loc') := by
  unfold microStep
  cases h : f m loc s with
  | go s' m' loc' => exact ⟨_, s'.response, rfl, .inr ⟨m', loc', rfl, rfl⟩⟩
  | ret s' rc d => exact ⟨_, _, rfl, .inl rfl⟩

/-- What holds of the state after every micro-step of the parts holds of it after every micro-step of the whole. -/
theorem sequenceMicro_state {parts : List MicroFn} {P : State → State → Prop} (hr : ∀ s, P s s)
    (h : ∀ f ∈ parts, ∀ m loc s, P s (f m loc s).state) (m : Micro) (loc : Locals) (s : State) :
    P s (sequenceMicro parts m loc s).state := by
  unfold sequenceMicro
  cases hp : parts[loc.stage]? with
  | none => exact hr s
  | some f =>
    have := h f (List.mem_of_getElem? hp) m loc s
    cases hf : f m loc s with
    | go s' m' loc' => simpa [hf, MicroOut.state] using this
    | ret s' rc d =>
      by_cases hc : loc.stage + 1 < parts.length <;> simpa [hf, hc, MicroOut.state] using this

/-- `P` holds between the state before and after every micro-step of `f`. -/
def MicroAll (P : State → State → Prop) (f : MicroFn) : Prop := ∀ m loc s, P s (f m loc s).state

/-- A property of every micro-step, shown family by family. -/
theorem microOf_all {P : State → State → Prop} (hr : ∀ s, P s s)
    (assert : ∀ cs, MicroAll P (microCsAssert cs)) (release : ∀ cs, MicroAll P (microCsDeassert cs))
    (size : ∀ n, MicroAll P (microBufSetSize n)) (setTx : ∀ n bs, MicroAll P (microBufSetTx n bs))
    (readRx : MicroAll P microBufReadRx) (sync : ∀ kind cs, MicroAll P (microSync kind cs))
    (start : ∀ k cs, MicroAll P (microAsyncStart k cs)) (status : ∀ k, MicroAll P (microAsyncStatus k))
    (cap : ∀ cs n, MicroAll P (microCapStart cs n)) (count : MicroAll P microCapCount)
    (slot : ∀ n, MicroAll P (microCapSlot n)) {p : Params} {i : Instr} {f : MicroFn} (h : microOf p i = some f) :
    MicroAll P f := by
  cases i <;> simp only [microOf, Option.some.injEq, reduceCtorEq] at h <;> subst h
  case regWriteFrame a v =>
    intro m loc s
    refine sequenceMicro_state hr (fun f hf => ?_) m loc s
    simp only [List.mem_cons, List.not_mem_nil, or_false] at hf
    rcases hf with rfl | rfl
    · exact setTx _ _
    · exact sync _ _
  case regReadFrame a =>
    intro m loc s
    refine sequenceMicro_state hr (fun f hf => ?_) m loc s
    simp only [List.mem_cons, List.not_mem_nil, or_false] at hf
    rcases hf with rfl | rfl | rfl
    · exact setTx _ _
    · exact sync _ _
    · exact readRx
  all_goals first | exact assert _ | exact release _ | exact size _ | exact setTx _ _ | exact readRx | exact sync _ _ |
    exact start _ _ | exact status _ | exact cap _ _ | exact count | exact slot _

/-- No micro-step writes the parameters. -/
theorem micro_params {p : Params} {i : Instr} {f : MicroFn} (h : microOf p i = some f) :
    MicroAll (fun s t => t.params = s.params) f := by
  refine microOf_all (P := fun s t => t.params = s.params) (fun _ => rfl) ?_ ?_ ?_ ?_ ?_ ?_ ?_ ?_ ?_ ?_ ?_ h
  all_goals intros
  all_goals intro m loc s
  · cases m <;> simp only [microCsAssert] <;> (repeat' split) <;> simp [MicroOut.state]
  · simp [microCsDeassert, MicroOut.state]
  · cases m <;> simp only [microBufSetSize] <;> (repeat' split) <;> simp [MicroOut.state]
  · cases m <;> simp only [microBufSetTx] <;> (repeat' split) <;> simp [MicroOut.state]
  · simp only [microBufReadRx, receivedView]; split <;> simp [MicroOut.state]
  · cases m <;> simp only [microSync] <;> (repeat' split) <;> simp [MicroOut.state, syncBegin, syncDataPhase]
  · cases m <;> simp only [microAsyncStart] <;> (repeat' split) <;>
      simp [MicroOut.state, startFailed, startSelect, startPrimitive] <;> split <;> simp
  · simp only [microAsyncStatus]; split <;> simp [MicroOut.state]
  · cases m <;> simp only [microCapStart] <;> (repeat' split) <;> simp [MicroOut.state]
  · simp [microCapCount, MicroOut.state]
  · simp only [microCapSlot]; (repeat' split) <;> simp [MicroOut.state]

/-! ### Acts -/

/-- What one agent can do within its turn `τ`. `G` says that the state the step began in had a well-formed host program
and request in progress: then FG runs requests only. -/
inductive Act (G : Prop) : Turn → State → State → Prop where
  /-- The schedule's, HOST's and SLAVE's side: turns, inputs, written lines, bytes to come and the count of free
  values. -/
  | input (τ : Turn) (s : State) (turns : List Turn) (quota : Nat) (port : List Byte) (hostIn : List HostInput)
      (lineOut : List Text) (slaveIn : List Byte) (draws : Nat) :
      Act G τ s { s with
        turns := turns, quota := quota, port := port, hostIn := hostIn, lineOut := lineOut, slaveIn := slaveIn,
        draws := draws }
  /-- The host program goes on, or HOST begins one. -/
  | prog (k : Nat) (s : State) (ops : List HostOp) (h : G → progWf ops = true) :
      Act G (.fg k) s { s with hostProg := ops }
  /-- An illegal word is answered. -/
  | illegal (k : Nat) (s : State) (h : s.fg = .idle) : Act G (.fg k) s (respond .illegal .nothing s)
  /-- A request is taken. -/
  | take (k : Nat) (i : Instr) (s : State) (h : s.fg = .idle) (hw : G → i.wf = true ∧ isRequest i = true) :
      Act G (.fg k) s (accept i s)
  /-- One micro-step of the request in progress. -/
  | micro (k : Nat) (i : Instr) (f : MicroFn) (m : Micro) (loc : Locals) (s : State) (h : s.fg = .busy i m loc)
      (hf : microOf s.params i = some f) : Act G (.fg k) s (microStep i f m loc s)
  /-- An interrupt is taken. -/
  | irq (src : IrqSource) (s : State) (h : mayTake src s = true) :
      Act G (.irq src) s (handler src (acknowledge src s))
  /-- An edge. -/
  | edge (τ : Turn) (s : State) (h : s.edgeEn = true) (hτ : G → τ = .edge) :
      Act G τ s { s with edgePend := true }
  /-- The end of an asynchronous data phase. -/
  | phaseEnd (τ : Turn) (k : Kind) (miso : List Byte) (s : State) (h : transferring s = some k)
      (hn : miso.length = s.bufSize.toNat) (hτ : G → ∀ n, τ ≠ .fg n) : Act G τ s (endDataPhase k miso s)
  /-- A reset. -/
  | reset (τ : Turn) (s : State) (hτ : G → τ = .platform) : Act G τ s (resetEvent s)

/-- A chain of acts. -/
abbrev Acts (G : Prop) (τ : Turn) : State → State → Prop := Relation.ReflTransGen (Act G τ)

theorem acts_runMicro {G : Prop} {q : Nat} {i : Instr} {f : MicroFn} (k : Nat) {s : State}
    (hf : microOf s.params i = some f) (hfg : s.fg = .idle ∨ ∃ m loc, s.fg = .busy i m loc) :
    Acts G (.fg q) s (runMicro i f k s) := by
  induction k generalizing s with
  | zero => exact .refl
  | succ k ih =>
    rcases hfg with h | ⟨m, loc, h⟩
    · rw [runMicro_idle h]
    · rw [runMicro_busy h]
      obtain ⟨fg, r, he, hfg'⟩ := microStep_eq i f m loc s
      have hp : (microStep i f m loc s).params = s.params := by rw [he]; exact micro_params hf m loc s
      refine Relation.ReflTransGen.head (.micro q i f m loc s h hf) (ih (by rw [hp]; exact hf) ?_)
      rw [he]
      rcases hfg' with h' | ⟨m', loc', h', -⟩
      · exact .inl h'
      · exact .inr ⟨m', loc', h'⟩

/-- All that running an instruction in a turn can do. -/
theorem acts_exec {G : Prop} {τ : Turn} {i : Instr} {s t : State} (h : exec i s = .next t)
    (hτ : isRequest i = true → ∃ k, τ = .fg k) (hw : G → s.fg = .idle → isRequest i = true → i.wf = true)
    (h1 : G → i = .evEdge → τ = .edge) (h2 : G → isRequest i = false → ∀ n, τ ≠ .fg n)
    (h3 : G → i = .evReset → τ = .platform) : Acts G τ s t := by
  by_cases hr : isRequest i = true
  · obtain ⟨k, rfl⟩ := hτ hr
    obtain ⟨f, hf⟩ := Option.isSome_iff_exists.1 ((microOf_isSome s.params i).trans hr)
    rw [exec_request hf] at h
    rcases runRequest_next h with ⟨hi, rfl⟩ | ⟨m, loc, hb, rfl⟩
    · exact Relation.ReflTransGen.head (.take k i s hi fun g => ⟨hw g hi hr, hr⟩)
        (acts_runMicro _ (by simpa using hf) (.inr ⟨_, _, rfl⟩))
    · exact acts_runMicro _ hf (.inr ⟨m, loc, hb⟩)
  · cases i <;> try (exact absurd rfl hr)
    case evEdge =>
      simp only [exec, execEvEdge, edgeEvent, Host.Outcome.next.injEq] at h
      subst h
      split
      · exact .single (.edge τ s ‹_› fun g => h1 g rfl)
      · exact .refl
    case evXferEnd =>
      simp only [exec, execEvXferEnd, xferEnd, Host.Outcome.next.injEq] at h
      subst h
      split
      · exact .refl
      · rename_i k hk
        rw [slaveBytes_state]
        exact Relation.ReflTransGen.head (.input τ s s.turns s.quota s.port s.hostIn s.lineOut _ _)
          (.single (.phaseEnd τ k _ _ hk (by simp) fun g => h2 g rfl))
    case evReset =>
      simp only [exec, execEvReset, Host.Outcome.next.injEq] at h
      subst h
      exact .single (.reset τ s fun g => h3 g rfl)
    case sampleFrame v =>
      simp only [exec, execSampleFrame, sampleEnd, Host.Outcome.next.injEq] at h
      subst h
      split
      · rename_i hu
        simp only [sampleUnderWay, Bool.and_eq_true, decide_eq_true_eq] at hu
        exact .single (.phaseEnd τ .rx _ s hu.1 (by simp [hu.2, sampleBytesOf, Config.sampleBytes]) fun g => h2 g rfl)
      · exact .refl

/-! ### Host programs -/

theorem setTx_wf {bs : List Byte} (h : bs.length < 2 ^ 32) : (setTx bs).wf = true := by
  simp only [setTx, Instr.wf, BitVec.toNat_ofNat, Nat.mod_eq_of_lt h, beq_self_eq_true]

theorem regWriteOps_wf (cs a : Byte) (v : U64) : progWf (regWriteOps cs a v) = true := by
  simp [progWf, regWriteOps, frameW, bytes40, isRequest, setTx, Instr.format, Instr.wf]

theorem regReadOps_wf (cs a : Byte) : progWf (regReadOps cs a) = true := by
  simp [progWf, regReadOps, frameR, isRequest, setTx, Instr.format, Instr.wf]

theorem progWf_append (p q : List HostOp) : progWf (p ++ q) = (progWf p && progWf q) := by
  simp [progWf, List.all_append]

theorem pseudoOps_wf (p : Pseudo) : progWf (pseudoOps p) = true := by
  cases p with
  | regWrite cs a v => exact regWriteOps_wf cs a v
  | regRead cs a => exact regReadOps_wf cs a
  | waitAsync k => rfl
  | waitCap n => rfl

theorem radcOps_wf (p : Params) (n : Nat) : progWf (radcOps p n) = true := by
  unfold radcOps
  split
  · rfl
  · simp [progWf, isRequest, Instr.format, Instr.wf]

/-- A command line asks for well-formed requests only. -/
theorem commandOps_wf (p : Params) (tokens : List Text) : progWf (commandOps p tokens) = true := by
  unfold commandOps
  split
  · unfold wregArgs
    split
    · split
      · simp only [wregOps, progWf_append, regWriteOps_wf]; rfl
      · rfl
    · rfl
  · unfold rregArgs
    split
    · split
      · unfold rregOps
        split
        · rfl
        · simp only [progWf_append, regReadOps_wf]; rfl
      · rfl
    · rfl
  · unfold radcArgs
    split
    · split
      · exact radcOps_wf _ _
      · rfl
    · rfl
  · rfl

/-- The host's own actions change the written lines, the count of free values, and the program. -/
theorem hostLocal_state (op : HostOp) (s : State) :
    ∃ lines d ops, hostLocal op s = { s with lineOut := lines, draws := d, hostProg := ops } ∧
      (progWf s.hostProg = true → progWf ops = true) := by
  have word : ∃ d, (responseWord s).2 = { s with draws := d } := by
    unfold responseWord
    split
    · exact ⟨s.draws, rfl⟩
    · exact ⟨s.draws + 1, rfl⟩
  obtain ⟨d, hd⟩ := word
  cases op with
  | issue r => exact ⟨s.lineOut, s.draws, s.hostProg, rfl, id⟩
  | checkCount n =>
    simp only [hostLocal]
    split
    · exact ⟨s.lineOut, s.draws, s.hostProg, rfl, id⟩
    · exact ⟨s.lineOut, s.draws, _, rfl, fun h => by simpa [progWf, isRequest, Instr.format, Instr.wf] using h⟩
  | checkDone k =>
    simp only [hostLocal]
    split
    · exact ⟨s.lineOut, s.draws, s.hostProg, rfl, id⟩
    · exact ⟨s.lineOut, s.draws, _, rfl, fun h => by simpa [progWf, isRequest, Instr.format, Instr.wf] using h⟩
  | writeLine t => exact ⟨_, s.draws, s.hostProg, rfl, id⟩
  | writeBin40 => exact ⟨_, _, s.hostProg, rfl, id⟩
  | writeCount =>
    exact ⟨s.lineOut ++ [decimalText (responseWord s).1.toNat ++ ['\r', '\n']], d, s.hostProg,
      by simp only [hostLocal, writeLine, hd], id⟩
  | writeBin32 =>
    exact ⟨s.lineOut ++ [binText (responseWord s).1 ++ ['\r', '\n']], d, s.hostProg,
      by simp only [hostLocal, writeLine, hd], id⟩

/-! ### A step -/

/-- The step begins in a state whose host program and request in progress are well formed. -/
def Guarded (s : State) : Prop := progWf s.hostProg = true ∧ phaseWf s.params s.fg = true

theorem Guarded.request {s : State} (h : Guarded s) {i : Instr} {m : Micro} {loc : Locals} (hb : s.fg = .busy i m loc) :
    isRequest i = true := by
  have := h.2
  simp only [hb, phaseWf, Bool.and_eq_true] at this
  exact this.1.1.2

/-- An instruction FG runs in a guarded state is a request. -/
theorem acts_fg {s0 s t : State} {k : Nat} {i : Instr} (h : exec i s = .next t)
    (hr : Guarded s0 → isRequest i = true) (hw : Guarded s0 → s.fg = .idle → i.wf = true) :
    Acts (Guarded s0) (.fg k) s t := by
  refine acts_exec h (fun _ => ⟨k, rfl⟩) (fun g hi _ => hw g hi) ?_ ?_ ?_
  · rintro g rfl; exact absurd (hr g) (by decide)
  · intro g hn; rw [hr g] at hn; cases hn
  · rintro g rfl; exact absurd (hr g) (by decide)

/-- The schedule's and HOST's fields. -/
theorem acts_input {G : Prop} {τ : Turn} {s s' t : State} {turns : List Turn} {quota : Nat} {port : List Byte}
    {hostIn : List HostInput} {lineOut : List Text} {slaveIn : List Byte} {draws : Nat}
    (e : s' = { s with
      turns := turns, quota := quota, port := port, hostIn := hostIn, lineOut := lineOut, slaveIn := slaveIn,
      draws := draws })
    (h : Acts G τ s' t) : Acts G τ s t := by
  subst e
  exact Relation.ReflTransGen.head (.input τ s turns quota port hostIn lineOut slaveIn draws) h

theorem acts_hostLocal {s0 s : State} {k : Nat} {op : HostOp} (hp : Guarded s0 → progWf s.hostProg = true) :
    Acts (Guarded s0) (.fg k) s (hostLocal op s) := by
  obtain ⟨lines, d, ops, he, hw⟩ := hostLocal_state op s
  rw [he]
  exact Relation.ReflTransGen.head (.input (.fg k) s s.turns s.quota s.port s.hostIn lines s.slaveIn d)
    (.single (.prog k _ ops fun g => hw (hp g)))

theorem acts_hostTake {s0 s t : State} {k : Nat} (h : hostTake s = .next t) :
    Acts (Guarded s0) (.fg k) s t := by
  unfold hostTake at h
  split at h
  · simp only [Host.Outcome.next.injEq] at h; subst h; exact .refl
  · simp only [Host.Outcome.next.injEq] at h
    subst h
    rename_i rest _
    exact Relation.ReflTransGen.head (.input (.fg k) s s.turns s.quota s.port rest s.lineOut s.slaveIn s.draws)
      (.single (.prog k _ _ fun _ => commandOps_wf _ _))
  · simp only [Host.Outcome.next.injEq] at h
    subst h
    rename_i rest _
    exact Relation.ReflTransGen.head (.input (.fg k) s s.turns s.quota s.port rest s.lineOut s.slaveIn s.draws)
      (.single (.prog k _ _ fun _ => pseudoOps_wf _))
  · split at h
    · rename_i hd
      obtain ⟨h1, h2⟩ := decodeRegFrame_frame hd
      exact acts_input rfl (acts_fg h (fun _ => by simp [isRequest, h2]) fun _ _ => h1)
    · simp at h
    · simp at h

theorem acts_fetch {s0 s t : State} {k : Nat} (hi : s.fg = .idle) (h : fetchRequest s = .next t) :
    Acts (Guarded s0) (.fg k) s t := by
  unfold fetchRequest at h
  split at h
  · rename_i hd
    obtain ⟨h1, h2⟩ := decodeRequest_request hd
    exact acts_input rfl (acts_fg h (fun _ => by simp [isRequest, h2]) fun _ _ => h1)
  · split at h
    · simp only [Host.Outcome.next.injEq] at h
      subst h
      exact acts_input rfl (.single (.illegal k _ hi))
    · exact acts_hostTake h
  · exact acts_hostTake h

theorem acts_fgTurn {s0 s t : State} {k : Nat} (hg : Guarded s0 → Guarded s) (h : fgTurn s = .next t) :
    Acts (Guarded s0) (.fg k) s t := by
  unfold fgTurn at h
  split at h
  · rename_i hb
    exact acts_fg h (fun g => (hg g).request hb) fun _ hi => by simp [hb] at hi
  · rename_i hi
    split at h
    · rename_i op rest hp
      have hw : Guarded s0 → progWf (op :: rest) = true := fun g => hp ▸ (hg g).1
      refine Relation.ReflTransGen.head (.prog k s rest fun g => ?_) ?_
      · have := hw g; simp only [progWf, List.all_cons, Bool.and_eq_true] at this; exact this.2
      · have hrest : Guarded s0 → progWf ({ s with hostProg := rest } : State).hostProg = true := fun g => by
          have := hw g; simp only [progWf, List.all_cons, Bool.and_eq_true] at this; exact this.2
        cases op with
        | issue r =>
          have hr : Guarded s0 → r.wf = true ∧ isRequest r = true := fun g => by
            have := hw g
            simp only [progWf, List.all_cons, Bool.and_eq_true] at this
            exact this.1
          exact acts_fg h (fun g => (hr g).2) fun g _ => (hr g).1
        | checkCount n => simp only [hostAct, Host.Outcome.next.injEq] at h; subst h; exact acts_hostLocal hrest
        | checkDone n => simp only [hostAct, Host.Outcome.next.injEq] at h; subst h; exact acts_hostLocal hrest
        | writeLine n => simp only [hostAct, Host.Outcome.next.injEq] at h; subst h; exact acts_hostLocal hrest
        | writeBin40 => simp only [hostAct, Host.Outcome.next.injEq] at h; subst h; exact acts_hostLocal hrest
        | writeCount => simp only [hostAct, Host.Outcome.next.injEq] at h; subst h; exact acts_hostLocal hrest
        | writeBin32 => simp only [hostAct, Host.Outcome.next.injEq] at h; subst h; exact acts_hostLocal hrest
    · exact acts_fetch hi h

/-- The turn of an event, or of a sample frame, runs it. -/
theorem runTurn_event {i : Instr} {τ : Turn} (h : turnOfEvent i = some τ) (s : State) : runTurn τ s = exec i s := by
  cases i <;> cases h <;> rfl

/-- All an event, or a sample frame, can do in its turn. -/
theorem acts_event {G : Prop} {τ : Turn} (i : Instr) {s t : State} (hi : turnOfEvent i = some τ)
    (h : runTurn τ s = .next t) : Acts G τ s t := by
  rw [runTurn_event hi] at h
  cases i <;> cases hi <;>
    exact acts_exec h (fun hr => by cases hr) (fun _ _ hr => by cases hr) (by simp) (by simp) (by simp)

/-- All a turn can do. -/
theorem acts_runTurn {s0 s t : State} {τ : Turn} (hg : Guarded s0 → Guarded s) (h : runTurn τ s = .next t) :
    Acts (Guarded s0) τ s t := by
  cases τ with
  | fg k =>
    exact acts_input (s' := { s with quota := k }) (turns := s.turns) (port := s.port) (hostIn := s.hostIn)
      (lineOut := s.lineOut) (slaveIn := s.slaveIn) (draws := s.draws) rfl (acts_fgTurn (fun g => hg g) h)
  | irq src =>
    simp only [runTurn, takeInterrupt, Host.Outcome.next.injEq] at h
    subst h
    split
    · exact .single (.irq src s ‹_›)
    · exact .refl
  | periph sample =>
    cases sample with
    | none => exact acts_event .evXferEnd rfl h
    | some v => exact acts_event (.sampleFrame v) rfl h
  | edge => exact acts_event .evEdge rfl h
  | slave bytes =>
    simp only [runTurn, slaveAnswer, Host.Outcome.next.injEq] at h
    subst h
    exact .single (.input _ s s.turns s.quota s.port s.hostIn s.lineOut _ s.draws)
  | host m =>
    simp only [runTurn, Host.Outcome.next.injEq] at h
    subst h
    cases m with
    | send bytes => exact .single (.input _ s s.turns s.quota _ s.hostIn s.lineOut s.slaveIn s.draws)
    | ask x => exact .single (.input _ s s.turns s.quota s.port _ s.lineOut s.slaveIn s.draws)
  | platform => exact acts_event .evReset rfl h

/-- ALL A STEP CAN DO: a chain of acts of the agent whose turn is next. -/
theorem step_acts {s t : State} (h : step s = .next t) : Acts (Guarded s) (nextTurn s).1 s t := by
  have e : ∃ turns d, (nextTurn s).2 = { s with turns := turns, draws := d } := by
    unfold nextTurn
    split
    · exact ⟨_, s.draws, rfl⟩
    · exact ⟨s.turns, _, rfl⟩
  obtain ⟨turns, d, e⟩ := e
  refine acts_input (s' := (nextTurn s).2) (turns := turns) (quota := s.quota) (port := s.port) (hostIn := s.hostIn)
    (lineOut := s.lineOut) (slaveIn := s.slaveIn) (draws := d) e (acts_runTurn (fun g => ?_) h)
  rw [e]
  exact g

/-- The bytes of an event, or of a sample frame, place its turn next. -/
theorem placeEvent_encode {i : Instr} {t : Turn} (h : turnOfEvent i = some t) (s : State) :
    placeEvent i.format (encode i) s = { s with turns := t :: s.turns } := by
  cases i <;> cases h <;> try rfl
  simp [placeEvent, decode, encode, Instr.format, decodeSampleFrame, append_extract24, turnOfEvent]

/-- Where nothing whole stands at the port FG looks at HOST's inputs. -/
theorem fetchRequest_waits {s : State} (h : portReady s = false) : fetchRequest s = hostTake s := by
  unfold portReady at h
  unfold fetchRequest
  split at h <;> simp_all

/-- What every act keeps, every step keeps. -/
theorem step_keeps {P : State → Prop} {s t : State} (h : step s = .next t)
    (hP : ∀ u v, Act (Guarded s) (nextTurn s).1 u v → P u → P v) (hs : P s) : P t := by
  have ha := step_acts h
  clear h
  induction ha with
  | refl => exact hs
  | tail _ hb ih => exact hP _ _ hb ih

end Sys2Proof.Machine
end

