-- ==== Sys2Proof/Laws/Effect.lean ====
section
/-! SUPPORT. All a micro-step, a handler or the end of a data phase can do to the block: a chain of named effects. An
invariant is shown effect by effect. -/

namespace Sys2Proof.Machine

/-- One effect on the block. `W` is what a well-formed state gives: sizes within the capacities. `fg` says whether FG has
it (else IRQ or PERIPH): only FG writes sizes and capture targets and enables edges; only IRQ records and disables. -/
inductive Effect (W : Prop) (fg : Bool) : State → State → Prop where
  | free (s : State) (slaveIn : List Byte) (outcomeIn : List PhaseOutcome) (startIn : List Bool) (draws : Nat) :
      Effect W fg s { s with slaveIn := slaveIn, outcomeIn := outcomeIn, startIn := startIn, draws := draws }
  | low (i : Nat) (s : State) : Effect W fg s (assertDrive i s)
  | high (i : Nat) (s : State) : Effect W fg s (deassert i s).1
  | fault (f : Byte) (s : State) (h : f = fStartWhileBusy ∨ f = fSampleSize) : Effect W fg s (raiseFault f s)
  | size (n : U32) (bs : List Byte) (s : State) (hf : fg = true) (h : W → n.toNat ≤ s.params.bufCap ∧ bs.length = n.toNat) :
      Effect W fg s (sizeWrite n bs s)
  | bus (p : PeriphState) (s : State) : Effect W fg s { s with periph := p }
  | phaseDone (b : Bool) (s : State) : Effect W fg s { s with xferDoneHw := b }
  | fill (bs : List Byte) (s : State) (h : W → bs.length ≤ s.params.bufCap) :
      Effect W fg s { s with rx := Cells.writeFrom s.rx 0 bs }
  | erase (n : Nat) (s : State) : Effect W fg s { s with rx := Cells.eraseBelow s.rx n }
  | log (r : BusRecord) (s : State) : Effect W fg s (emit r s)
  | status (k : Kind) (v : XferStatus) (s : State) : Effect W fg s (setStatus k v s)
  | last (cs : Byte) (s : State) : Effect W fg s { s with lastCs := some cs, lastCsV := true }
  | target (n : U32) (cs : Byte) (loc : Locals) (s : State) (hf : fg = true)
      (h : s.fg = .busy (.capStart cs n) .b loc) :
      Effect W fg s { s with capTarget := n }
  | clear (s : State) (hf : fg = true) : Effect W fg s { s with capCounter := 0, record := [] }
  | sample (v : U32) (s : State) (hf : fg = false) (h : s.capCounter < s.capTarget) :
      Effect W fg s { s with
        record := Cells.write s.record s.capCounter.toNat v, capCounter := s.capCounter + 1 }
  | line (cs : Byte) (s : State) (hf : fg = true) : Effect W fg s { s with capCs := some cs }
  | enable (cs : Byte) (n : U32) (loc : Locals) (s : State) (hf : fg = true)
      (h : s.fg = .busy (.capStart cs n) .g loc) :
      Effect W fg s { s with edgeEn := true }
  | disable (s : State) (hf : fg = false) (h : s.periph = .idle) : Effect W fg s { s with edgeEn := false, edgePend := false }
  | pend (k : Kind) (s : State) : Effect W fg s (setCplPend k s)

/-- A chain of effects. -/
abbrev Effects (W : Prop) (fg : Bool) : State → State → Prop := Relation.ReflTransGen (Effect W fg)

variable {W : Prop} {fg : Bool}

theorem Effect.one {s t : State} (e : Effect W fg s t) : Effects W fg s t := .single e

theorem Effects.to {s t u : State} (h : Effects W fg s t) (e : Effect W fg t u) : Effects W fg s u := h.tail e

/-- An effect writes neither the parameters, nor the binding, nor what FG and HOST hold. -/
theorem Effect.frame {s t : State} (h : Effect W fg s t) :
    t.params = s.params ∧ t.fg = s.fg ∧ t.bound = s.bound ∧ t.activeDriver = s.activeDriver ∧
      t.response = s.response ∧ t.hostProg = s.hostProg ∧ t.hostIn = s.hostIn ∧ t.lineOut = s.lineOut ∧
      t.port = s.port ∧ t.turns = s.turns ∧ t.quota = s.quota := by
  cases h <;> simp

theorem Effects.frame {s t : State} (h : Effects W fg s t) :
    t.params = s.params ∧ t.fg = s.fg ∧ t.bound = s.bound ∧ t.activeDriver = s.activeDriver ∧
      t.response = s.response ∧ t.hostProg = s.hostProg ∧ t.hostIn = s.hostIn ∧ t.lineOut = s.lineOut ∧
      t.port = s.port ∧ t.turns = s.turns ∧ t.quota = s.quota := by
  induction h with
  | refl => simp
  | tail _ h ih =>
    obtain ⟨h1, h2, h3, h4, h5, h6, h7, h8, h9, h10, h11⟩ := h.frame
    simp only [h1, h2, h3, h4, h5, h6, h7, h8, h9, h10, h11]
    exact ih

theorem effects_readBytes (m : Memory) (n : Nat) (s : State) : Effects W fg s (readBytes m n s).2 :=
  .single (.free s s.slaveIn s.outcomeIn s.startIn _)

theorem effects_known (v : Option Byte) (s : State) : Effects W fg s (known v s).2 := by
  cases v
  · exact .single (.free s s.slaveIn s.outcomeIn s.startIn _)
  · exact .refl

theorem effects_drawStart (s : State) : Effects W fg s (drawStart s).2 := by
  rw [drawStart_state]
  exact .single (.free s s.slaveIn s.outcomeIn _ _)

theorem effects_csAssert (cs : Byte) : MicroAll (Effects W fg) (microCsAssert cs) := by
  intro m loc s
  cases m <;> simp only [microCsAssert] <;> (repeat' split) <;> first | exact .refl | exact .single (.low _ _)

theorem effects_bufSetTx {n : U32} {bs : List Byte} {m : Micro} (loc : Locals) (s : State)
    (h : W → m ≠ .a → n.toNat ≤ s.params.bufCap ∧ bs.length = n.toNat) :
    Effects W true s (microBufSetTx n bs m loc s).state := by
  cases m <;> simp only [microBufSetTx] <;> (repeat' split) <;>
    first
    | exact .refl
    | exact .single (.size _ _ _ rfl fun w => h w (by simp))

theorem effects_bufReadRx : MicroAll (Effects W fg) microBufReadRx := by
  intro m loc s
  simp only [microBufReadRx, receivedView]
  split
  · exact .single (.free s s.slaveIn s.outcomeIn s.startIn _)
  · exact effects_readBytes _ _ _

theorem effects_sync (kind : SyncKind) (cs : Byte) (m : Micro) {loc : Locals} {s : State}
    (h : W → loc.n ≤ s.params.bufCap) : Effects W fg s (microSync kind cs m loc s).state := by
  cases m <;> simp only [microSync]
  case c => exact .single (.low _ _)
  case d =>
    split
    · exact .single (.fault _ _ (.inl rfl))
    · exact (effects_readBytes _ _ _).to (.bus _ _)
  case e =>
    simp only [MicroOut.state, syncDataPhase]
    have e1 : Effects W fg s (slaveBytes loc.n (drawOutcome s).2).2 := by
      rw [slaveBytes_state, drawOutcome_state]
      exact .single (.free s _ _ _ _)
    have e2 : Effects W fg s { (slaveBytes loc.n (drawOutcome s).2).2 with
        rx := syncRx kind (drawOutcome s).1 loc.n (slaveBytes loc.n (drawOutcome s).2).1
          (slaveBytes loc.n (drawOutcome s).2).2.rx } := by
      cases kind with
      | write => exact e1
      | rw =>
        cases (drawOutcome s).1 with
        | ok => exact e1.to (.fill _ _ fun w => by simpa [slaveBytes_length] using h w)
        | transferFailed => exact e1.to (.erase _ _)
        | timeout => exact e1.to (.erase _ _)
    exact (e2.to (.bus .idle _)).to (.log _ _)
  all_goals
    repeat' split
    all_goals first | exact .refl | exact .single (.high _ _)

theorem effects_startFailed (k : Kind) {s t : State} (h : Effects W fg s t) : Effects W fg s (startFailed k t).state :=
  h.to (.status k _ _)

theorem effects_asyncStart (k : Kind) (cs : Byte) : MicroAll (Effects W fg) (microAsyncStart k cs) := by
  intro m loc s
  cases m <;> simp only [microAsyncStart]
  case a => repeat' split
            all_goals first | exact .refl | exact effects_startFailed k .refl
  case b => split
            · exact .refl
            · exact effects_startFailed k .refl
  case c => exact (Effect.low cs.toNat s).one.to (.last cs _)
  case d =>
    have h : Effects W fg s (startPrimitive s).2 := by
      unfold startPrimitive
      split
      · exact .single (.fault _ _ (.inl rfl))
      · exact effects_drawStart s
    split
    · exact h.to (.bus _ _)
    · exact effects_startFailed k (h.to (.high cs.toNat _))
  all_goals exact .single (.status k _ _)

theorem effects_asyncStatus (k : Byte) : MicroAll (Effects W fg) (microAsyncStatus k) := by
  intro m loc s
  simp only [microAsyncStatus]
  split
  · exact .refl
  · exact effects_known _ _

theorem effects_capSlot (n : U32) : MicroAll (Effects W fg) (microCapSlot n) := by
  intro m loc s
  simp only [microCapSlot]
  repeat' split
  all_goals first | exact .refl | exact .single (.free s s.slaveIn s.outcomeIn s.startIn _)

/-- All one micro-step of the request in progress can do. -/
theorem micro_effects {i : Instr} {f : MicroFn} {m : Micro} {loc : Locals} {s : State} (hf : microOf s.params i = some f)
    (hb : s.fg = .busy i m loc) :
    Effects (s.params.legal = true ∧ phaseWf s.params s.fg = true) true s (f m loc s).state := by
  have size5 : s.params.legal = true → 5 ≤ s.params.bufCap := fun h => by
    simp only [Params.legal, Bool.and_eq_true, decide_eq_true_eq] at h; omega
  have hn : s.params.legal = true ∧ phaseWf s.params s.fg = true → loc.n ≤ s.params.bufCap := fun w => by
    have := w.2
    rw [hb] at this
    simp only [phaseWf, Bool.and_eq_true, decide_eq_true_eq] at this
    exact this.1.2
  cases i <;> simp only [microOf, Option.some.injEq, reduceCtorEq] at hf <;> subst hf
  case csAssert cs => exact effects_csAssert cs m loc s
  case csDeassert cs => exact .single (.high _ _)
  case bufSetSize n =>
    cases m <;> simp only [microBufSetSize] <;> (repeat' split) <;>
      first
      | exact .refl
      | exact .single (.size _ _ _ rfl fun w => by
          have := w.2
          rw [hb] at this
          simp only [phaseWf, Bool.and_eq_true, decide_eq_true_eq] at this
          exact ⟨this.2 (by simp), by simp [zeroBytes]⟩)
  case bufSetTx n bs =>
    refine effects_bufSetTx loc s fun w hm => ?_
    have := w.2
    rw [hb] at this
    simp only [phaseWf, Instr.wf, Bool.and_eq_true, decide_eq_true_eq, beq_iff_eq] at this
    exact ⟨this.2 hm, this.1.1.1⟩
  case bufReadRx => exact effects_bufReadRx m loc s
  case syncWrite cs => exact effects_sync .write cs m hn
  case syncRw cs => exact effects_sync .rw cs m hn
  case asyncRead cs => exact effects_asyncStart .rx cs m loc s
  case asyncRw cs => exact effects_asyncStart .txrx cs m loc s
  case asyncStatus k => exact effects_asyncStatus k m loc s
  case capStart cs n =>
    cases m <;> simp only [microCapStart]
    case a => split <;> exact .refl
    case b => exact .single (.target n cs loc s rfl hb)
    case c => exact .single (.clear s rfl)
    case d => exact .refl
    case e =>
      split
      · exact .single (.size _ _ _ rfl fun w =>
          ⟨le_trans (by decide) (size5 w.1), by simp [zeroBytes]⟩)
      · exact .refl
    case f => exact .single (.line cs s rfl)
    case g => exact .single (.enable cs n loc s rfl hb)
  case capCount => exact .refl
  case capSlot n => exact effects_capSlot n m loc s
  all_goals
    simp only [microRegWrite, microRegRead, sequenceMicro]
    split
    · exact .refl
    · rename_i g hg
      have hg := List.mem_of_getElem? hg
      have key : Effects (s.params.legal = true ∧ phaseWf s.params s.fg = true) true s (g m loc s).state := by
        simp only [List.mem_cons, List.not_mem_nil, or_false] at hg
        rcases hg with rfl | rfl | rfl <;>
        first
        | exact effects_bufSetTx loc s fun w _ => ⟨le_trans (by decide) (size5 w.1), by simp [frameW, frameR, bytes40]; decide⟩
        | exact effects_sync _ _ m hn
        | exact effects_bufReadRx m loc s
      split
      · rename_i h; rw [h] at key; exact key
      · rename_i h
        rw [h] at key
        split <;> exact key

theorem atomically_effects {f : MicroFn} (h : MicroAll (Effects W fg) f) (k : Nat) (m : Micro) (loc : Locals) (s : State) :
    Effects W fg s (atomically f k m loc s).1 := by
  induction k generalizing m loc s with
  | zero => exact .refl
  | succ k ih =>
    have := h m loc s
    unfold atomically
    cases hf : f m loc s with
    | go s' m' loc' => rw [hf] at this; exact this.trans (ih _ _ _)
    | ret s' rc d => rw [hf] at this; exact this

theorem effects_hook (k : Kind) (s : State) : Effects W false s (hook k s) := by
  unfold hook registerHook captureHook
  split
  · split
    · exact .single (.fault _ _ (.inr rfl))
    · split
      · exact .refl
      · rename_i h
        exact (effects_readBytes s.rx 3 s).to (.sample _ _ rfl (by simpa using h))
  · exact .refl

/-- All the edge handler and the completion handlers can do. -/
theorem handler_effects (src : IrqSource) (s : State) : Effects W false s (handler src s) := by
  cases src with
  | edge =>
    simp only [handler, edgeHandler]
    split
    · exact .refl
    · rename_i hp
      split
      · exact (effects_known _ _).trans (atomically_effects (effects_asyncStart _ _) _ _ _ _)
      · exact .single (.disable s rfl (by simpa using hp))
  | cpl k =>
    simp only [handler, completionHandler, releaseLast]
    refine Effects.to ?_ (.status k _ _)
    refine Effects.to ?_ (.high _ _)
    refine Relation.ReflTransGen.trans ?_ (effects_known _ _)
    refine Relation.ReflTransGen.trans ?_ (effects_hook k _)
    exact (Effect.phaseDone false s).one.to (.bus .idle _)

/-- All the end of a data phase can do. -/
theorem phaseEnd_effects (k : Kind) (miso : List Byte) (s : State) (h : W → miso.length ≤ s.params.bufCap) :
    Effects W false s (endDataPhase k miso s) := by
  have e1 : Effects W false s (asyncMosi k s).2 := by
    cases k
    · exact .refl
    · exact effects_readBytes s.tx _ s
  have e2 : Effects W false s (known (asyncMosi k s).2.lastCs (asyncMosi k s).2).2 := e1.trans (effects_known _ _)
  simp only [endDataPhase]
  refine Effects.to ?_ (.pend k _)
  refine Effects.to (t := { emit _ (known (asyncMosi k s).2.lastCs (asyncMosi k s).2).2 with
    rx := Cells.writeFrom (known (asyncMosi k s).2.lastCs (asyncMosi k s).2).2.rx 0 miso }) ?_ (.phaseDone true _)
  exact (e2.to (.log _ _)).to (.fill miso _ fun w => by
    have := h w
    cases k <;> simpa [asyncMosi] using this)

end Sys2Proof.Machine
end

