-- ==== Sys2Proof/Laws/PerInstr.lean ====
section
/-! SUPPORT. Statements made constructor by constructor (LAWS.json). `EncodedLength`: an instruction's encoding has as many
bytes as its format of spec/opcode_table.json, and the payload R97 adds to BUF.SETTX. -/

namespace Sys2Proof.Laws.EncodedLength

/-- The bytes of a format's word. -/
def formatBytes : Format → Nat
  | .req64 => 8
  | .event8 => 1
  | .frame40 => 5
  | .frame24 => 3

/-- The payload bytes after the word (R97). -/
def payloadBytes : Instr → Nat
  | .csAssert _ => 0
  | .csDeassert _ => 0
  | .bufSetSize _ => 0
  | .bufSetTx n _ => n.toNat
  | .bufReadRx => 0
  | .syncWrite _ => 0
  | .syncRw _ => 0
  | .asyncRead _ => 0
  | .asyncRw _ => 0
  | .asyncStatus _ => 0
  | .capStart _ _ => 0
  | .capCount => 0
  | .capSlot _ => 0
  | .evEdge => 0
  | .evXferEnd => 0
  | .evReset => 0
  | .regWriteFrame _ _ => 0
  | .regReadFrame _ => 0
  | .sampleFrame _ => 0

/-- A well-formed instruction's encoding has its format's bytes and its payload's. -/
def Statement (i : Instr) : Prop :=
  i.wf = true → (encode i).length = formatBytes i.format + payloadBytes i

theorem csAssert (cs : Byte) : Statement (.csAssert cs) := fun _ => rfl
theorem csDeassert (cs : Byte) : Statement (.csDeassert cs) := fun _ => rfl
theorem bufSetSize (n : U32) : Statement (.bufSetSize n) := fun _ => rfl

theorem bufSetTx (n : U32) (p : List Byte) : Statement (.bufSetTx n p) := fun h => by
  simp only [Instr.wf, beq_iff_eq] at h
  simp only [encode, reqWord, bytes32, List.length_append, List.length_cons, List.length_nil, h, formatBytes,
    payloadBytes, Instr.format]

theorem bufReadRx : Statement .bufReadRx := fun _ => rfl
theorem syncWrite (cs : Byte) : Statement (.syncWrite cs) := fun _ => rfl
theorem syncRw (cs : Byte) : Statement (.syncRw cs) := fun _ => rfl
theorem asyncRead (cs : Byte) : Statement (.asyncRead cs) := fun _ => rfl
theorem asyncRw (cs : Byte) : Statement (.asyncRw cs) := fun _ => rfl
theorem asyncStatus (k : Byte) : Statement (.asyncStatus k) := fun _ => rfl
theorem capStart (cs : Byte) (n : U32) : Statement (.capStart cs n) := fun _ => rfl
theorem capCount : Statement .capCount := fun _ => rfl
theorem capSlot (n : U32) : Statement (.capSlot n) := fun _ => rfl
theorem evEdge : Statement .evEdge := fun _ => rfl
theorem evXferEnd : Statement .evXferEnd := fun _ => rfl
theorem evReset : Statement .evReset := fun _ => rfl
theorem regWriteFrame (a : BitVec 7) (v : U32) : Statement (.regWriteFrame a v) := fun _ => rfl
theorem regReadFrame (a : BitVec 7) : Statement (.regReadFrame a) := fun _ => rfl
theorem sampleFrame (s : U24) : Statement (.sampleFrame s) := fun _ => rfl

end Sys2Proof.Laws.EncodedLength
end

