-- ==== Sys2Proof/Laws/Request.lean ====
section
/-! SUPPORT. Requests run whole: what SyncXfer (R160) and AsyncStart (R181) do from their first micro-step to their
response, with nothing between. -/

namespace Sys2Proof.Machine

/-- A request that a ready FG runs: it is taken, and has a turn of at least `k` micro-steps. -/
theorem exec_ready {k : Nat} {i : Instr} {f : MicroFn} {s : State} (h : Ready k s) (hf : microOf s.params i = some f) :
    ∃ r, exec i s = .next (runMicro i f (r + k) (accept i s)) := by
  obtain ⟨h1, h2⟩ := h
  exact ⟨s.quota - k, by rw [exec_request hf, runRequest_idle h1, Nat.sub_add_cancel h2]⟩

/-- A request in progress whose next micro-step answers. -/
theorem exec_answers {i : Instr} {f : MicroFn} {m : Micro} {loc : Locals} {s s' : State} {rc : ResultCode} {d : RespData}
    (hfg : s.fg = .busy i m loc) (hq : 1 ≤ s.quota) (hf : microOf s.params i = some f) (h : f m loc s = .ret s' rc d) :
    exec i s = .next (respond rc d s') := by
  rw [exec_request hf, runRequest, hfg]
  simp only [if_true]
  rw [show s.quota = s.quota - 1 + 1 by omega, runMicro_ret hfg h]

/-- A request that ends at its first micro-step. -/
theorem runMicro_first {i : Instr} {f : MicroFn} {s s' : State} {rc : ResultCode} {d : RespData} {k : Nat}
    (h : f .a {} (accept i s) = .ret s' rc d) : runMicro i f (k + 1) (accept i s) = respond rc d s' :=
  runMicro_ret rfl h

theorem atomically_go {f : MicroFn} {k : Nat} {m m' : Micro} {loc loc' : Locals} {s s' : State}
    (h : f m loc s = .go s' m' loc') : atomically f (k + 1) m loc s = atomically f k m' loc' s' := by
  simp [atomically, h]

theorem atomically_ret {f : MicroFn} {k : Nat} {m : Micro} {loc : Locals} {s s' : State} {rc : ResultCode}
    {d : RespData} (h : f m loc s = .ret s' rc d) : atomically f (k + 1) m loc s = (s', rc) := by
  simp [atomically, h]

/-! ### Host macros -/

/-- A micro-step of the request in progress that goes on. -/
theorem sequenceMicro_go {parts : List MicroFn} {f : MicroFn} {m m' : Micro} {loc loc' : Locals} {s s' : State}
    (h : parts[loc.stage]? = some f) (hf : f m loc s = .go s' m' loc') :
    sequenceMicro parts m loc s = .go s' m' { loc' with stage := loc.stage } := by
  simp [sequenceMicro, h, hf]

/-- A request that answers with another after it: the next one's first micro-step is next. -/
theorem sequenceMicro_next {parts : List MicroFn} {f : MicroFn} {m : Micro} {loc : Locals} {s s' : State}
    {rc : ResultCode} {d : RespData} (h : parts[loc.stage]? = some f) (hl : loc.stage + 1 < parts.length)
    (hf : f m loc s = .ret s' rc d) : sequenceMicro parts m loc s = .go s' .a { stage := loc.stage + 1 } := by
  simp [sequenceMicro, h, hf, hl]

/-- The last request's answer is the macro's. -/
theorem sequenceMicro_last {parts : List MicroFn} {f : MicroFn} {m : Micro} {loc : Locals} {s s' : State}
    {rc : ResultCode} {d : RespData} (h : parts[loc.stage]? = some f) (hl : ¬ loc.stage + 1 < parts.length)
    (hf : f m loc s = .ret s' rc d) : sequenceMicro parts m loc s = .ret s' rc d := by
  simp [sequenceMicro, h, hf, hl]

/-! ### Prefixes of the stores -/

/-- What a cell holds after a run of writes from cell 0. -/
theorem prefixHolds_writeFrom (m : Memory) (bs : List Byte) : PrefixHolds m (Cells.writeFrom m 0 bs) bs.length bs := by
  intro j
  rw [Cells.read_writeFrom]
  simp

/-- What a cell holds after the first `n` are made unknown. -/
theorem prefixHolds_eraseBelow (m : Memory) (n : Nat) : PrefixHolds m (Cells.eraseBelow m n) n [] := by
  intro j
  rw [Cells.read_eraseBelow]
  simp

theorem assertCheck_ok_of_may {cs : Byte} {s : State} (h1 : cs.toNat < s.params.nCs) (h2 : lowCount s = 0) :
    assertCheck cs.toNat s = .ok := assertCheck_eq_ok.2 ⟨h1, h2⟩

/-! ### SyncXfer -/

/-- SyncXfer's micro-steps (a) to (c) where nothing stands in the way: the line is low. -/
theorem runMicro_sync_select {kind : SyncKind} {cs : Byte} {i : Instr} {s : State} {k : Nat} (h : MayTransfer cs s)
    (hfg : s.fg = .busy i .a {}) :
    runMicro i (microSync kind cs) (k + 3) s = runMicro i (microSync kind cs) k
      { s with fg := .busy i .d {}, csLevel := s.csLevel.set cs.toNat false, busLog := s.busLog ++ [.csLow cs.toNat] } := by
  obtain ⟨h1, h2, h3, h4, -⟩ := h
  have ha : microSync kind cs .a {} s = .go s .b {} := by
    have h2' : ¬ s.bufSize = 0#32 := h2
    simp [microSync, h1, h2']
  have hb : microSync kind cs .b {} (continueAt i .b {} s) = .go (continueAt i .b {} s) .c {} := by
    exact if_pos (assertCheck_ok_of_may (s := continueAt i .b {} s) h3 h4)
  have hc : microSync kind cs .c {} (continueAt i .c {} (continueAt i .b {} s)) =
      .go { s with fg := .busy i .c {}, csLevel := s.csLevel.set cs.toNat false,
                   busLog := s.busLog ++ [.csLow cs.toNat] } .d {} := by
    simp only [microSync]
    rw [assertDrive_of_none_low (by exact h4)]
    rfl
  rw [runMicro_go (k := k + 2) hfg ha, runMicro_go (k := k + 1) rfl hb, runMicro_go (k := k) rfl hc]
  rfl

/-- SyncXfer run whole (R160): the response is the drawn outcome's code, and all that changes is RX, the log, and the
environment's answers taken. -/
theorem runMicro_sync {kind : SyncKind} {cs : Byte} {i : Instr} {s : State} (r : Nat) (h : MayTransfer cs s)
    (hfg : s.fg = .busy i .a {}) :
    runMicro i (microSync kind cs) (r + 6) s =
      respond (outcomeCode (drawOutcome (readBytes s.tx s.bufSize.toNat s).2).1) .nothing
        { s with
          rx := syncRx kind (drawOutcome (readBytes s.tx s.bufSize.toNat s).2).1 s.bufSize.toNat
            (slaveBytes s.bufSize.toNat (drawOutcome (readBytes s.tx s.bufSize.toNat s).2).2).1 s.rx
          busLog := s.busLog ++ [.csLow cs.toNat,
            syncRecord kind cs.toNat (drawOutcome (readBytes s.tx s.bufSize.toNat s).2).1 s.bufSize.toNat
              (readBytes s.tx s.bufSize.toNat s).1
              (slaveBytes s.bufSize.toNat (drawOutcome (readBytes s.tx s.bufSize.toNat s).2).2).1,
            .csHigh cs.toNat]
          slaveIn := s.slaveIn.drop s.bufSize.toNat
          outcomeIn := s.outcomeIn.tail
          draws := s.draws + s.bufSize.toNat + 1 + s.bufSize.toNat } := by
  have hp := h.2.2.2.2
  have h3 := h.2.2.1
  have hl := lowCount_eq_zero.1 h.2.2.2.1
  rw [runMicro_sync_select (k := r + 3) h hfg]
  rw [runMicro_go (k := r + 2) rfl (show microSync kind cs .d {} _ = _ from if_neg (by simp [hp]))]
  rw [runMicro_go (k := r + 1) rfl (show microSync kind cs .e _ _ = _ from rfl)]
  rw [runMicro_ret (k := r) rfl (show microSync kind cs .f _ _ = _ from rfl)]
  rw [deassert_idle (by exact h3) rfl]
  simp only [respond, syncDataPhase, emit, syncBegin, drawOutcome, slaveBytes, readBytes, List.set_set,
    set_true_of_all hl, continueAt, setPeriph, hp, List.append_assoc, List.cons_append, List.nil_append]

/-! ### AsyncStart -/

theorem startSelect_of_none_low {cs : Byte} {s : State} (h : lowCount s = 0) :
    startSelect cs s = { s with
      csLevel := s.csLevel.set cs.toNat false, busLog := s.busLog ++ [.csLow cs.toNat], lastCs := some cs,
      lastCsV := true } := by
  rw [startSelect, assertDrive_of_none_low h]

theorem startPrimitive_idle {s : State} (h : s.periph = .idle) : startPrimitive s = drawStart s := by
  simp [startPrimitive, h]

/-- AsyncStart's micro-steps (a) and (b) where nothing stands in the way. -/
theorem microAsyncStart_a {k : Kind} {cs : Byte} {s : State} (h : MayTransfer cs s) :
    microAsyncStart k cs .a {} s = .go s .b {} := by
  have h2' : ¬ s.bufSize = 0#32 := h.2.1
  simp [microAsyncStart, h.1, h2']

theorem microAsyncStart_b {k : Kind} {cs : Byte} {s : State} (h1 : cs.toNat < s.params.nCs) (h2 : lowCount s = 0) :
    microAsyncStart k cs .b {} s = .go s .c {} := by
  simp only [microAsyncStart]
  rw [if_pos (assertCheck_ok_of_may h1 h2)]

/-- AsyncStart run whole, where nothing stands in the way and the primitive starts (R181). -/
theorem runMicro_start {k : Kind} {cs : Byte} {i : Instr} {s : State} (r : Nat) (h : MayTransfer cs s)
    (hfg : s.fg = .busy i .a {}) (hd : (drawStart s).1 = true) :
    runMicro i (microAsyncStart k cs) (r + 5) s =
      respond .ok .nothing (setStatus k { done := false, result := some 0x00 }
        { s with
          csLevel := s.csLevel.set cs.toNat false, busLog := s.busLog ++ [.csLow cs.toNat], lastCs := some cs,
          lastCsV := true, periph := asyncPeriph k, startIn := s.startIn.tail, draws := s.draws + 1 }) := by
  have hp := h.2.2.2.2
  have h4 := h.2.2.2.1
  rw [runMicro_go (k := r + 4) hfg (microAsyncStart_a h),
    runMicro_go (k := r + 3) rfl (microAsyncStart_b (by exact h.2.2.1) (by exact h4)),
    runMicro_go (k := r + 2) rfl (show microAsyncStart k cs .c {} _ = _ from rfl),
    startSelect_of_none_low (by exact h4),
    runMicro_go (k := r + 1) rfl
      (show microAsyncStart k cs .d {} _ = _ from if_pos (by rw [startPrimitive_idle (by exact hp)]; exact hd)),
    runMicro_ret (k := r) rfl (show microAsyncStart k cs .e _ _ = _ from rfl), startPrimitive_idle (by exact hp)]
  cases k <;> rfl

/-- AsyncStart run whole, where nothing stands in the way and the primitive reports failure (R181 (d)). -/
theorem runMicro_start_fails {k : Kind} {cs : Byte} {i : Instr} {s : State} (r : Nat) (h : MayTransfer cs s)
    (hfg : s.fg = .busy i .a {}) (hd : (drawStart s).1 = false) :
    runMicro i (microAsyncStart k cs) (r + 4) s =
      respond .error .nothing (setResult k .error
        { s with
          busLog := s.busLog ++ [.csLow cs.toNat, .csHigh cs.toNat], lastCs := some cs, lastCsV := true,
          startIn := s.startIn.tail, draws := s.draws + 1 }) := by
  have hp := h.2.2.2.2
  have h4 := h.2.2.2.1
  have hd' : ¬ s.startIn.headD (Config.freeStart s.draws) = true := by simpa [drawStart] using hd
  rw [runMicro_go (k := r + 3) hfg (microAsyncStart_a h),
    runMicro_go (k := r + 2) rfl (microAsyncStart_b (by exact h.2.2.1) (by exact h4)),
    runMicro_go (k := r + 1) rfl (show microAsyncStart k cs .c {} _ = _ from rfl),
    startSelect_of_none_low (by exact h4),
    runMicro_ret (k := r) rfl
      (show microAsyncStart k cs .d {} _ = _ from if_neg (by rw [startPrimitive_idle (by exact hp)]; exact hd')),
    startPrimitive_idle (by exact hp), deassert_idle (by exact h.2.2.1) (by exact hp)]
  cases k <;> simp [respond, setResult, setStatus, statusOf, drawStart, continueAt,
    set_true_of_all (lowCount_eq_zero.1 h4)]

/-- What makes a start fail its preconditions (R181 (a), (b)). -/
def StartBlocked (cs : Byte) (s : State) : Prop :=
  s.bound = false ∨ s.bufSize = 0 ∨ s.params.nCs ≤ cs.toNat ∨ 0 < lowCount s

theorem assertCheck_ne_ok {i : Nat} {s : State} (h : s.params.nCs ≤ i ∨ 0 < lowCount s) : assertCheck i s ≠ .ok := by
  rw [Ne, assertCheck_eq_ok]
  omega

/-- AsyncStart run whole with a failed precondition: RESULT <- ERROR, and nothing else. -/
theorem runMicro_start_blocked {k : Kind} {cs : Byte} {i : Instr} {s : State} (r : Nat) (h : StartBlocked cs s)
    (hfg : s.fg = .busy i .a {}) :
    runMicro i (microAsyncStart k cs) (r + 2) s = respond .error .nothing (setResult k .error s) := by
  by_cases hb : s.bound = false
  · exact runMicro_ret (k := r + 1) hfg (by simp [microAsyncStart, hb, startFailed])
  · by_cases hs : s.bufSize = 0
    · exact runMicro_ret (k := r + 1) hfg (by simp [microAsyncStart, hb, hs, startFailed])
    · have ha : microAsyncStart k cs .a {} s = .go s .b {} := by
        have hs' : ¬ s.bufSize = 0#32 := hs
        simp [microAsyncStart, hb, hs']
      have hc : assertCheck cs.toNat (continueAt i .b {} s) ≠ .ok :=
        assertCheck_ne_ok ((h.resolve_left hb).resolve_left hs)
      rw [runMicro_go (k := r + 1) hfg ha,
        runMicro_ret (k := r) rfl (show microAsyncStart k cs .b {} _ = _ from if_neg hc)]
      cases k <;> rfl

/-- AsyncStart as IRQ runs it, where nothing stands in the way and the primitive starts (R212). -/
theorem asyncStart_starts {k : Kind} {cs : Byte} {s : State} (h : MayTransfer cs s) (hd : (drawStart s).1 = true) :
    asyncStart k cs s = (setStatus k { done := false, result := some 0x00 }
      { s with
        csLevel := s.csLevel.set cs.toNat false, busLog := s.busLog ++ [.csLow cs.toNat], lastCs := some cs,
        lastCsV := true, periph := asyncPeriph k, startIn := s.startIn.tail, draws := s.draws + 1 }, .ok) := by
  have hp := h.2.2.2.2
  rw [asyncStart, atomically_go (microAsyncStart_a h), atomically_go (microAsyncStart_b h.2.2.1 h.2.2.2.1),
    atomically_go (show microAsyncStart k cs .c {} _ = _ from rfl), startSelect_of_none_low h.2.2.2.1,
    atomically_go
      (show microAsyncStart k cs .d {} _ = _ from if_pos (by rw [startPrimitive_idle (by exact hp)]; exact hd)),
    atomically_ret (show microAsyncStart k cs .e _ _ = _ from rfl), startPrimitive_idle (by exact hp)]
  cases k <;> rfl

/-- AsyncStart as IRQ runs it, where nothing stands in the way and the primitive reports failure (R212, R181 (d)). -/
theorem asyncStart_fails {k : Kind} {cs : Byte} {s : State} (h : MayTransfer cs s) (hd : (drawStart s).1 = false) :
    asyncStart k cs s = (setResult k .error
      { s with
        busLog := s.busLog ++ [.csLow cs.toNat, .csHigh cs.toNat], lastCs := some cs, lastCsV := true,
        startIn := s.startIn.tail, draws := s.draws + 1 }, .error) := by
  have hp := h.2.2.2.2
  have h4 := h.2.2.2.1
  have hd' : ¬ s.startIn.headD (Config.freeStart s.draws) = true := by simpa [drawStart] using hd
  rw [asyncStart, atomically_go (microAsyncStart_a h), atomically_go (microAsyncStart_b h.2.2.1 h4),
    atomically_go (show microAsyncStart k cs .c {} _ = _ from rfl), startSelect_of_none_low h4,
    atomically_ret
      (show microAsyncStart k cs .d {} _ = _ from if_neg (by rw [startPrimitive_idle (by exact hp)]; exact hd')),
    startPrimitive_idle (by exact hp), deassert_idle (by exact h.2.2.1) (by exact hp)]
  cases k <;> simp [setResult, setStatus, statusOf, drawStart, set_true_of_all (lowCount_eq_zero.1 h4)]

/-- A start on a busy bus is a fault, and fails (R181 (d)). -/
theorem startPrimitive_busy {s : State} (h : s.periph ≠ .idle) : startPrimitive s = (false, raiseFault fStartWhileBusy s) :=
  if_pos h

/-- AsyncStart as IRQ runs it with a failed precondition. -/
theorem asyncStart_blocked {k : Kind} {cs : Byte} {s : State} (h : StartBlocked cs s) :
    asyncStart k cs s = (setResult k .error s, .error) := by
  rw [asyncStart]
  by_cases hb : s.bound = false
  · exact atomically_ret (by simp only [microAsyncStart, hb, startFailed, if_true]; rfl)
  · by_cases hs : s.bufSize = 0
    · exact atomically_ret (by simp only [microAsyncStart, hb, hs, startFailed, if_true]; rfl)
    · have ha : microAsyncStart k cs .a {} s = .go s .b {} := by
        have hs' : ¬ s.bufSize = 0#32 := hs
        simp [microAsyncStart, hb, hs']
      have hc : assertCheck cs.toNat s ≠ .ok := assertCheck_ne_ok ((h.resolve_left hb).resolve_left hs)
      rw [atomically_go ha]
      exact atomically_ret (show microAsyncStart k cs .b {} s = _ from if_neg hc)

/-! ### Interrupts -/

/-- An interrupt that is pending is taken under any order. -/
theorem takeInterrupt_any {src : IrqSource} {s : State} (h1 : s.params.irqOrder = .any) (h2 : pending src s = true) :
    takeInterrupt src s = handler src (acknowledge src s) := by
  simp [takeInterrupt, mayTake, h1, h2]

/-- On a busy bus the edge handler does nothing. -/
theorem edgeHandler_busy {s : State} (h : s.periph ≠ .idle) : edgeHandler s = s := if_pos h

/-- On an idle bus with c = 0 or c < t the edge handler starts a receive on CAP_CS. -/
theorem edgeHandler_starts {s : State} (h : s.periph = .idle) (hc : s.capCounter = 0 ∨ s.capCounter < s.capTarget) :
    edgeHandler s = (asyncStart .rx (known s.capCs s).1 (known s.capCs s).2).1 :=
  (if_neg (by simp [h])).trans (if_pos hc)

/-- On an idle bus with 0 < c and t ≤ c the edge handler disables the edge interrupt. -/
theorem edgeHandler_disables {s : State} (h : s.periph = .idle) (hc : ¬ (s.capCounter = 0 ∨ s.capCounter < s.capTarget)) :
    edgeHandler s = disableEdge s :=
  (if_neg (by simp [h])).trans (if_neg hc)

/-- The hook of the receive kind under the capture driver. -/
theorem hook_capture {s : State} (h : s.activeDriver = .capture) : hook .rx s = captureHook s := if_pos ⟨h, rfl⟩

/-- Every other hook does nothing. -/
theorem hook_register {k : Kind} {s : State} (h : s.activeDriver = .register ∨ k = .txrx) : hook k s = s :=
  if_neg (by rcases h with h | h <;> simp [h])

/-- The sample of three received bytes. -/
theorem receivedSample_of_read {s : State} {b0 b1 b2 : Byte} (h0 : Cells.read s.rx 0 = some b0)
    (h1 : Cells.read s.rx 1 = some b1) (h2 : Cells.read s.rx 2 = some b2) :
    receivedSample s = (slotOfSample (sample24 b0 b1 b2), { s with draws := s.draws + 3 }) := by
  simp [receivedSample, readBytes, h0, h1, h2, List.range_succ]

/-- A slot's value is the three bytes' weighted sum (R217). -/
theorem slotOfSample_eq (b0 b1 b2 : Byte) :
    slotOfSample (sample24 b0 b1 b2) = BitVec.ofNat 32 (b0.toNat * 2 ^ 16 + b1.toNat * 2 ^ 8 + b2.toNat) := by
  have e : (sample24 b0 b1 b2).toNat = b0.toNat * 65536 + b1.toNat * 256 + b2.toNat := by
    unfold sample24
    rw [BitVec.toNat_append, BitVec.toNat_append, ← Nat.shiftLeft_add_eq_or_of_lt b2.isLt,
      ← Nat.shiftLeft_add_eq_or_of_lt b1.isLt, Nat.shiftLeft_eq, Nat.shiftLeft_eq]
    omega
  rw [slotOfSample, ← BitVec.ofNat_toNat, e]
  simp only [Nat.reducePow]

/-- CaptureHook on a transfer that is not 3 bytes. -/
theorem captureHook_size {s : State} (h : s.bufSize.toNat ≠ Config.sampleBytes) :
    captureHook s = raiseFault fSampleSize s := if_pos h

/-- CaptureHook at c ≥ t. -/
theorem captureHook_full {s : State} (h : s.bufSize.toNat = Config.sampleBytes) (hc : s.capTarget ≤ s.capCounter) :
    captureHook s = s := (if_neg (by simp [h])).trans (if_pos hc)

/-- CaptureHook at c < t. -/
theorem captureHook_stores {s : State} (h : s.bufSize.toNat = Config.sampleBytes) (hc : s.capCounter < s.capTarget) :
    captureHook s = recordSample (receivedSample s).1 (receivedSample s).2 :=
  (if_neg (by simp [h])).trans (if_neg (by simpa using hc))

/-- All CaptureHook writes: the record, the counter, FAULTS, and the count of free values. -/
theorem captureHook_state (s : State) : ∃ record capCounter faults draws, captureHook s =
    { s with record := record, capCounter := capCounter, faults := faults, draws := draws } := by
  unfold captureHook
  split
  · exact ⟨s.record, s.capCounter, _, s.draws, rfl⟩
  · split
    · exact ⟨s.record, s.capCounter, s.faults, s.draws, rfl⟩
    · exact ⟨_, _, s.faults, _, rfl⟩

/-- An edge handler keeps the record and the counter. -/
theorem asyncStart_record (k : Kind) (cs : Byte) (s : State) :
    (asyncStart k cs s).1.record = s.record ∧ (asyncStart k cs s).1.capCounter = s.capCounter := by
  have one : MicroAll (fun s t => t.record = s.record ∧ t.capCounter = s.capCounter) (microAsyncStart k cs) := by
    intro m loc s
    cases m <;> simp only [microAsyncStart] <;> (repeat' split) <;>
      simp [MicroOut.state, startFailed, startPrimitive] <;> split <;> simp
  have all : ∀ n m loc s, (atomically (microAsyncStart k cs) n m loc s).1.record = s.record ∧
      (atomically (microAsyncStart k cs) n m loc s).1.capCounter = s.capCounter := by
    intro n
    induction n with
    | zero => exact fun m loc s => ⟨rfl, rfl⟩
    | succ n ih =>
      intro m loc s
      have h := one m loc s
      unfold atomically
      cases hf : microAsyncStart k cs m loc s with
      | go s' m' loc' =>
        simp only [hf, MicroOut.state] at h
        rw [← h.1, ← h.2]
        exact ih _ _ _
      | ret s' rc d => simpa [hf, MicroOut.state] using h
  exact all 5 .a {} s

/-! ### Runs -/

/-- A run goes on from the step's next state. -/
theorem run_of_step {k : Nat} {s t : State} (h : step s = .next t) :
    Sys2Proof.core.run (k + 1) s = Sys2Proof.core.run k t := by
  have e : Sys2Proof.core.step s = .next t := h
  simp [Host.Core.run, e]

end Sys2Proof.Machine
end

