-- ==== Sys2Proof/Tests/Slice0.lean ====
section
/-! SUPPORT. The model's own tests. Expected results come from the encodings of spec/30_encoding.md and from the vectors of
spec/95_test_vectors.md, by their names there; a start state is written down from the vector's own start column. -/

namespace Sys2Proof.Tests

open Sys2Proof Sys2Proof.Machine

/-! ### The parameter sets and start states of spec/95_test_vectors.md -/

/-- Parameter set P0. -/
def p0 : Params where
  nCs          := 2
  bufCap       := 8
  recordCap    := 8
  csReg        := 0
  csCap        := 1
  handleBound  := true
  activeDriver := .capture
  syncTimeout  := 0
  irqOrder     := .any
  parseStrict  := true
  wregRange    := .u64AsPacked
  portBase     := 0
  asyncEnds    := true

/-- Parameter set P1. -/
def p1 : Params := { p0 with activeDriver := .register }

/-- Parameter set P0u. -/
def p0u : Params := { p0 with handleBound := false }

/-- R under a parameter set, with a turn of FG long enough for any request. -/
def start (p : Params) : State := { State.initial p with quota := 16 }

/-- R + BUF.SETSIZE 3. -/
def sized : State := { start p0 with bufSize := 3, tx := [(0, 0), (1, 0), (2, 0)] }

/-- R + CAP.START 1, 5. -/
def armed : State := { sized with capTarget := 5, capCs := some 1, edgeEn := true }

/-- `s` with a receive in flight on line 1. -/
def inFlight (s : State) : State :=
  { s with csLevel := [true, false], lastCs := some 1, lastCsV := true, periph := .asyncRx,
           statusRx := { done := false, result := some 0x00 } }

/-- `inFlight s` after its data phase has ended with the bytes 12 34 56. -/
def ended (s : State) : State :=
  { inFlight s with rx := [(0, 0x12), (1, 0x34), (2, 0x56)], xferDoneHw := true, cplRx := true }

/-- Whether the machine goes on, to a state with a property. -/
def goesTo (o : Host.Outcome State Fault Refusal) (p : State → Bool) : Bool :=
  match o with
  | .next t => p t
  | _ => false

/-- Whether a state holds this response. -/
def answers (t : State) (rc : ResultCode) (data : RespData) : Bool :=
  decide (t.response = some { rc := rc, data := data })

/-- Why a decoder answered no instruction. -/
def reason (d : Decoded) : Option Reject :=
  match d with
  | .ok _ => none
  | .error r => some r

/-! ### Well-formedness and decoding -/

/-- R97: a BUF.SETTX whose length field is not its payload's length is refused. -/
theorem test_wf_refuses_wrong_payload_length :
    (Instr.bufSetTx 2 [0x01]).wf = false ∧ (Instr.bufSetTx 0 [0x01]).wf = false ∧
    (Instr.bufSetTx 2 [0xAA, 0xBB]).wf = true := by decide

/-- R94: the words of the chip-select and buffer requests. -/
theorem test_decode_select_and_buffer :
    decodeTableWord 64 0x0100000000000000 = some (.csAssert 0) ∧
    decodeTableWord 64 0x01FF000000000000 = some (.csAssert 255) ∧
    decodeTableWord 64 0x0201000000000000 = some (.csDeassert 1) ∧
    decodeTableWord 64 0x10000000FFFFFFFF = some (.bufSetSize 0xFFFFFFFF) ∧
    decodeTableWord 64 0x1100000000000002 = some (.bufSetTx 2 [0, 0]) ∧
    decodeTableWord 64 0x1200000000000000 = some .bufReadRx := by decide

/-- R94: the words of the transfer and capture requests. -/
theorem test_decode_transfers_and_capture :
    decodeTableWord 64 0x2002000000000000 = some (.syncWrite 2) ∧
    decodeTableWord 64 0x2105000000000000 = some (.syncRw 5) ∧
    decodeTableWord 64 0x3001000000000000 = some (.asyncRead 1) ∧
    decodeTableWord 64 0x3100000000000000 = some (.asyncRw 0) ∧
    decodeTableWord 64 0x3202000000000000 = some (.asyncStatus 2) ∧
    decodeTableWord 64 0x4001000000000005 = some (.capStart 1 5) ∧
    decodeTableWord 64 0x4100000000000000 = some .capCount ∧
    decodeTableWord 64 0x4200000000000008 = some (.capSlot 8) := by decide

/-- R100, R110, R111, R112: the events and the frames. -/
theorem test_decode_events_and_frames :
    decodeTableWord 8 0x01 = some .evEdge ∧ decodeTableWord 8 0x02 = some .evXferEnd ∧
    decodeTableWord 8 0x03 = some .evReset ∧
    decodeTableWord 40 0x010000ABCD = some (.regWriteFrame 1 0xABCD) ∧
    decodeTableWord 40 0x8100000000 = some (.regReadFrame 1) ∧
    decodeTableWord 24 0x123456 = some (.sampleFrame 0x123456) := by decide

/-- R97: the payload is consumed with the word, in order, and the next word starts after it (B7, DEC15). -/
theorem test_decode_takes_the_payload :
    (decode .req64 [0x11, 0, 0, 0, 0, 0, 0, 2, 0xAA, 0xBB, 0x12]).toOption =
      some (.bufSetTx 2 [0xAA, 0xBB], [0x12]) ∧
    (decode .req64 [0x11, 0, 0, 0, 0, 0, 0, 0, 0x12, 0]).toOption = some (.bufSetTx 0 [], [0x12, 0]) ∧
    reason (decode .req64 [0x11, 0, 0, 0, 0, 0, 0, 2, 0xAA]) = some .truncated := by decide

/-- DEC1 to DEC12, and the reserved event codes and read frames (R100, R113). -/
theorem test_decode_refuses_reserved :
    [0x0000000000000000, 0x0300000000000000, 0x4300000000000000, 0xFFFFFFFFFFFFFFFF, 0x0100000100000000,
     0x0100800000000000, 0x0100000000000001, 0x1005000000000003, 0x1201000000000000, 0x4100000000000001,
     0x4201000000000000, 0x2000000000000005].map (fun w => reason (decode .req64 (tableBytes 64 w))) =
      List.replicate 12 (some .illegalWord) ∧
    [0x00, 0x04, 0xFF].map (decodeTableWord 8) = [none, none, none] ∧
    reason (decode .frame40 [0x82, 0, 0, 0, 1]) = some .reservedFrame := by decide

/-! ### Chip select -/

/-- CS6, and CS2 and CS5 with line 0 low. -/
theorem test_csAssert :
    goesTo (exec (.csAssert 1) (start p0)) (fun t =>
      answers t .ok .nothing && t.csLevel == [true, false] && t.busLog == [.csLow 1]) = true ∧
    goesTo (exec (.csAssert 1) { start p0 with csLevel := [false, true] }) (fun t =>
      answers t .selectConflict .nothing && t.csLevel == [false, true] && t.busLog == []) = true ∧
    goesTo (exec (.csAssert 2) { start p0 with csLevel := [false, true] }) (fun t =>
      answers t .invalidIndex .nothing) = true := by decide

/-- CS14 and CS15, from the moment after the edge handler's start on line 1: FG's micro-step (b). -/
theorem test_csAssert_after_edge_handler :
    goesTo (exec (.csAssert 0) { inFlight armed with fg := .busy (.csAssert 0) .b {} }) (fun t =>
      answers t .ok .nothing && t.csLevel == [false, false] && t.faults == 0x01) = true ∧
    goesTo (exec (.csAssert 1) { inFlight armed with fg := .busy (.csAssert 1) .b {} }) (fun t =>
      answers t .ok .nothing && t.csLevel == [true, false] && t.faults == 0x00) = true := by decide

/-- CS12 and CS13. -/
theorem test_csDeassert_in_flight :
    goesTo (exec (.csDeassert 1) (inFlight sized)) (fun t =>
      answers t .ok .nothing && t.csLevel == [true, true] && t.faults == 0x02 && t.busLog == [.csHigh 1]) = true ∧
    goesTo (exec (.csDeassert 0) (inFlight sized)) (fun t =>
      answers t .ok .nothing && t.csLevel == [true, false] && t.faults == 0x00 && t.busLog == [.csHigh 0]) = true := by
  decide

/-- CS9 and CS11. -/
theorem test_csDeassert_idle :
    goesTo (exec (.csDeassert 1) { start p0 with csLevel := [false, true] }) (fun t =>
      answers t .ok .nothing && t.csLevel == [false, true] && t.busLog == [.csHigh 1]) = true ∧
    goesTo (exec (.csDeassert 255) (start p0)) (fun t => answers t .invalidIndex .nothing && t.busLog == []) = true := by
  decide

/-! ### Buffer -/

/-- B10, and B5: BUSY before CAPACITY_EXCEEDED. -/
theorem test_bufSetSize :
    goesTo (exec (.bufSetSize 2) { start p0 with bufSize := 2, tx := [(0, 0xAA), (1, 0xBB)], rx := [(0, 0x11)] })
      (fun t => answers t .ok .nothing && t.bufSize == 2 && t.tx == [(0, 0), (1, 0)] && t.rx == []) = true ∧
    goesTo (exec (.bufSetSize 9) (inFlight sized)) (fun t => answers t .busy .nothing && t.bufSize == 3) = true ∧
    goesTo (exec (.bufSetSize 9) sized) (fun t => answers t .capacityExceeded .nothing && t.bufSize == 3) = true := by
  decide

/-- B17, from the moment after the edge handler's start: FG's micro-step (b). -/
theorem test_bufSetSize_after_edge_handler :
    goesTo (exec (.bufSetSize 3) { inFlight armed with fg := .busy (.bufSetSize 3) .b {} }) (fun t =>
      answers t .ok .nothing && t.faults == 0x08 && t.bufSize == 3 && decide (t.periph = .asyncRx)) = true := by decide

/-- B7 and B8. -/
theorem test_bufSetTx :
    goesTo (exec (.bufSetTx 2 [0xAA, 0xBB]) (start p0)) (fun t =>
      answers t .ok .nothing && t.bufSize == 2 && t.tx == [(0, 0xAA), (1, 0xBB)] && t.rx == []) = true ∧
    goesTo (exec (.bufSetTx 9 [0, 1, 2, 3, 4, 5, 6, 7, 8]) (start p0)) (fun t =>
      answers t .capacityExceeded .nothing && t.bufSize == 0 && t.tx == []) = true := by decide

/-- B11 and B13. -/
theorem test_bufReadRx :
    goesTo (exec .bufReadRx { start p0 with bufSize := 2, rx := [(0, 0x11), (1, 0x22), (2, 0x33)] }) (fun t =>
      answers t .ok (.bytes [0x11, 0x22])) = true ∧
    goesTo (exec .bufReadRx (start p0)) (fun t => answers t .ok (.bytes [])) = true := by decide

/-! ### Synchronous engine -/

/-- S7 and S8. -/
theorem test_syncWrite_outcomes :
    goesTo (exec (.syncWrite 0) { start p0 with bufSize := 2, tx := [(0, 1), (1, 2)], outcomeIn := [.ok] }) (fun t =>
      answers t .ok .nothing && t.csLevel == [true, true] && t.rx == [] && t.busLog ==
        [.csLow 0, .data .syncTx 0 [some 1, some 2] [none, none] .ok, .csHigh 0]) = true ∧
    goesTo (exec (.syncWrite 0) { start p0 with bufSize := 2, tx := [(0, 1), (1, 2)], outcomeIn := [.timeout] })
      (fun t => answers t .timeout .nothing && decide (t.periph = .idle) && t.busLog ==
        [.csLow 0, .data .syncTx 0 [none, none] [none, none] .timeout, .csHigh 0]) = true := by decide

/-- S3, S4 and S6. -/
theorem test_syncWrite_refusals :
    goesTo (exec (.syncWrite 0) (start p0)) (fun t => answers t .emptyBuffer .nothing) = true ∧
    goesTo (exec (.syncWrite 2) sized) (fun t => answers t .selectFailed .nothing && t.busLog == []) = true ∧
    goesTo (exec (.syncWrite 0) { sized with csLevel := [false, true] }) (fun t =>
      answers t .selectFailed .nothing && t.csLevel == [false, true]) = true := by decide

/-- S10 and S11. -/
theorem test_syncRw_outcomes :
    goesTo (exec (.syncRw 0) { start p0 with
        bufSize := 2, tx := [(0, 0x82), (1, 0)], outcomeIn := [.ok], slaveIn := [0x12, 0x34] }) (fun t =>
      answers t .ok .nothing && t.rx == [(0, 0x12), (1, 0x34)] && t.slaveIn == [] && t.busLog ==
        [.csLow 0, .data .syncTxRx 0 [some 0x82, some 0] [some 0x12, some 0x34] .ok, .csHigh 0]) = true ∧
    goesTo (exec (.syncRw 1) { start p0 with
        bufSize := 2, tx := [(0, 0x82), (1, 0)], rx := [(0, 0x12), (1, 0x34)], outcomeIn := [.timeout] }) (fun t =>
      answers t .timeout .nothing && t.rx == [] && t.busLog ==
        [.csLow 1, .data .syncTxRx 1 [none, none] [none, none] .timeout, .csHigh 1]) = true := by decide

/-- S2 and S12. -/
theorem test_syncRw_refusals :
    goesTo (exec (.syncRw 5) { start p0u with bufSize := 1, tx := [(0, 1)] }) (fun t =>
      answers t .notInitialized .nothing) = true ∧
    goesTo (exec (.syncRw 0) (inFlight sized)) (fun t => answers t .selectFailed .nothing && t.busLog == []) = true := by
  decide

/-! ### Asynchronous engine -/

/-- A1 and A7. -/
theorem test_asyncRead_primitive :
    goesTo (exec (.asyncRead 1) { sized with startIn := [true] }) (fun t =>
      answers t .ok .nothing && t.csLevel == [true, false] && t.lastCs == some 1 && t.lastCsV &&
        decide (t.periph = .asyncRx) && decide (t.statusRx = { done := false, result := some 0x00 }) &&
        t.busLog == [.csLow 1]) = true ∧
    goesTo (exec (.asyncRead 1) { sized with startIn := [false] }) (fun t =>
      answers t .error .nothing && t.csLevel == [true, true] && t.lastCs == some 1 && decide (t.periph = .idle) &&
        decide (t.statusRx = { done := true, result := some 0x0A }) && t.busLog == [.csLow 1, .csHigh 1]) = true := by
  decide

/-- A14 (c) to (e), and A13 (e): the start on a busy bus, and the lost completion. -/
theorem test_asyncRead_races :
    goesTo (exec (.asyncRead 0) { inFlight sized with csLevel := [true, true], faults := 0x02, fg := .busy (.asyncRead 0) .c {} })
      (fun t => answers t .error .nothing && t.faults == 0x06 && t.csLevel == [true, true] && t.lastCs == some 0 &&
        decide (t.statusRx = { done := false, result := some 0x0A })) = true ∧
    goesTo (exec (.asyncRead 1) { sized with
        statusRx := { done := true, result := some 0x00 }, fg := .busy (.asyncRead 1) .e {} }) (fun t =>
      answers t .ok .nothing && decide (t.statusRx = { done := false, result := some 0x00 }) &&
        decide (t.periph = .idle)) = true := by decide

/-- P3 step 2, and A6. -/
theorem test_asyncRw :
    goesTo (exec (.asyncRw 0) { sized with startIn := [true] }) (fun t =>
      answers t .ok .nothing && t.csLevel == [false, true] && decide (t.periph = .asyncTxRx) &&
        decide (t.statusTxRx = { done := false, result := some 0x00 }) &&
        decide (t.statusRx = { done := true, result := none })) = true ∧
    goesTo (exec (.asyncRw 0) (inFlight sized)) (fun t =>
      answers t .error .nothing && decide (t.statusTxRx = { done := true, result := some 0x0A }) &&
        decide (t.statusRx = { done := false, result := some 0x00 })) = true := by decide

/-- A6's status word, A2, and DEC13. -/
theorem test_asyncStatus :
    goesTo (exec (.asyncStatus 1) { sized with statusTxRx := { done := true, result := some 0x0A } }) (fun t =>
      answers t .ok (.status 0x010A)) = true ∧
    goesTo (exec (.asyncStatus 0) (inFlight sized)) (fun t => answers t .ok (.status 0x0000)) = true ∧
    goesTo (exec (.asyncStatus 2) sized) (fun t => answers t .invalidIndex .nothing) = true := by decide

/-- A3, and RS1's last sentence. -/
theorem test_evXferEnd :
    goesTo (exec .evXferEnd { inFlight sized with slaveIn := [0xAB, 0xCD, 0xEF] }) (fun t =>
      t.rx == [(0, 0xAB), (1, 0xCD), (2, 0xEF)] && t.xferDoneHw && t.cplRx && decide (t.periph = .asyncRx) &&
        t.busLog == [.data .asyncRx 1 [none, none, none] [some 0xAB, some 0xCD, some 0xEF] .ok]) = true ∧
    goesTo (exec .evXferEnd (start p0)) (fun t => decide (t = start p0)) = true := by decide

/-! ### Capture and interrupts -/

/-- C1 and C2. -/
theorem test_capStart :
    goesTo (exec (.capStart 1 5) (start p0)) (fun t =>
      answers t .ok .nothing && t.capTarget == 5 && t.capCounter == 0 && t.bufSize == 3 &&
        t.tx == [(0, 0), (1, 0), (2, 0)] && t.capCs == some 1 && t.edgeEn) = true ∧
    goesTo (exec (.capStart 1 9) (start p0)) (fun t =>
      answers t .capacityExceeded .nothing && t.capTarget == 0 && !t.edgeEn) = true := by decide

/-- C18: CAP.START with a receive in flight. -/
theorem test_capStart_in_flight :
    goesTo (exec (.capStart 1 3) { inFlight armed with capCounter := 1, record := [(0, 7)] }) (fun t =>
      answers t .ok .nothing && t.capTarget == 3 && t.capCounter == 0 && t.record == [] && t.faults == 0 &&
        t.edgeEn) = true := by decide

/-- P2 steps 11 to 13, and C15. -/
theorem test_capture_reads :
    goesTo (exec .capCount { armed with capCounter := 2 }) (fun t => answers t .ok (.word 2)) = true ∧
    goesTo (exec (.capSlot 1) { armed with capCounter := 2, record := [(0, 0x123456), (1, 7)] }) (fun t =>
      answers t .ok (.word 7)) = true ∧
    goesTo (exec (.capSlot 8) armed) (fun t => answers t .invalidIndex .nothing) = true := by decide

/-- Scenario C's edge, and C4. -/
theorem test_evEdge :
    goesTo (exec .evEdge armed) (fun t => t.edgePend) = true ∧
    goesTo (exec .evEdge (start p0)) (fun t => !t.edgePend) = true := by decide

/-- P2 step 3, C9, C6 and C7: the ways of the edge handler; S13: with line 0 low its start fails. -/
theorem test_edge_interrupt :
    goesTo (.next (takeInterrupt .edge { armed with edgePend := true, startIn := [true] })) (fun t =>
      !t.edgePend && t.csLevel == [true, false] && decide (t.periph = .asyncRx) && t.busLog == [.csLow 1]) = true ∧
    goesTo (.next (takeInterrupt .edge { armed with edgePend := true, capCs := some 5 })) (fun t =>
      decide (t.statusRx = { done := true, result := some 0x0A }) && t.busLog == [] && t.edgeEn) = true ∧
    takeInterrupt .edge { inFlight armed with edgePend := true } = inFlight armed ∧
    takeInterrupt .edge { armed with edgePend := true, capCounter := 5 } =
      { armed with edgeEn := false, capCounter := 5 } ∧
    takeInterrupt .edge { armed with edgePend := true, capCounter := 1, csLevel := [false, true] } =
      { armed with capCounter := 1, csLevel := [false, true], statusRx := { done := true, result := some 0x0A } } := by
  decide

/-- P2 step 6, and C13: the capture hook; A5: the register hook. -/
theorem test_completion_interrupt :
    goesTo (.next (takeInterrupt (.cpl .rx) (ended armed))) (fun t =>
      t.record == [(0, 0x00123456)] && t.capCounter == 1 && t.csLevel == [true, true] && decide (t.periph = .idle) &&
        decide (t.statusRx = { done := true, result := some 0x00 }) && t.busLog == [.csHigh 1]) = true ∧
    goesTo (.next (takeInterrupt (.cpl .rx) { ended armed with bufSize := 5, capCounter := 1 })) (fun t =>
      t.record == [] && t.capCounter == 1 && t.faults == 0x10) = true ∧
    goesTo (.next (takeInterrupt (.cpl .rx) { ended sized with activeDriver := .register, params := p1 })) (fun t =>
      !t.cplRx && !t.xferDoneHw && t.record == [] && t.csLevel == [true, true]) = true := by decide

/-- RS1 and RS3. -/
theorem test_evReset :
    goesTo (exec .evReset { inFlight armed with faults := 0x10 }) (fun t => decide (t = start p0)) = true := by decide

/-! ### Frames and the host -/

/-- Scenario A, requests 3 and 4. -/
theorem test_regWriteFrame :
    goesTo (exec (.regWriteFrame 1 2) { start p0 with outcomeIn := [.ok] }) (fun t =>
      answers t .ok .nothing && t.bufSize == 5 && t.busLog ==
        [.csLow 0, .data .syncTx 0 [some 1, some 0, some 0, some 0, some 2] [none, none, none, none, none] .ok,
          .csHigh 0]) = true := by decide

/-- Scenario B. -/
theorem test_regReadFrame :
    goesTo (exec (.regReadFrame 2) { start p0 with outcomeIn := [.ok], slaveIn := [0, 0, 0, 0x12, 0x34] }) (fun t =>
      answers t .ok (.bytes [0, 0, 0, 0x12, 0x34]) && t.busLog ==
        [.csLow 0, .data .syncTxRx 0 [some 0x82, some 0, some 0, some 0, some 0]
          [some 0, some 0, some 0, some 0x12, some 0x34] .ok, .csHigh 0]) = true := by decide

/-- P2 step 5. -/
theorem test_sampleFrame :
    goesTo (exec (.sampleFrame 0x123456) (inFlight armed)) (fun t =>
      t.rx == [(0, 0x12), (1, 0x34), (2, 0x56)] && t.cplRx && t.busLog ==
        [.data .asyncRx 1 [none, none, none] [some 0x12, some 0x34, some 0x56] .ok]) = true := by decide

/-- H2 and H3: the frames of WREG; H4, H5 and H6: no requests. -/
theorem test_wreg_line :
    frameW 0 16909060 = [0x00, 0x01, 0x02, 0x03, 0x04] ∧ frameW 2 4294967295 = [0x02, 0xFF, 0xFF, 0xFF, 0xFF] ∧
    frameW 0 4294967296 = [0x01, 0x00, 0x00, 0x00, 0x00] ∧
    commandOps { p0 with wregRange := .u32 } ["WREG".toList, "4294967296".toList, "0".toList, "0".toList] = [] ∧
    commandOps p0 ["WREG".toList, "1".toList, "2".toList] = [] ∧
    commandOps p0 ["wreg".toList, "1".toList, "2".toList, "3".toList] = [] := by decide

/-- H7, H8, H9 and H10. -/
theorem test_rreg_and_radc_lines :
    commandOps p0 ["RREG".toList, "4".toList] =
      [.issue (.bufSetTx 5 [0x84, 0, 0, 0, 0]), .issue (.syncRw 0), .issue .bufReadRx, .writeBin40] ∧
    commandOps p0 ["RREG".toList, "5".toList] = [] ∧
    commandOps p0 ["RADC".toList, "0".toList] =
      [.issue (.capStart 1 0), .issue .capCount, .checkCount 0, .writeCount] ∧
    commandOps p0 ["RADC".toList, "9".toList] = [] := by decide

/-- Scenario B's output line, and Scenario C's. -/
theorem test_host_output :
    (hostLocal .writeBin40 { start p0 with
        response := some { rc := .ok, data := .bytes [0, 0, 0, 0x12, 0x34] } }).lineOut =
      ["0000000000000000000000000001001000110100\r\n".toList] ∧
    (hostLocal .writeBin32 { start p0 with response := some { rc := .ok, data := .word 0x00010203 } }).lineOut =
      ["00000000000000010000001000000011\r\n".toList] ∧
    (hostLocal .writeCount { start p0 with response := some { rc := .ok, data := .word 5 } }).lineOut =
      ["5\r\n".toList] := by decide

/-! ### Steps -/

/-- DEC7 as a step: an illegal word at the port. -/
theorem test_step_illegal_word :
    goesTo (step { start p0 with turns := [.fg 1], port := [0x01, 0, 0, 0, 0, 0, 0, 1] }) (fun t =>
      answers t .illegal .nothing && t.port == [] && t.busLog == []) = true := by decide

/-- R97 beside R95: an illegal word with BUF.SETTX's opcode is taken with its two payload bytes, and is waited for. -/
theorem test_step_illegal_payload :
    goesTo (step { start p0 with turns := [.fg 1], port := [0x11, 0, 0, 1, 0, 0, 0, 2, 0xAA, 0xBB, 0x41] }) (fun t =>
      answers t .illegal .nothing && t.port == [0x41]) = true ∧
    goesTo (step { start p0 with turns := [.fg 1], port := [0x11, 0, 0, 1, 0, 0, 0, 2, 0xAA] }) (fun t =>
      decide (t.response = none) && t.port == [0x11, 0, 0, 1, 0, 0, 0, 2, 0xAA]) = true := by decide

/-- R14: SLAVE and HOST take steps of their own, and six bytes are no frame. -/
theorem test_step_slave_and_host :
    goesTo (step { start p0 with turns := [.slave [1, 2]], slaveIn := [9] }) (fun t => t.slaveIn == [9, 1, 2]) = true ∧
    goesTo (step { start p0 with turns := [.host (.send [0x41])] }) (fun t => t.port == [0x41]) = true ∧
    step { start p0 with turns := [.fg 1], hostIn := [.frame [0x82, 0, 0, 0, 0, 7]] } = .refused .notAFrame :=
  ⟨by decide, by decide, rfl⟩

/-- A word placed for the next step runs in it, whatever the parameters are. -/
theorem test_step_runs_placed_words :
    goesTo (step (State.withFetchWord (start p0) 64 0x4001000000000005)) (fun t => t.capTarget == 5) = true ∧
    goesTo (step (State.withFetchWord (inFlight armed) 8 0x03)) (fun t => decide (t.periph = .idle)) = true ∧
    goesTo (step (State.withFetchWord { start p0 with outcomeIn := [.ok] } 40 0x0100000002)) (fun t =>
      t.bufSize == 5) = true ∧
    goesTo (step (State.withFetchWord (inFlight armed) 24 0x123456)) (fun t => t.cplRx) = true := by decide

/-! ### Witnesses: for each statement with hypotheses, a concrete state and operands that meet them -/

theorem start_wf : State.Wf (start p0) := by constructor <;> decide

theorem armed_wf : State.Wf armed := by constructor <;> decide

theorem inFlight_wf : State.Wf (inFlight armed) := by constructor <;> decide

/-- A state with everything MayTransfer asks for on line 1. -/
theorem sized_mayTransfer : MayTransfer 1 sized ∧ MayTransfer 0 sized := by unfold MayTransfer; decide

theorem witness_CsAssertDrivesItsLineLow :
    Ready 2 (start p0) ∧ (1 : Byte).toNat < (start p0).params.nCs ∧ lowCount (start p0) = 0 := by
  unfold Ready; decide

theorem witness_CsAssertRefusesInOrder :
    Ready 1 (inFlight armed) ∧ (inFlight armed).params.nCs ≤ (2 : Byte).toNat ∧
      (1 : Byte).toNat < (inFlight armed).params.nCs ∧ 0 < lowCount (inFlight armed) := by
  unfold Ready; decide

/-- Both clauses: with line 1 low, and with every line high. -/
theorem witness_CsAssertDriveRaisesMultiSelect :
    (∃ s, s.fg = .busy (.csAssert 0) .b {} ∧ 1 ≤ s.quota ∧ (0 : Byte).toNat < s.csLevel.length ∧
      ∃ j, j ≠ (0 : Byte).toNat ∧ levelOf j s = false) ∧
    (∃ s, s.fg = .busy (.csAssert 1) .b {} ∧ 1 ≤ s.quota ∧ (1 : Byte).toNat < s.csLevel.length ∧
      ∀ j, j ≠ (1 : Byte).toNat → levelOf j s = true) :=
  ⟨⟨{ inFlight armed with fg := .busy (.csAssert 0) .b {} }, by decide, by decide, by decide, 1, by decide, by decide⟩,
   ⟨{ start p0 with fg := .busy (.csAssert 1) .b {} }, by decide, by decide, by decide, fun j _ =>
      match j with
      | 0 => rfl
      | 1 => rfl
      | _ + 2 => rfl⟩⟩

theorem witness_CsDeassertReleasesItsLine :
    Ready 1 (inFlight armed) ∧ (inFlight armed).params.nCs ≤ (2 : Byte).toNat ∧
      (1 : Byte).toNat < (inFlight armed).params.nCs ∧ (inFlight armed).periph ≠ .idle ∧
      levelOf (1 : Byte).toNat (inFlight armed) = false := by
  unfold Ready; decide

theorem witness_StepKeepsMutualExclusion :
    MutualExclusion { armed with turns := [.edge] } ∧ ∃ t, step { armed with turns := [.edge] } = .next t :=
  ⟨by unfold MutualExclusion; decide, _, rfl⟩

theorem witness_BufSetSizeZeroFillsTransmit :
    Ready 2 (start p0) ∧ (start p0).periph = .idle ∧ (8 : U32).toNat ≤ (start p0).params.bufCap := by
  unfold Ready; decide

theorem witness_BufSetTxCopiesPayload :
    (Instr.bufSetTx 2 [0xAA, 0xBB]).wf = true ∧ Ready 2 (start p0) ∧ (start p0).periph = .idle ∧
      (2 : U32).toNat ≤ (start p0).params.bufCap := by
  unfold Ready; decide

/-- Both clauses, for a size one above the capacity. -/
theorem witness_BufferWriteRefusesInOrder :
    Ready 1 (inFlight armed) ∧ (inFlight armed).periph ≠ .idle ∧ Ready 1 armed ∧ armed.periph = .idle ∧
      armed.params.bufCap < (9 : U32).toNat := by
  unfold Ready; decide

theorem witness_BufReadRxAnswersTheActiveSize : Ready 1 sized ∧ sized.periph = .idle := by unfold Ready; decide

/-- Each clause: the writes at the capacity and at size 0. -/
theorem witness_SizeKeptInFlight :
    (State.Wf { inFlight armed with turns := [.periph none] } ∧
      (∃ t, step { inFlight armed with turns := [.periph none] } = .next t) ∧ (inFlight armed).periph ≠ .idle) ∧
    (let s : State := { inFlight armed with fg := .busy (.bufSetSize 8) .b {} }
     List.replicate (8 : U32).toNat (0 : Byte) = [0, 0, 0, 0, 0, 0, 0, 0] ∧ s.fg = .busy (.bufSetSize 8) .b {} ∧
      1 ≤ s.quota ∧ s.periph ≠ .idle) ∧
    (let s : State := { inFlight armed with fg := .busy (.bufSetTx 0 []) .b {} }
     (Instr.bufSetTx 0 []).wf = true ∧ s.fg = .busy (.bufSetTx 0 []) .b {} ∧ 1 ≤ s.quota ∧ s.periph ≠ .idle) ∧
    (let s : State := { inFlight armed with fg := .busy (.capStart 1 5) .e { sized := true }, quota := 1 }
     s.fg = .busy (.capStart 1 5) .e { sized := true } ∧ s.quota = 1 ∧ s.periph ≠ .idle) :=
  ⟨⟨by constructor <;> decide, ⟨_, rfl⟩, by decide⟩, by decide, by decide, by decide⟩

theorem witness_SyncWriteRunsWhole : Ready 6 sized ∧ MayTransfer 1 sized := by unfold Ready MayTransfer; decide

theorem witness_SyncRwRunsWhole : Ready 6 sized ∧ MayTransfer 0 sized := by unfold Ready MayTransfer; decide

/-- One state for each clause; the last by the range and by a low line. -/
theorem witness_SyncFailsFastInOrder :
    (Ready 2 (start p0u) ∧ (start p0u).bound = false) ∧
    (Ready 2 (start p0) ∧ (start p0).bound = true ∧ (start p0).bufSize = 0) ∧
    (Ready 2 sized ∧ sized.bound = true ∧ sized.bufSize ≠ 0 ∧ sized.params.nCs ≤ (2 : Byte).toNat) ∧
    (Ready 2 (inFlight sized) ∧ (inFlight sized).bound = true ∧ (inFlight sized).bufSize ≠ 0 ∧
      0 < lowCount (inFlight sized)) := by
  unfold Ready; decide

theorem witness_SyncReleasesItsLineOnEveryOutcome :
    ({ sized with fg := .busy (.syncRw 1) .f { rc := .timeout } }).fg = .busy (.syncRw 1) .f { rc := .timeout } ∧
      1 ≤ sized.quota ∧ (1 : Byte).toNat < sized.params.nCs ∧ (1 : Byte).toNat < sized.csLevel.length := by decide

/-- Both clauses, on the last line: low, as its own drive left it, and high, after a CS.DEASSERT. -/
theorem witness_SyncStartOnBusyBusIsAFault :
    ({ inFlight sized with fg := .busy (.syncWrite 1) .d {} }).fg = .busy (.syncWrite 1) .d {} ∧
      2 ≤ (inFlight sized).quota ∧ (inFlight sized).periph ≠ .idle ∧ (1 : Byte).toNat < (inFlight sized).params.nCs ∧
    (let s : State := { inFlight sized with fg := .busy (.asyncRead 1) .d {} }
     s.fg = .busy (.asyncRead 1) .d {} ∧ 1 ≤ s.quota ∧ s.periph ≠ .idle ∧ (1 : Byte).toNat < s.params.nCs ∧
      levelOf (1 : Byte).toNat s = false) ∧
    (let s : State := { inFlight sized with fg := .busy (.asyncRw 1) .d {}, csLevel := [true, true] }
     s.fg = .busy (.asyncRw 1) .d {} ∧ 1 ≤ s.quota ∧ s.periph ≠ .idle ∧ (1 : Byte).toNat < s.params.nCs ∧
      levelOf (1 : Byte).toNat s = true) := by
  refine ⟨?_, ?_, ?_, ?_, ⟨?_, ?_, ?_, ?_, ?_⟩, ?_, ?_, ?_, ?_, ?_⟩ <;> decide

theorem witness_AsyncStartBeginsTransfer :
    Ready 5 { sized with startIn := [true] } ∧ MayTransfer 1 { sized with startIn := [true] } ∧
      (drawStart { sized with startIn := [true] }).1 = true := by
  unfold Ready MayTransfer; decide

theorem witness_AsyncPrimitiveFailureReleasesLine :
    Ready 4 { sized with startIn := [false] } ∧ MayTransfer 1 { sized with startIn := [false] } ∧
      (drawStart { sized with startIn := [false] }).1 = false := by
  unfold Ready MayTransfer; decide

/-- Each of the four failing preconditions. -/
theorem witness_AsyncPreconditionFailureRecordsError :
    (Ready 2 (start p0u) ∧ (start p0u).bound = false) ∧ (Ready 2 (start p0) ∧ (start p0).bufSize = 0) ∧
    (Ready 2 sized ∧ sized.params.nCs ≤ (2 : Byte).toNat) ∧
    (Ready 2 (inFlight sized) ∧ 0 < lowCount (inFlight sized)) := by
  unfold Ready; decide

theorem witness_AsyncStatusReadsBothFields :
    Ready 1 (inFlight sized) ∧ (inFlight sized).statusRx.result = some 0x00 ∧ 1 < (2 : Byte).toNat ∧
    (({ sized with statusTxRx := { done := true, result := some 0x0A } } : State)).statusTxRx.result = some 0x0A := by
  unfold Ready; decide

theorem witness_LostCompletionLeavesDoneClear :
    1 ≤ sized.quota ∧ ({ sized with fg := .busy (.asyncRead 1) .e {} }).fg = .busy (.asyncRead 1) .e {} ∧
      ({ sized with fg := .busy (.asyncRw 1) .e {} }).fg = .busy (.asyncRw 1) .e {} := by decide

/-- Both clauses. -/
theorem witness_XferEndDeliversReceivedBytes :
    ((inFlight sized).xferDoneHw = false ∧ (inFlight sized).lastCs = some 1 ∧ (inFlight sized).periph = .asyncRx ∧
      ({ inFlight sized with slaveIn := [5, 6, 7] }).slaveIn[2]? = some 7) ∧
    (({ inFlight sized with periph := .asyncTxRx } : State).xferDoneHw = false ∧
      ({ inFlight sized with periph := .asyncTxRx } : State).lastCs = some 1 ∧
      ({ inFlight sized with periph := .asyncTxRx } : State).periph = .asyncTxRx) := by decide

/-- Either way: the phase has ended, and no asynchronous transfer. -/
theorem witness_XferEndNotEnabledChangesNothing :
    (ended sized).xferDoneHw = true ∧ sized.periph ≠ .asyncRx ∧ sized.periph ≠ .asyncTxRx := by decide

/-- Each clause, on the last line. -/
theorem witness_CompletionReleasesLineAndPublishes :
    (let s : State := { ended sized with activeDriver := .register, params := p1 }
     s.params.irqOrder = .any ∧ s.lastCs = some 1 ∧ (1 : Byte).toNat < s.params.nCs ∧ s.cplRx = true ∧
      s.activeDriver = .register) ∧
    (let s : State := { ended armed with bufSize := 4 }
     s.params.irqOrder = .any ∧ s.lastCs = some 1 ∧ (1 : Byte).toNat < s.params.nCs ∧ s.cplRx = true ∧
      s.activeDriver = .capture) ∧
    (let s : State := { inFlight sized with periph := .asyncTxRx, xferDoneHw := true, cplTxRx := true }
     s.params.irqOrder = .any ∧ s.lastCs = some 1 ∧ (1 : Byte).toNat < s.params.nCs ∧ s.cplTxRx = true) := by
  refine ⟨⟨?_, ?_, ?_, ?_, ?_⟩, ⟨?_, ?_, ?_, ?_, ?_⟩, ?_, ?_, ?_, ?_⟩ <;> decide

theorem witness_EdgePendsOnlyWhileEnabled : armed.edgeEn = true ∧ sized.edgeEn = false := by decide

/-- Both clauses, the second at c = t. -/
theorem witness_EdgeHandlerIgnoresOrDisables :
    (let s : State := { inFlight armed with edgePend := true }
     s.params.irqOrder = .any ∧ s.edgePend = true ∧ s.periph ≠ .idle) ∧
    (let s : State := { armed with edgePend := true, capCounter := 5 }
     s.params.irqOrder = .any ∧ s.edgePend = true ∧ s.periph = .idle ∧ s.capCounter ≠ 0 ∧
      s.capTarget ≤ s.capCounter) := by
  refine ⟨⟨?_, ?_, ?_⟩, ?_, ?_, ?_, ?_, ?_⟩ <;> decide

/-- Each clause: at c = 0 with the target 0, twice, and at c = t - 1 on a line out of range. -/
theorem witness_EdgeHandlerStartsAReceive :
    (let s : State := { armed with edgePend := true, capTarget := 0, startIn := [true] }
     s.params.irqOrder = .any ∧ s.edgePend = true ∧ s.periph = .idle ∧ s.capCs = some 1 ∧ s.capCounter = 0 ∧
      MayTransfer 1 s ∧ (drawStart s).1 = true) ∧
    (let s : State := { armed with edgePend := true, capTarget := 0, startIn := [false] }
     s.params.irqOrder = .any ∧ s.edgePend = true ∧ s.periph = .idle ∧ s.capCs = some 1 ∧ s.capCounter = 0 ∧
      MayTransfer 1 s ∧ (drawStart s).1 = false) ∧
    (let s : State := { armed with edgePend := true, capCounter := 4, capCs := some 2 }
     s.params.irqOrder = .any ∧ s.edgePend = true ∧ s.periph = .idle ∧ s.capCs = some 2 ∧
      s.capCounter < s.capTarget ∧ s.params.nCs ≤ (2 : Byte).toNat) := by
  refine ⟨⟨?_, ?_, ?_, ?_, ?_, ?_, ?_⟩, ⟨?_, ?_, ?_, ?_, ?_, ?_, ?_⟩, ?_, ?_, ?_, ?_, ?_, ?_⟩ <;>
    (try unfold MayTransfer) <;> decide

theorem witness_CaptureHookStoresOneSample :
    (ended armed).params.irqOrder = .any ∧ (ended armed).cplRx = true ∧ (ended armed).activeDriver = .capture ∧
    (ended armed).bufSize = 3 ∧ (ended armed).capCounter < (ended armed).capTarget ∧
    Cells.read (ended armed).rx 0 = some 0x12 ∧ Cells.read (ended armed).rx 1 = some 0x34 ∧
    Cells.read (ended armed).rx 2 = some 0x56 := by decide

/-- Both clauses: a size of 4, and c = t. -/
theorem witness_CaptureHookGuards :
    (let s : State := { ended armed with bufSize := 4 }
     s.params.irqOrder = .any ∧ s.cplRx = true ∧ s.activeDriver = .capture ∧ s.bufSize ≠ 3) ∧
    (let s : State := { ended armed with capCounter := 5 }
     s.params.irqOrder = .any ∧ s.cplRx = true ∧ s.activeDriver = .capture ∧ s.bufSize = 3 ∧
      s.capTarget ≤ s.capCounter) := by
  refine ⟨⟨?_, ?_, ?_, ?_⟩, ?_, ?_, ?_, ?_, ?_⟩ <;> decide

/-- At n = RECORD_CAP. -/
theorem witness_CapStartArmsACapture :
    Ready 7 (start p0) ∧ (8 : U32).toNat ≤ (start p0).params.recordCap ∧ (start p0).periph = .idle ∧
      3 ≤ (start p0).params.bufCap := by
  unfold Ready; decide

theorem witness_CapStartRejectsOrIgnoresBusy :
    (Ready 1 (start p0) ∧ (start p0).params.recordCap < (9 : U32).toNat) ∧
    (Ready 7 (inFlight armed) ∧ (8 : U32).toNat ≤ (inFlight armed).params.recordCap ∧
      (inFlight armed).periph ≠ .idle) := by
  unfold Ready; decide

/-- The last slot, written, and the first index above it. -/
theorem witness_CaptureReadsAnswerTheRecord :
    Ready 1 armed ∧ armed.params.recordCap ≤ (8 : U32).toNat ∧ (7 : U32).toNat < armed.params.recordCap ∧
      Cells.read ({ armed with record := [(7, 9)] } : State).record (7 : U32).toNat = some 9 := by
  unfold Ready; decide

theorem witness_StepKeepsCaptureRecord :
    let s : State := { ended armed with turns := [.irq (.cpl .rx)] }
    CounterBounded s ∧ RecordFilled s ∧ ∃ t, step s = .next t :=
  ⟨Or.inr (by decide), fun i h => absurd h (Nat.not_lt_zero i), _, rfl⟩

theorem witness_CaptureCycleRecordsOneSample :
    let s : State := { armed with
      startIn := [true], turns := [.edge, .irq .edge, .periph (some 0x010203), .irq (.cpl .rx)] }
    s.params.irqOrder = .any ∧ s.edgeEn = true ∧ s.xferDoneHw = false ∧ s.capCs = some 1 ∧ MayTransfer 1 s ∧
    (drawStart s).1 = true ∧ s.bufSize = 3 ∧ s.activeDriver = .capture ∧ s.capCounter < s.capTarget ∧
    s.turns = .edge :: .irq .edge :: .periph (some ((1 : Byte) ++ (2 : Byte) ++ (3 : Byte))) :: .irq (.cpl .rx) :: [] := by
  refine ⟨?_, ?_, ?_, ?_, ?_, ?_, ?_, ?_, ?_, ?_⟩ <;> (try unfold MayTransfer) <;> decide

theorem witness_InterruptOrderGivesTheSameRecord :
    let s : State := { ended armed with edgePend := true }
    s.params.irqOrder = .any ∧ s.edgePend = true ∧ s.cplRx = true ∧ s.periph ≠ .idle := by
  refine ⟨?_, ?_, ?_, ?_⟩ <;> decide

/-- Both clauses: the second for a source not pending, and for one that a fixed order holds back. -/
theorem witness_TakingClearsThePendingBit :
    mayTake .edge { armed with edgePend := true } = true ∧ mayTake .edge armed = false ∧
      (let s : State := { ended armed with edgePend := true, params := { p0 with irqOrder := .fixed [.cpl .rx, .edge] } }
       pending .edge s = true ∧ mayTake .edge s = false) := by
  refine ⟨?_, ?_, ?_, ?_⟩ <;> decide

theorem witness_FaultsAreSticky :
    let s : State := { armed with faults := 0x10, turns := [.fg 1] }
    s.Wf ∧ (∃ t, step s = .next t) ∧ (nextTurn s).1 ≠ .platform ∧ s.faults.getLsbD 4 = true :=
  ⟨by constructor <;> decide, ⟨_, rfl⟩, by decide, by decide⟩

theorem witness_BindingNeverChanges :
    let s : State := { armed with turns := [.platform] }
    s.bound = s.params.handleBound ∧ s.activeDriver = s.params.activeDriver ∧ ∃ t, step s = .next t :=
  ⟨by decide, by decide, _, rfl⟩

/-- Both clauses: the end of CAP.START, and an edge taken at c = t. -/
theorem witness_EdgeEnableHasItsWriters :
    (let s : State := { sized with fg := .busy (.capStart 1 5) .g {}, turns := [.fg 1] }
     s.Wf ∧ ∃ t, step s = .next t ∧ s.edgeEn = false ∧ t.edgeEn = true) ∧
    (let s : State := { armed with edgePend := true, capCounter := 5, turns := [.irq .edge] }
     s.Wf ∧ ∃ t, step s = .next t ∧ s.edgeEn = true ∧ t.edgeEn = false) :=
  ⟨⟨by constructor <;> decide, _, rfl, by decide, by decide⟩, by constructor <;> decide, _, rfl, by decide, by decide⟩

/-- A frame to send, with FG's turn next. -/
theorem witness_NoErrorStopsTheMachine :
    let s : State := { armed with turns := [.fg 1], hostIn := [.frame [0x82, 0, 0, 0, 0]] }
    ∀ bs rest, s.hostIn = .frame bs :: rest → ∃ i, decode .frame40 bs = .ok (i, []) := by
  intro s bs rest h
  simp only [s, List.cons.injEq, HostInput.frame.injEq] at h
  obtain ⟨rfl, -⟩ := h
  exact ⟨_, rfl⟩

theorem witness_StepKeepsWellFormed :
    State.Wf { armed with turns := [.fg 1] } ∧ ∃ t, step { armed with turns := [.fg 1] } = .next t :=
  ⟨by constructor <;> decide, _, rfl⟩

theorem witness_StepKeepsTransferFlags :
    TransferFlags { ended armed with turns := [.irq (.cpl .rx)] } ∧
      ∃ t, step { ended armed with turns := [.irq (.cpl .rx)] } = .next t := by
  refine ⟨⟨fun _ => ⟨.rx, rfl⟩, ?_, by decide, by decide, by decide, fun _ _ => rfl⟩, _, rfl⟩
  intro k h
  cases k
  · exact ⟨rfl, rfl⟩
  · exact absurd h (by decide)

theorem witness_DecodeOfEncode : (Instr.bufSetTx 2 [0xAA, 0xBB]).wf = true ∧ (Instr.capSlot 0xFFFFFFFF).wf = true := by
  decide

theorem witness_EncodeOfDecode : decode .frame24 [1, 2, 3, 4] = .ok (.sampleFrame 0x010203, [4]) := by rfl

/-- Both clauses: an opcode that is none, the last byte of a payload there, and the last byte of it missing. -/
theorem witness_IllegalWordIsAnswered :
    (let s : State := { start p0 with turns := [.fg 1], port := [0x00, 0, 0, 0, 0, 0, 0, 9] }
     s.turns = .fg 1 :: [] ∧ s.fg = .idle ∧ s.hostProg = [] ∧ decode .req64 s.port = .error .illegalWord ∧
      wordLength s.port ≤ s.port.length) ∧
    (let s : State := { start p0 with turns := [.fg 1], port := [0x11, 1, 0, 0, 0, 0, 0, 2, 7, 8] }
     decode .req64 s.port = .error .illegalWord ∧ wordLength s.port ≤ s.port.length) ∧
    (let s : State := { start p0 with turns := [.fg 1], port := [0x11, 1, 0, 0, 0, 0, 0, 2, 7] }
     s.turns = .fg 1 :: [] ∧ s.fg = .idle ∧ s.hostProg = [] ∧ decode .req64 s.port = .error .illegalWord ∧
      s.port.length < wordLength s.port ∧ s.hostIn = []) :=
  ⟨⟨rfl, rfl, rfl, rfl, by decide⟩, ⟨rfl, by decide⟩, rfl, rfl, rfl, rfl, by decide, rfl⟩

theorem witness_StepRunsTheRequestAtThePort :
    let s : State := { start p0 with turns := [.fg 16], port := encode (.bufSetTx 1 [7]) ++ [0x12] }
    (Instr.bufSetTx 1 [7]).wf = true ∧ (Instr.bufSetTx 1 [7]).format = .req64 ∧ s.turns = .fg 16 :: [] ∧
      s.fg = .idle ∧ s.hostProg = [] ∧ s.port = encode (.bufSetTx 1 [7]) ++ [0x12] :=
  ⟨by decide, rfl, rfl, rfl, rfl, rfl⟩

/-- A state for each clause that asks for one, and an instruction of each format for the clause over instructions. -/
theorem witness_StepRunsTheInstructionOfItsTurn :
    (∃ s : State, s.turns = .fg 1 :: [] ∧ s.fg = .busy (.csAssert 0) .b {}) ∧
    (∃ s : State, s.turns = .fg 1 :: [] ∧ s.fg = .idle ∧ s.hostProg = .issue .capCount :: []) ∧
    (∃ s : State, s.turns = .edge :: []) ∧ (∃ s : State, s.turns = .periph none :: []) ∧
    (∃ s : State, s.turns = .periph (some 0xFFFFFF) :: []) ∧ (∃ s : State, s.turns = .platform :: []) ∧
    (∃ s : State, (Instr.regReadFrame 127).format = .frame40 ∧ s.turns = .fg 1 :: [] ∧ s.fg = .idle ∧
      s.hostProg = [] ∧ s.port = [] ∧ s.hostIn = .frame (encode (.regReadFrame 127)) :: []) ∧
    Instr.evReset.format = .event8 ∧ (Instr.sampleFrame 0xFFFFFF).format = .frame24 ∧
    (∃ s : State, s.turns = .irq (.cpl .txrx) :: []) ∧ (∃ s : State, s.turns = .slave [1] :: []) ∧
    (∃ s : State, s.turns = .host (.send [0x41]) :: []) ∧
    (∃ s : State, s.turns = .host (.ask (.pseudo (.waitCap 0))) :: []) :=
  ⟨⟨{ start p0 with turns := [.fg 1], fg := .busy (.csAssert 0) .b {} }, rfl, rfl⟩,
   ⟨{ start p0 with turns := [.fg 1], hostProg := [.issue .capCount] }, rfl, rfl, rfl⟩,
   ⟨{ start p0 with turns := [.edge] }, rfl⟩, ⟨{ start p0 with turns := [.periph none] }, rfl⟩,
   ⟨{ start p0 with turns := [.periph (some 0xFFFFFF)] }, rfl⟩, ⟨{ start p0 with turns := [.platform] }, rfl⟩,
   ⟨{ start p0 with turns := [.fg 1], hostIn := [.frame (encode (.regReadFrame 127))] }, rfl, rfl, rfl, rfl, rfl, rfl⟩,
   rfl, rfl, ⟨{ start p0 with turns := [.irq (.cpl .txrx)] }, rfl⟩,
   ⟨{ start p0 with turns := [.slave [1]] }, rfl⟩, ⟨{ start p0 with turns := [.host (.send [0x41])] }, rfl⟩,
   ⟨{ start p0 with turns := [.host (.ask (.pseudo (.waitCap 0)))] }, rfl⟩⟩

theorem witness_RegWriteFrameGoesOut :
    Ready 8 (start p0) ∧ (start p0).bound = true ∧ (start p0).params.csReg.toNat < (start p0).params.nCs ∧
      lowCount (start p0) = 0 ∧ (start p0).periph = .idle ∧ 5 ≤ (start p0).params.bufCap := by
  unfold Ready; decide

theorem witness_RegReadFrameAnswersTheReceivedBytes :
    Ready 9 (start p0) ∧ (start p0).bound = true ∧ (start p0).params.csReg.toNat < (start p0).params.nCs ∧
      lowCount (start p0) = 0 ∧ (start p0).periph = .idle ∧ 5 ≤ (start p0).params.bufCap ∧
      ({ start p0 with slaveIn := [0, 0, 0, 0x12, 0x34] } : State).slaveIn[4]? = some 0x34 := by
  unfold Ready; decide

/-- Both clauses. -/
theorem witness_SampleFrameEndsTheReceive :
    ((inFlight armed).periph = .asyncRx ∧ (inFlight armed).xferDoneHw = false ∧ (inFlight armed).bufSize = 3 ∧
      (inFlight armed).lastCs = some 1) ∧
    armed.periph ≠ .asyncRx ∧ (ended armed).xferDoneHw = true ∧
    ({ inFlight armed with bufSize := 2 } : State).bufSize ≠ 3 := by decide

/-- The largest address and the largest value. -/
theorem witness_PackedWriteFrameBytes : (0x7F : Byte).toNat < 0x80 ∧ (0xFFFFFFFF : U64).toNat < 2 ^ 32 := by decide

/-- The smallest and the largest value. -/
theorem witness_WregSendsThreeFramesInOrder :
    parseNum p0 "0".toList = some 0 ∧ parseNum p0 "4294967295".toList = some 4294967295 ∧ 0 < 2 ^ 32 ∧
      4294967295 < 2 ^ 32 := by decide

theorem witness_BinaryStringIsFixedWidth : 0 < 40 ∧ 39 < 40 := by decide

/-- Both clauses. -/
theorem witness_CaptureWaitAsksAgain :
    let s : State := { start p0 with
      turns := [.fg 1], hostProg := [.checkCount 2], response := some { rc := .ok, data := .word 2 } }
    s.turns = .fg 1 :: [] ∧ s.fg = .idle ∧ s.hostProg = .checkCount 2 :: [] ∧
      s.response = some { rc := .ok, data := .word 2 } ∧ (2 : U32).toNat = 2 ∧ (1 : U32).toNat ≠ 2 :=
  ⟨rfl, rfl, rfl, rfl, rfl, by decide⟩

theorem witness_FaultFreeInFlightLineIsLow :
    Reachable (loaded p0 [] [] [.edge] [] [] []) ∧ faultFree (loaded p0 [] [] [.edge] [] [] []) = true :=
  ⟨⟨p0, [], [], [.edge], [], [], [], by decide, .refl⟩, by decide⟩

end Sys2Proof.Tests
end

section
/-! PROOF. Every step keeps the shape of the state (spec/10_state.md R7, R22, R23, R27, R28, R32, R34, R38, R40):
effect by effect for the block, then act by act for FG's phase and HOST's program. -/

namespace Sys2Proof.Machine

/-! ### The operations of the block -/

/-- The check of a size write succeeds exactly on an idle bus with the size in capacity. -/
theorem sizeCheck_eq_ok {n : Nat} {s : State} :
    sizeCheck n s = .ok ↔ s.periph = .idle ∧ n ≤ s.params.bufCap := by
  unfold sizeCheck
  split
  · simp_all
  · split <;> simp_all

/-- A size write: the size, both stores, and the fault bit exactly where a transfer is in flight. -/
theorem sizeWrite_eq (n : U32) (bs : List Byte) (s : State) :
    sizeWrite n bs s = { s with
      bufSize := n
      tx := Cells.writeFrom s.tx 0 bs
      rx := Cells.eraseBelow s.rx n.toNat
      faults := if s.periph ≠ .idle then s.faults ||| fBufferWriteInFlight else s.faults } := by
  by_cases h : s.periph = .idle <;> simp [sizeWrite, h, raiseFault]

/-- Raising one of the fault bits of R265 leaves the reserved bits 7:5 of FAULTS zero (R40). -/
theorem reservedFaults_or {x f : Byte} (hx : x &&& 0xE0 = 0) (hf : f &&& 0xE0 = 0) : (x ||| f) &&& 0xE0 = 0 := by
  rw [BitVec.and_comm, BitVec.and_or_distrib_left, BitVec.and_comm _ x, BitVec.and_comm _ f, hx, hf]
  rfl

/-- So does raising it under a condition. -/
theorem reservedFaults_ite {c : Prop} [Decidable c] {x f : Byte} (hx : x &&& 0xE0 = 0) (hf : f &&& 0xE0 = 0) :
    (if c then x ||| f else x) &&& 0xE0 = 0 := by
  split
  · exact reservedFaults_or hx hf
  · exact hx

/-! ### The phase of FG -/

/-- What a request has checked of its operands before the micro-step `m` (R140, R143, R220). -/
def OperandChecked (p : Params) (i : Instr) (m : Micro) : Prop :=
  match i with
  | .bufSetSize n => m ≠ .a → n.toNat ≤ p.bufCap
  | .bufSetTx n _ => m ≠ .a → n.toNat ≤ p.bufCap
  | .capStart _ n => m ≠ .a → n.toNat ≤ p.recordCap
  | _ => True

theorem phaseWf_busy {p : Params} {i : Instr} {m : Micro} {loc : Locals} :
    phaseWf p (.busy i m loc) = true ↔
      i.wf = true ∧ isRequest i = true ∧ loc.n ≤ p.bufCap ∧ OperandChecked p i m := by
  cases i <;> simp [phaseWf, OperandChecked, and_assoc, or_iff_not_imp_left]

/-- Before its first micro-step a request has checked nothing. -/
theorem operandChecked_a (p : Params) (i : Instr) : OperandChecked p i .a := by
  cases i <;> simp [OperandChecked]

/-- SetSize is SetTx of zeros (R140, R143). -/
theorem microBufSetSize_eq (n : U32) : microBufSetSize n = microBufSetTx n (zeroBytes n) := rfl

/-- A size write goes on only with its size in capacity (R143 (a)), and fixes no local value. -/
theorem microBufSetTx_go {n : U32} {bs : List Byte} {m m' : Micro} {loc loc' : Locals} {s s' : State}
    (h : microBufSetTx n bs m loc s = .go s' m' loc') : n.toNat ≤ s.params.bufCap ∧ loc' = loc := by
  cases m <;> simp only [microBufSetTx, reduceCtorEq] at h
  split at h <;> cases h
  rename_i hc
  exact ⟨(sizeCheck_eq_ok.1 hc).2, rfl⟩

/-- A request goes on only with its operands checked. -/
theorem micro_operandChecked {i : Instr} {f : MicroFn} {m m' : Micro} {loc loc' : Locals} {s s' : State}
    (hf : microOf s.params i = some f) (hgo : f m loc s = .go s' m' loc') (h : OperandChecked s.params i m) :
    OperandChecked s.params i m' := by
  cases i <;> simp only [microOf, Option.some.injEq, reduceCtorEq] at hf <;> try exact trivial
  all_goals subst hf
  case bufSetSize n => exact fun _ => (microBufSetTx_go (microBufSetSize_eq n ▸ hgo)).1
  case bufSetTx n bs => exact fun _ => (microBufSetTx_go hgo).1
  case capStart cs n =>
    intro _
    cases m with
    | a =>
      simp only [microCapStart] at hgo
      split at hgo
      · cases hgo
      · rename_i hc; exact Nat.le_of_not_lt hc
    | _ => exact h (by simp)

/-- Where a micro-step of `f` goes on, the data phase it fixes has at most `cap` bytes, if BUF_SIZE is at most `cap`. -/
def KeepsPhaseSize (cap : Nat) (f : MicroFn) : Prop :=
  ∀ {m loc s s' m' loc'}, f m loc s = .go s' m' loc' → s.bufSize.toNat ≤ cap → loc.n ≤ cap → loc'.n ≤ cap

/-- A request whose micro-steps fix no size. -/
theorem keepsPhaseSize_of_locals {cap : Nat} {f : MicroFn}
    (h : ∀ {m loc s s' m' loc'}, f m loc s = .go s' m' loc' → loc' = loc ∨ loc'.n = 0) : KeepsPhaseSize cap f := by
  intro m loc s s' m' loc' hgo _ hl
  rcases h hgo with rfl | h0
  · exact hl
  · omega

/-- SyncXfer fixes BUF_SIZE as the size of its data phase (R160 (d)). -/
theorem keepsPhaseSize_sync (cap : Nat) (kind : SyncKind) (cs : Byte) : KeepsPhaseSize cap (microSync kind cs) := by
  intro m loc s s' m' loc' hgo hs hl
  cases m <;> simp only [microSync] at hgo <;> (repeat' split at hgo) <;> cases hgo <;> simp [syncBegin, hs, hl]

/-- Requests run one after the other keep what each of them keeps. -/
theorem keepsPhaseSize_sequence {cap : Nat} {parts : List MicroFn} (h : ∀ f ∈ parts, KeepsPhaseSize cap f) :
    KeepsPhaseSize cap (sequenceMicro parts) := by
  intro m loc s s' m' loc' hgo hs hl
  unfold sequenceMicro at hgo
  split at hgo
  · cases hgo
  · rename_i f hp
    split at hgo
    · rename_i hf
      have hpart := h f (List.mem_of_getElem? hp) hf hs hl
      cases hgo
      exact hpart
    · split at hgo <;> cases hgo
      exact Nat.zero_le cap

theorem keepsPhaseSize_bufSetTx (cap : Nat) (n : U32) (bs : List Byte) : KeepsPhaseSize cap (microBufSetTx n bs) := by
  refine keepsPhaseSize_of_locals fun hgo => ?_
  exact .inl (microBufSetTx_go hgo).2

theorem keepsPhaseSize_asyncStart (cap : Nat) (k : Kind) (cs : Byte) : KeepsPhaseSize cap (microAsyncStart k cs) := by
  refine keepsPhaseSize_of_locals fun {m _ _ _ _ _} hgo => ?_
  cases m <;> simp only [microAsyncStart, startFailed] at hgo <;> (repeat' split at hgo) <;> cases hgo <;> exact .inl rfl

theorem micro_keepsPhaseSize {p : Params} {i : Instr} {f : MicroFn} (hf : microOf p i = some f) (cap : Nat) :
    KeepsPhaseSize cap f := by
  cases i <;> simp only [microOf, Option.some.injEq, reduceCtorEq] at hf <;> subst hf
  case csAssert cs =>
    refine keepsPhaseSize_of_locals fun {m _ _ _ _ _} hgo => ?_
    cases m <;> simp only [microCsAssert, reduceCtorEq] at hgo
    split at hgo <;> cases hgo
    exact .inl rfl
  case csDeassert cs => exact keepsPhaseSize_of_locals fun hgo => by cases hgo
  case bufSetSize n => exact microBufSetSize_eq n ▸ keepsPhaseSize_bufSetTx cap n _
  case bufSetTx n bs => exact keepsPhaseSize_bufSetTx cap n bs
  case bufReadRx => exact keepsPhaseSize_of_locals fun hgo => by cases hgo
  case syncWrite cs => exact keepsPhaseSize_sync cap .write cs
  case syncRw cs => exact keepsPhaseSize_sync cap .rw cs
  case asyncRead cs => exact keepsPhaseSize_asyncStart cap .rx cs
  case asyncRw cs => exact keepsPhaseSize_asyncStart cap .txrx cs
  case asyncStatus k =>
    refine keepsPhaseSize_of_locals fun hgo => ?_
    simp only [microAsyncStatus] at hgo
    split at hgo <;> cases hgo
  case capStart cs n =>
    refine keepsPhaseSize_of_locals fun {m _ _ _ _ _} hgo => ?_
    cases m <;> simp only [microCapStart] at hgo <;> (repeat' split at hgo) <;> cases hgo <;> simp
  case capCount => exact keepsPhaseSize_of_locals fun hgo => by cases hgo
  case capSlot n =>
    refine keepsPhaseSize_of_locals fun hgo => ?_
    simp only [microCapSlot] at hgo
    repeat' split at hgo
    all_goals cases hgo
  case regWriteFrame a v =>
    refine keepsPhaseSize_sequence fun g hg => ?_
    simp only [List.mem_cons, List.not_mem_nil, or_false] at hg
    rcases hg with rfl | rfl
    · exact keepsPhaseSize_bufSetTx cap _ _
    · exact keepsPhaseSize_sync cap .write _
  case regReadFrame a =>
    refine keepsPhaseSize_sequence fun g hg => ?_
    simp only [List.mem_cons, List.not_mem_nil, or_false] at hg
    rcases hg with rfl | rfl | rfl
    · exact keepsPhaseSize_bufSetTx cap _ _
    · exact keepsPhaseSize_sync cap .rw _
    · exact keepsPhaseSize_of_locals fun hgo => by cases hgo

/-- A micro-step leads from a well-formed phase to a well-formed one. -/
theorem microStep_phaseWf {i : Instr} {f : MicroFn} {m : Micro} {loc : Locals} {s : State}
    (hf : microOf s.params i = some f) (hs : s.bufSize.toNat ≤ s.params.bufCap)
    (h : phaseWf s.params (.busy i m loc) = true) : phaseWf s.params (microStep i f m loc s).fg = true := by
  obtain ⟨hw, hr, hn, hc⟩ := phaseWf_busy.1 h
  unfold microStep
  split
  · rename_i s' m' loc' hgo
    exact phaseWf_busy.2 ⟨hw, hr, micro_keepsPhaseSize hf _ hgo hs hn, micro_operandChecked hf hgo hc⟩
  · rfl

/-! ### Effects -/

/-- An effect keeps the shape, where the sizes it writes are within the capacities. -/
theorem Effect.wf {W : Prop} {fg : Bool} {s t : State} (e : Effect W fg s t) (hw : W) (h : s.Wf) : t.Wf := by
  cases e with
  | low i =>
    rw [assertDrive_eq]
    exact { h with lines := by simpa using h.lines, faults := reservedFaults_ite h.faults (by decide) }
  | high i =>
    by_cases hi : i < s.params.nCs
    · rw [deassert_in hi]
      exact { h with lines := by simpa using h.lines, faults := reservedFaults_ite h.faults (by decide) }
    · rw [deassert_out (Nat.le_of_not_lt hi)]
      exact h
  | fault f _ hf =>
    refine { h with faults := reservedFaults_or h.faults ?_ }
    rcases hf with rfl | rfl <;> decide
  | size n bs _ _ hn =>
    obtain ⟨hcap, hlen⟩ := hn hw
    rw [sizeWrite_eq]
    exact { h with
      size := hcap
      tx := Memory.wf_writeFrom h.tx 0 bs
      txCap := Cells.below_writeFrom h.txCap 0 bs (by omega)
      rx := Memory.wf_eraseBelow h.rx _
      rxCap := Cells.below_eraseBelow h.rxCap _
      faults := reservedFaults_ite h.faults (by decide) }
  | fill bs _ hb =>
    exact { h with
      rx := Memory.wf_writeFrom h.rx 0 bs
      rxCap := Cells.below_writeFrom h.rxCap 0 bs (by simpa using hb hw) }
  | erase n =>
    exact { h with rx := Memory.wf_eraseBelow h.rx n, rxCap := Cells.below_eraseBelow h.rxCap n }
  | target n cs loc _ _ hfg =>
    have hp := h.phase
    rw [hfg] at hp
    obtain ⟨-, -, -, hc⟩ := phaseWf_busy.1 hp
    exact { h with target := hc (by simp) }
  | clear => exact { h with record := rfl, recCap := rfl }
  | sample v _ _ hc =>
    have hlt : s.capCounter.toNat < s.params.recordCap := Nat.lt_of_lt_of_le hc h.target
    exact { h with record := Cells.wf_write h.record _ v, recCap := Cells.below_write h.recCap hlt v }
  | status k v => cases k <;> exact { h with }
  | pend k => cases k <;> exact { h with }
  | free => exact { h with }
  | bus => exact { h with }
  | phaseDone => exact { h with }
  | log => exact { h with }
  | last => exact { h with }
  | line => exact { h with }
  | enable => exact { h with }
  | disable => exact { h with }

theorem Effects.wf {W : Prop} {fg : Bool} {s t : State} (e : Effects W fg s t) (hw : W) (h : s.Wf) : t.Wf := by
  induction e with
  | refl => exact h
  | tail _ e ih => exact e.wf hw ih

/-! ### Acts -/

/-- The shape does not depend on the response, and of FG_PHASE it asks that the phase is well formed. -/
theorem State.Wf.withPhase {s : State} (h : s.Wf) {fg : FgPhase} (hp : phaseWf s.params fg = true)
    (r : Option Response) : ({ s with fg := fg, response := r } : State).Wf :=
  { h with phase := hp }

/-- The state R300 gives under legal parameters has the shape. -/
theorem State.initial_wf {p : Params} (h : p.legal = true) : (State.initial p).Wf where
  params := h
  bound := rfl
  driver := rfl
  lines := by simp [State.initial]
  size := Nat.zero_le _
  tx := rfl
  txCap := rfl
  rx := rfl
  rxCap := rfl
  record := rfl
  recCap := rfl
  target := Nat.zero_le _
  faults := BitVec.zero_and
  phase := rfl
  prog := rfl

theorem microStep_wf {i : Instr} {f : MicroFn} {m : Micro} {loc : Locals} {s : State} (hfg : s.fg = .busy i m loc)
    (hf : microOf s.params i = some f) (h : s.Wf) : (microStep i f m loc s).Wf := by
  have hstate : (f m loc s).state.Wf := (micro_effects hf hfg).wf ⟨h.params, h.phase⟩ h
  have hphase := microStep_phaseWf hf h.size (hfg ▸ h.phase)
  have hparams : (f m loc s).state.params = s.params := micro_params hf m loc s
  obtain ⟨fg, r, he, -⟩ := microStep_eq i f m loc s
  rw [he] at hphase ⊢
  exact hstate.withPhase (hparams ▸ hphase) r

/-- Taking an interrupt clears a pending bit, which the shape does not name, and runs the handler. -/
theorem interrupt_wf (src : IrqSource) {s : State} (h : s.Wf) : (handler src (acknowledge src s)).Wf := by
  refine (handler_effects (W := True) src _).wf trivial ?_
  rcases src with _ | _ | _ <;> exact { h with }

/-- Every act keeps the shape. -/
theorem Act.wf {G : Prop} {τ : Turn} {s t : State} (a : Act G τ s t) (hg : G) (h : s.Wf) : t.Wf := by
  cases a with
  | input => exact { h with }
  | prog k _ ops hops => exact { h with prog := hops hg }
  | illegal => exact h.withPhase rfl _
  | take k i _ _ hi =>
    obtain ⟨hw, hr⟩ := hi hg
    exact h.withPhase (phaseWf_busy.2 ⟨hw, hr, Nat.zero_le _, operandChecked_a _ i⟩) none
  | micro k i f m loc _ hfg hf => exact microStep_wf hfg hf h
  | irq src => exact interrupt_wf src h
  | edge => exact { h with }
  | phaseEnd _ k miso _ _ hn => exact (phaseEnd_effects (W := True) k miso _ fun _ => hn ▸ h.size).wf trivial h
  | reset => exact { State.initial_wf h.params with }

/-- Settles O43: a step is a chain of acts of the agent whose turn it is, and every act keeps the shape; the shape itself
says that FG runs well-formed requests only. -/
theorem stepKeepsWellFormed : Obligations.StepKeepsWellFormed := by
  intro s t hs hstep
  have guarded : Guarded s := ⟨hs.prog, hs.phase⟩
  exact step_keeps hstep (fun _ _ a => a.wf guarded) hs

end Sys2Proof.Machine
end

section
/-! PROOF. Which instruction a step runs: one equation for each turn and for each source FG takes an instruction from
(spec/00_scope.md R11, R14, spec/20_memory.md R77). -/

namespace Sys2Proof

/-- The first byte of a register frame has its flag in bit 7 (R110, R111). -/
theorem flag_of_append (flag : BitVec 1) (a : BitVec 7) : (flag ++ a : Byte).getLsbD 7 = flag.getLsbD 0 := by
  simp only [BitVec.getLsbD_append, Nat.lt_irrefl, if_false, Nat.sub_self]

/-- Decoding a register frame's bytes gives it back (R110, R111, R113), whatever bytes follow. -/
theorem decodeRegFrame_encode {i : Instr} (h : i.format = .frame40) (rest : List Byte) :
    decode .frame40 (encode i ++ rest) = .ok (i, rest) := by
  cases i <;> simp only [Instr.format, reduceCtorEq] at h
  case regWriteFrame a v =>
    have hflag : (0#1 ++ a : Byte).getLsbD 7 = false := flag_of_append 0#1 a
    simp only [decode, encode, bytes32, List.cons_append, List.nil_append, decodeRegFrame, hflag, if_true,
      append_extract32, BitVec.extractLsb'_append_eq_right]
  case regReadFrame a =>
    have hflag : (1#1 ++ a : Byte).getLsbD 7 = true := flag_of_append 1#1 a
    simp only [decode, encode, bytes32, List.cons_append, List.nil_append, decodeRegFrame, hflag, reduceCtorEq, if_false,
      if_true, append_extract32, BitVec.extractLsb'_append_eq_right]

end Sys2Proof

namespace Sys2Proof.Machine

/-- A listed turn is the step's (log 2). -/
theorem step_of_turn {τ : Turn} {rest : List Turn} {s : State} (h : s.turns = τ :: rest) :
    step s = runTurn τ { s with turns := rest } := by
  simp [step, nextTurn, h]

/-- FG goes on with the request in progress. -/
theorem fgTurn_busy {i : Instr} {m : Micro} {loc : Locals} {s : State} (h : s.fg = .busy i m loc) :
    fgTurn s = exec i s := by
  simp [fgTurn, h]

/-- An idle FG does the next action of the host program in progress. -/
theorem fgTurn_prog {op : HostOp} {ops : List HostOp} {s : State} (h : s.fg = .idle) (hp : s.hostProg = op :: ops) :
    fgTurn s = hostAct op { s with hostProg := ops } := by
  simp [fgTurn, h, hp]

/-- An idle FG with no host program fetches from the port. -/
theorem fgTurn_fetch {s : State} (h : s.fg = .idle) (hp : s.hostProg = []) : fgTurn s = fetchRequest s := by
  simp [fgTurn, h, hp]

/-- No whole request stands at an empty port. -/
theorem portReady_nil {s : State} (h : s.port = []) : portReady s = false := by
  rw [portReady, h]
  rfl

/-- HOST sends the register frame it is given (log 10). -/
theorem hostTake_frame {i : Instr} {ins : List HostInput} {s : State} (hf : i.format = .frame40)
    (h : s.hostIn = .frame (encode i) :: ins) : hostTake s = exec i { s with hostIn := ins } := by
  have hd : decode .frame40 (encode i) = .ok (i, []) := by simpa using decodeRegFrame_encode hf []
  simp [hostTake, h, hd]

/-- The bytes of an event, or of a sample frame, placed, are run by the next step (log 6). -/
theorem step_placeEvent {i : Instr} {τ : Turn} (h : turnOfEvent i = some τ) (s : State) :
    step (placeEvent i.format (encode i) s) = exec i s := by
  rw [placeEvent_encode h, step_of_turn rfl, runTurn_event h]

/-- The events and the sample frame are the instructions with a turn of their own (R100, R112). -/
theorem turnOfEvent_of_format {i : Instr} (h : i.format = .event8 ∨ i.format = .frame24) :
    ∃ τ, turnOfEvent i = some τ := by
  cases i <;> simp [Instr.format, turnOfEvent] at h ⊢

theorem placeBytes_event {f : Format} (h : f = .event8 ∨ f = .frame24) (bs : List Byte) (s : State) :
    placeBytes f bs s = placeEvent f bs s := by
  rcases h with rfl | rfl <;> rfl

/-- Settles O52, clause by clause: the listed turn is the step's, and each turn runs its own. -/
theorem stepRunsTheInstructionOfItsTurn : Obligations.StepRunsTheInstructionOfItsTurn := by
  intro k rest s
  refine ⟨?busy, ?issue, ?edge, ?xferEnd, ?sample, ?reset, ?frame, ?placed, ?irq, ?slave, ?send, ?ask⟩
  case busy =>
    intro i m loc hturn hfg
    rw [step_of_turn hturn]
    exact fgTurn_busy (s := { s with turns := rest, quota := k }) hfg
  case issue =>
    intro i ops hturn hfg hprog
    rw [step_of_turn hturn]
    exact fgTurn_prog (s := { s with turns := rest, quota := k }) hfg hprog
  case frame =>
    intro i ins hf hturn hfg hprog hport hin
    rw [step_of_turn hturn]
    let u : State := { s with turns := rest, quota := k }
    calc fgTurn u = fetchRequest u := fgTurn_fetch hfg hprog
      _ = hostTake u := fetchRequest_waits (portReady_nil hport)
      _ = exec i { u with hostIn := ins } := hostTake_frame hf hin
  case placed =>
    intro i hf
    obtain ⟨τ, hτ⟩ := turnOfEvent_of_format hf
    rw [placeBytes_event hf, step_placeEvent hτ]
  case edge | xferEnd | reset => exact step_of_turn
  case sample | irq | slave | send | ask => exact fun _ => step_of_turn

end Sys2Proof.Machine
end

section
/-! PROOF. Every step keeps the capture record (spec/10_state.md R45 (iv), (v), R31): effect by effect for the counter and
the slots, then act by act for CAP.START's window. -/

namespace Sys2Proof.Machine

variable {W : Prop} {fg : Bool}

theorem capStartWindow_eq_true {s : State} :
    capStartWindow s = true ↔ ∃ cs n loc, s.fg = .busy (.capStart cs n) .c loc := by
  unfold capStartWindow
  split
  · rename_i cs n loc hfg
    simp only [hfg, true_iff]
    exact ⟨cs, n, loc, rfl⟩
  · rename_i hfg
    simp only [Bool.false_eq_true, false_iff, not_exists]
    exact hfg

/-- Outside CAP.START's window the counter itself is bounded. -/
theorem CounterBounded.le {s : State} (h : CounterBounded s)
    (hw : ∀ cs n loc, s.fg ≠ .busy (.capStart cs n) .c loc) : s.capCounter ≤ s.capTarget := by
  refine h.resolve_left fun hwin => ?_
  obtain ⟨cs, n, loc, hfg⟩ := capStartWindow_eq_true.1 hwin
  exact hw cs n loc hfg

/-- A sample counted below the target does not make the counter wrap. -/
theorem counter_succ_toNat {c t : U32} (h : c < t) : (c + 1).toNat = c.toNat + 1 := by
  have := t.isLt
  bv_omega

/-- The one effect that counts up writes the slot it counts (R216). -/
theorem Effect.recordFilled {s t : State} (e : Effect W fg s t) (h : RecordFilled s) : RecordFilled t := by
  cases e with
  | clear => exact fun i hi => absurd hi (Nat.not_lt_zero i)
  | sample v _ _ hc =>
    intro i hi
    have hi : i < s.capCounter.toNat + 1 := counter_succ_toNat hc ▸ hi
    show (Cells.read (Cells.write s.record s.capCounter.toNat v) i).isSome = true
    rw [Cells.read_write]
    split
    · rfl
    · exact h i (by omega)
  | _ => simpa [RecordFilled] using h

/-- The counter passes the target in no effect but CAP.START's write of the target (R220 (b)). -/
theorem Effect.counter_le {s t : State} (e : Effect W fg s t)
    (hb : fg = true → ∀ cs n loc, s.fg ≠ .busy (.capStart cs n) .b loc) (h : s.capCounter ≤ s.capTarget) :
    t.capCounter ≤ t.capTarget := by
  cases e with
  | target n cs loc _ hf hfg => exact absurd hfg (hb hf cs n loc)
  | clear => exact Nat.zero_le _
  | sample v _ _ hc =>
    have := counter_succ_toNat hc
    show s.capCounter + 1 ≤ s.capTarget
    bv_omega
  | _ => simpa using h

theorem Effects.recordFilled {s t : State} (e : Effects W fg s t) (h : RecordFilled s) : RecordFilled t := by
  induction e with
  | refl => exact h
  | tail _ e ih => exact e.recordFilled ih

theorem Effects.counter_le {s t : State} (e : Effects W fg s t)
    (hb : fg = true → ∀ cs n loc, s.fg ≠ .busy (.capStart cs n) .b loc) (h : s.capCounter ≤ s.capTarget) :
    t.capCounter ≤ t.capTarget := by
  induction e with
  | refl => exact h
  | @tail u _ e' e ih =>
    obtain ⟨-, hfg, -⟩ := Effects.frame e'
    exact e.counter_le (hfg ▸ hb) ih

/-- CAP.START opens the window at (b), and closes it at (c) with the counter at 0; every other micro-step starts with the
counter bounded, and keeps it so. -/
theorem microStep_counterBounded {i : Instr} {f : MicroFn} {m : Micro} {loc : Locals} {s : State}
    (hfg : s.fg = .busy i m loc) (hf : microOf s.params i = some f) (h : CounterBounded s) :
    CounterBounded (microStep i f m loc s) := by
  by_cases hi : ∃ cs n, i = .capStart cs n ∧ (m = .b ∨ m = .c)
  · obtain ⟨cs, n, rfl, hm⟩ := hi
    obtain rfl : microCapStart cs n = f := by simpa [microOf] using hf
    rcases hm with rfl | rfl
    · exact .inl rfl
    · exact .inr (Nat.zero_le _)
  · have hno : ∀ m', m' = .b ∨ m' = .c → ∀ cs n loc', s.fg ≠ .busy (.capStart cs n) m' loc' := by
      intro m' hm cs n loc' e
      cases hfg.symm.trans e
      exact hi ⟨cs, n, rfl, hm⟩
    obtain ⟨fg, r, he, -⟩ := microStep_eq i f m loc s
    rw [he]
    exact .inr ((micro_effects hf hfg).counter_le (fun _ => hno .b (.inl rfl)) (h.le (hno .c (.inr rfl))))

theorem microStep_recordFilled {i : Instr} {f : MicroFn} {m : Micro} {loc : Locals} {s : State}
    (hfg : s.fg = .busy i m loc) (hf : microOf s.params i = some f) (h : RecordFilled s) :
    RecordFilled (microStep i f m loc s) := by
  obtain ⟨fg, r, he, -⟩ := microStep_eq i f m loc s
  rw [he]
  exact (micro_effects hf hfg).recordFilled h

/-- An effect of IRQ or of PERIPH leaves FG in the window it is in, and else the counter bounded. -/
theorem Effects.counterBounded {s t : State} (e : Effects W false s t) (h : CounterBounded s) : CounterBounded t := by
  obtain ⟨-, hfg, -⟩ := Effects.frame e
  refine h.imp (fun hw => ?_) (e.counter_le (fun hf => by cases hf))
  unfold capStartWindow at hw ⊢
  rwa [hfg]

theorem handler_keepsRecord (src : IrqSource) {s : State} (hc : CounterBounded s) (hr : RecordFilled s) :
    CounterBounded (handler src (acknowledge src s)) ∧ RecordFilled (handler src (acknowledge src s)) := by
  have e : Effects False false (acknowledge src s) (handler src (acknowledge src s)) := handler_effects src _
  refine ⟨e.counterBounded ?_, e.recordFilled ?_⟩
  · simpa [CounterBounded, capStartWindow] using hc
  · simpa [RecordFilled] using hr

theorem Act.keepsRecord {G : Prop} {τ : Turn} {s t : State} (a : Act G τ s t) (hc : CounterBounded s)
    (hr : RecordFilled s) : CounterBounded t ∧ RecordFilled t := by
  cases a with
  | micro k i f m loc _ hfg hf => exact ⟨microStep_counterBounded hfg hf hc, microStep_recordFilled hfg hf hr⟩
  | irq src => exact handler_keepsRecord src hc hr
  | phaseEnd _ k miso =>
    have e : Effects False false s (endDataPhase k miso s) := phaseEnd_effects k miso s False.elim
    exact ⟨e.counterBounded hc, e.recordFilled hr⟩
  | reset => exact ⟨.inr (Nat.zero_le _), fun i hi => absurd hi (Nat.not_lt_zero i)⟩
  | illegal _ _ hi => exact ⟨.inr (hc.le (by simp [hi])), hr⟩
  | take _ i _ hi => exact ⟨.inr (hc.le (by simp [hi])), hr⟩
  | input => exact ⟨hc, hr⟩
  | prog => exact ⟨hc, hr⟩
  | edge => exact ⟨hc, hr⟩

/-- Settles O32: only CAP.START (b) can put the counter above the target, which opens the window, and only the capture
hook counts up, with its slot written. -/
theorem stepKeepsCaptureRecord : Obligations.StepKeepsCaptureRecord := by
  intro s t hc hr hstep
  exact step_keeps (P := fun u => CounterBounded u ∧ RecordFilled u) hstep
    (fun _ _ a ⟨hc, hr⟩ => a.keepsRecord hc hr) ⟨hc, hr⟩

end Sys2Proof.Machine
end

section
/-! PROOF. What only its named writers change (spec/10_state.md R22, R36, R38, R40): the fault bits, the binding, and the
edge enable. -/

namespace Sys2Proof.Machine

variable {W : Prop} {fg : Bool}

/-! ### The fault bits (R40) -/

/-- Every fault bit of `s` is set in `t`. -/
def FaultsKept (s t : State) : Prop := ∀ j, s.faults.getLsbD j = true → t.faults.getLsbD j = true

theorem FaultsKept.of_eq {s t : State} (h : t.faults = s.faults) : FaultsKept s t := by
  intro j hj
  rwa [h]

theorem FaultsKept.trans {s t u : State} (h : FaultsKept s t) (h' : FaultsKept t u) : FaultsKept s u :=
  fun j hj => h' j (h j hj)

/-- A fault is raised by setting its bit (R40). -/
theorem FaultsKept.of_or {s t : State} {f : Byte} (h : t.faults = s.faults ∨ t.faults = s.faults ||| f) :
    FaultsKept s t := by
  rcases h with h | h
  · exact .of_eq h
  · intro j hj
    rw [h, BitVec.getLsbD_or, hj, Bool.true_or]

theorem Effect.faultsKept {s t : State} (e : Effect W fg s t) : FaultsKept s t := by
  cases e with
  | low i => exact .of_or (f := fMultiSelect) (by rw [assertDrive_eq]; exact (ite_eq_or_eq ..).symm)
  | high i => exact .of_or (f := fCsReleasedInFlight) (by rw [deassert_faults]; exact ite_eq_or_eq ..)
  | fault f => exact .of_or (.inr rfl)
  | size n bs => exact .of_or (f := fBufferWriteInFlight) (by rw [sizeWrite_faults]; exact (ite_eq_or_eq ..).symm)
  | _ => exact .of_eq (by simp)

theorem Effects.faultsKept {s t : State} (e : Effects W fg s t) : FaultsKept s t := by
  induction e with
  | refl => exact .of_eq rfl
  | tail _ e ih => exact ih.trans e.faultsKept

/-- Every act but a reset keeps the fault bits. -/
theorem Act.faultsKept {G : Prop} {τ : Turn} {s t : State} (a : Act G τ s t) (hg : G) (hτ : τ ≠ .platform) :
    FaultsKept s t := by
  cases a with
  | micro k i f m loc _ hfg hf =>
    obtain ⟨fg, r, he, -⟩ := microStep_eq i f m loc s
    rw [he]
    exact (micro_effects hf hfg).faultsKept
  | irq src =>
    have e : Effects True false (acknowledge src s) (handler src (acknowledge src s)) := handler_effects src _
    exact (FaultsKept.of_eq (acknowledge_faults src s)).trans e.faultsKept
  | phaseEnd _ k miso => exact (phaseEnd_effects (W := False) k miso s False.elim).faultsKept
  | reset _ _ h => exact absurd (h hg) hτ
  | input => exact .of_eq rfl
  | prog => exact .of_eq rfl
  | illegal => exact .of_eq rfl
  | take => exact .of_eq rfl
  | edge => exact .of_eq rfl

/-- Settles O37: every effect on FAULTS sets a bit, and only the platform resets. -/
theorem faultsAreSticky : Obligations.FaultsAreSticky := by
  intro s t hs hstep hτ
  have guarded : Guarded s := ⟨hs.prog, hs.phase⟩
  exact step_keeps (P := FaultsKept s) hstep (fun _ _ a h => h.trans (a.faultsKept guarded hτ)) (.of_eq rfl)

/-! ### The parameters and the binding (R22, R38, R311) -/

/-- The parameters and the binding of `s` stand in `t`. -/
def BindingKept (s t : State) : Prop :=
  t.params = s.params ∧ t.bound = s.bound ∧ t.activeDriver = s.activeDriver

theorem Effects.bindingKept {s t : State} (e : Effects W fg s t) : BindingKept s t := by
  obtain ⟨hparams, -, hbound, hdriver, -⟩ := Effects.frame e
  exact ⟨hparams, hbound, hdriver⟩

/-- Every act but a reset leaves the binding as it is, and a reset binds the parameters' values again. -/
theorem Act.bindingKept {G : Prop} {τ : Turn} {s t : State} (a : Act G τ s t)
    (hb : s.bound = s.params.handleBound) (hd : s.activeDriver = s.params.activeDriver) : BindingKept s t := by
  cases a with
  | micro k i f m loc _ hfg hf =>
    obtain ⟨fg, r, he, -⟩ := microStep_eq i f m loc s
    rw [he]
    exact (micro_effects hf hfg).bindingKept
  | irq src =>
    have e : Effects True false (acknowledge src s) (handler src (acknowledge src s)) := handler_effects src _
    simpa [BindingKept] using e.bindingKept
  | phaseEnd _ k miso => exact (phaseEnd_effects (W := False) k miso s False.elim).bindingKept
  | reset => exact ⟨rfl, hb.symm, hd.symm⟩
  | input => exact ⟨rfl, rfl, rfl⟩
  | prog => exact ⟨rfl, rfl, rfl⟩
  | illegal => exact ⟨rfl, rfl, rfl⟩
  | take => exact ⟨rfl, rfl, rfl⟩
  | edge => exact ⟨rfl, rfl, rfl⟩

/-- Settles O38: no effect writes them, and a reset writes BOUND and ACTIVE_DRIVER from the parameters, which they equal
already. -/
theorem bindingNeverChanges : Obligations.BindingNeverChanges := by
  intro s t hb hd hstep
  refine step_keeps (P := BindingKept s) hstep (fun u v a ⟨hp, hb', hd'⟩ => ?_) ⟨rfl, rfl, rfl⟩
  obtain ⟨hp2, hb2, hd2⟩ := a.bindingKept (by rw [hb', hp, hb]) (by rw [hd', hp, hd])
  exact ⟨hp2.trans hp, hb2.trans hb', hd2.trans hd'⟩

/-! ### The edge enable (R36) -/

/-- IRQ and PERIPH enable no edge. -/
theorem Effects.edgeEn_false {s t : State} (e : Effects W false s t) (h : s.edgeEn = false) : t.edgeEn = false := by
  induction e with
  | refl => exact h
  | tail _ e ih =>
    cases e with
    | enable _ _ _ _ hf => cases hf
    | disable => rfl
    | _ => simpa using ih

/-- FG disables no edge. -/
theorem Effects.edgeEn_true {s t : State} (e : Effects W true s t) (h : s.edgeEn = true) : t.edgeEn = true := by
  induction e with
  | refl => exact h
  | tail _ e ih =>
    cases e with
    | disable _ hf => cases hf
    | enable => rfl
    | _ => simpa using ih

/-- All a hook writes: the record, the counter, FAULTS, and the count of free values. -/
theorem hook_state (k : Kind) (s : State) : ∃ record capCounter faults draws, hook k s =
    { s with record := record, capCounter := capCounter, faults := faults, draws := draws } := by
  unfold hook
  split
  · exact captureHook_state s
  · exact ⟨s.record, s.capCounter, s.faults, s.draws, rfl⟩

/-- A completion handler leaves the edge enable as it is (R191). -/
theorem completionHandler_edgeEn (k : Kind) (s : State) : (completionHandler k s).edgeEn = s.edgeEn := by
  obtain ⟨record, capCounter, faults, draws, e⟩ := hook_state k { s with xferDoneHw := false, periph := .idle }
  simp [completionHandler, releaseLast, e]

/-- So does the end of a data phase (R190). -/
theorem endDataPhase_edgeEn (k : Kind) (miso : List Byte) (s : State) : (endDataPhase k miso s).edgeEn = s.edgeEn := by
  cases k <;> simp [endDataPhase, asyncMosi]

/-- No act outside a turn of FG sets the edge enable. -/
theorem Act.edgeEn_false {G : Prop} {τ : Turn} {s t : State} (a : Act G τ s t) (hτ : ∀ k, τ ≠ .fg k)
    (h : s.edgeEn = false) : t.edgeEn = false := by
  cases a with
  | prog k => exact absurd rfl (hτ k)
  | illegal k => exact absurd rfl (hτ k)
  | take k => exact absurd rfl (hτ k)
  | micro k => exact absurd rfl (hτ k)
  | irq src =>
    have e : Effects True false (acknowledge src s) (handler src (acknowledge src s)) := handler_effects src _
    exact e.edgeEn_false (by simpa using h)
  | phaseEnd _ k miso => rwa [endDataPhase_edgeEn]
  | reset => rfl
  | input => exact h
  | edge => exact h

/-- No act but the edge interrupt's and a reset clears the edge enable. -/
theorem Act.edgeEn_true {G : Prop} {τ : Turn} {s t : State} (a : Act G τ s t) (hg : G) (hirq : τ ≠ .irq .edge)
    (hreset : τ ≠ .platform) (h : s.edgeEn = true) : t.edgeEn = true := by
  cases a with
  | micro k i f m loc _ hfg hf =>
    obtain ⟨fg, r, he, -⟩ := microStep_eq i f m loc s
    rw [he]
    exact (micro_effects hf hfg).edgeEn_true h
  | irq src =>
    cases src with
    | edge => exact absurd rfl hirq
    | cpl k => rwa [handler, completionHandler_edgeEn, acknowledge_edgeEn]
  | phaseEnd _ k miso => rwa [endDataPhase_edgeEn]
  | reset _ _ hτ => exact absurd (hτ hg) hreset
  | input => exact h
  | prog => exact h
  | illegal => exact h
  | take => exact h
  | edge => exact h

/-- Settles O39: of the agents' effects only FG's set the edge enable, and only the edge handler's clear it. -/
theorem edgeEnableHasItsWriters : Obligations.EdgeEnableHasItsWriters := by
  intro s t hs hstep
  have guarded : Guarded s := ⟨hs.prog, hs.phase⟩
  constructor
  · intro hclear hset
    by_contra hτ
    have hkept : t.edgeEn = false := step_keeps (P := fun u => u.edgeEn = false) hstep
      (fun _ _ a => a.edgeEn_false fun k e => hτ ⟨k, e⟩) hclear
    rw [hset] at hkept
    cases hkept
  · intro hset hclear
    by_contra hτ
    obtain ⟨hirq, hreset⟩ := not_or.1 hτ
    have hkept : t.edgeEn = true := step_keeps (P := fun u => u.edgeEn = true) hstep
      (fun _ _ a => a.edgeEn_true guarded hirq hreset) hset
    rw [hclear] at hkept
    cases hkept

end Sys2Proof.Machine
end

section
/-! PROOF. Every step keeps the transfer flags (spec/10_state.md R24, R26, R37): micro-step by micro-step for FG, then
handler by handler. -/

namespace Sys2Proof.Machine

/-! ### What the transfer flags depend on -/

/-- What the transfer flags read of the block is the same in `s` and `t`. -/
def SameTransfer (s t : State) : Prop :=
  t.periph = s.periph ∧ t.xferDoneHw = s.xferDoneHw ∧ t.cplRx = s.cplRx ∧ t.cplTxRx = s.cplTxRx ∧
    t.lastCs = s.lastCs ∧ t.lastCsV = s.lastCsV

/-- No data phase has ended, and no completion is pending. -/
def NothingEnded (s : State) : Prop :=
  s.xferDoneHw = false ∧ s.cplRx = false ∧ s.cplTxRx = false

theorem asyncPeriph_ne_idle (k : Kind) : asyncPeriph k ≠ .idle := by cases k <;> decide

theorem asyncPeriph_ne_syncPeriph (k : Kind) (kind : SyncKind) : asyncPeriph k ≠ syncPeriph kind := by
  cases k <;> cases kind <;> decide

theorem asyncPeriph_injective {k k' : Kind} (h : asyncPeriph k = asyncPeriph k') : k = k' := by
  cases k <;> cases k' <;> first | rfl | cases h

/-- A synchronous data phase has the bus, whichever kind it is (R160). -/
theorem TransferFlags.syncPeriph {s : State} (h : TransferFlags s) (hs : inSyncPhase s.fg = true) :
    ∃ kind, s.periph = Machine.syncPeriph kind := by
  rcases h.sync hs with hp | hp
  · exact ⟨.write, hp⟩
  · exact ⟨.rw, hp⟩

/-- With no asynchronous transfer in flight none has ended its data phase. -/
theorem TransferFlags.nothingEnded {s : State} (h : TransferFlags s) (hp : ∀ k, s.periph ≠ asyncPeriph k) :
    NothingEnded s := by
  have hpend : ∀ k, Machine.pending (.cpl k) s = false := fun k =>
    Bool.eq_false_iff.2 fun hk => hp k (h.pending k hk).1
  refine ⟨Bool.eq_false_iff.2 fun hd => ?_, hpend .rx, hpend .txrx⟩
  obtain ⟨k, hk⟩ := h.doneHw hd
  exact hp k hk

theorem TransferFlags.nothingEnded_of_idle {s : State} (h : TransferFlags s) (hp : s.periph = .idle) :
    NothingEnded s :=
  h.nothingEnded fun k e => asyncPeriph_ne_idle k (e.symm.trans hp)

/-- The flags where nothing has ended: what is left is FG's part and LAST_CS's. -/
theorem TransferFlags.of_nothingEnded {t : State} (hq : NothingEnded t)
    (sync : inSyncPhase t.fg = true → t.periph = .syncTx ∨ t.periph = .syncTxRx) (valid : t.lastCsV = t.lastCs.isSome)
    (starting : atPrimitive t.fg = true → t.lastCsV = true) (named : ∀ k, t.periph = asyncPeriph k → t.lastCsV = true) :
    TransferFlags t := by
  obtain ⟨hdone, hrx, htxrx⟩ := hq
  refine ⟨fun hd => ?_, fun k hk => ?_, sync, valid, starting, named⟩
  · rw [hdone] at hd; cases hd
  · have hk' : Machine.pending (.cpl k) t = false := by cases k <;> assumption
    rw [hk'] at hk; cases hk

/-- What an act that leaves the bus and the pending completions as they are has to show of the flags. -/
theorem TransferFlags.of_sameBus {s t : State} (h : TransferFlags s) (hperiph : t.periph = s.periph)
    (hdone : t.xferDoneHw = s.xferDoneHw) (hrx : t.cplRx = s.cplRx) (htxrx : t.cplTxRx = s.cplTxRx)
    (hsync : inSyncPhase t.fg = true → inSyncPhase s.fg = true) (valid : t.lastCsV = t.lastCs.isSome)
    (starting : atPrimitive t.fg = true → t.lastCsV = true) (named : s.lastCsV = true → t.lastCsV = true) :
    TransferFlags t := by
  have hpend : ∀ k, Machine.pending (.cpl k) t = Machine.pending (.cpl k) s := fun k => by cases k <;> assumption
  refine ⟨?_, fun k => ?_, fun hp => ?_, valid, starting, fun k hp => named (h.named k (hperiph ▸ hp))⟩
  · rw [hdone, hperiph]; exact h.doneHw
  · rw [hpend, hperiph, hdone]; exact h.pending k
  · rw [hperiph]; exact h.sync (hsync hp)

/-- The flags depend on the phase of FG only through a synchronous data phase and the call of the primitive. -/
theorem TransferFlags.of_same {s t : State} (h : TransferFlags s) (e : SameTransfer s t)
    (hsync : inSyncPhase t.fg = true → inSyncPhase s.fg = true)
    (hstart : atPrimitive t.fg = true → atPrimitive s.fg = true) : TransferFlags t := by
  obtain ⟨hperiph, hdone, hrx, htxrx, hlast, hlastV⟩ := e
  refine h.of_sameBus hperiph hdone hrx htxrx hsync ?_ (fun hp => ?_) fun hv => hlastV.trans hv
  · rw [hlastV, hlast]; exact h.valid
  · exact hlastV.trans (h.starting (hstart hp))

/-- Naming the last line used (R181 (c)) allows FG to call the primitive. -/
theorem TransferFlags.of_select {s t : State} {cs : Byte} (h : TransferFlags s)
    (e : SameTransfer { s with lastCs := some cs, lastCsV := true } t)
    (hsync : inSyncPhase t.fg = true → inSyncPhase s.fg = true) : TransferFlags t := by
  obtain ⟨hperiph, hdone, hrx, htxrx, hlast, hlastV⟩ := e
  exact h.of_sameBus hperiph hdone hrx htxrx hsync (by rw [hlastV, hlast]; rfl) (fun _ => hlastV) fun _ => hlastV

/-- A transfer begins on an idle bus, with its line named (R181 (d)). -/
theorem TransferFlags.of_begin {s t : State} {k : Kind} (h : TransferFlags s) (hp : s.periph = .idle)
    (hv : s.lastCsV = true) (e : SameTransfer { s with periph := asyncPeriph k } t)
    (hsync : inSyncPhase t.fg = true → inSyncPhase s.fg = true) : TransferFlags t := by
  obtain ⟨-, hdone, hrx, htxrx, hlast, hlastV⟩ := e
  have hq := h.nothingEnded_of_idle hp
  refine .of_nothingEnded (by simpa only [NothingEnded, hdone, hrx, htxrx] using hq) (fun hs => ?_) ?_ ?_ ?_
  · obtain ⟨kind, hk⟩ := h.syncPeriph (hsync hs)
    rw [hp] at hk
    cases kind <;> cases hk
  · rw [hlastV, hlast]; exact h.valid
  · exact fun _ => hlastV.trans hv
  · exact fun _ _ => hlastV.trans hv

/-! ### FG's micro-steps -/

/-- Every micro-step of `f`, as a part of the request `i`, keeps the flags. -/
def KeepsFlags (i : Instr) (f : MicroFn) : Prop :=
  ∀ m loc s, s.fg = .busy i m loc → TransferFlags s → TransferFlags (microStep i f m loc s)

/-- A micro-step after which neither a synchronous data phase nor the primitive is next. -/
def LeadsElsewhere (i : Instr) (out : MicroOut) : Prop :=
  ∀ s' m' loc', out = .go s' m' loc' → inSyncPhase (.busy i m' loc') = false ∧ atPrimitive (.busy i m' loc') = false

/-- A micro-step that writes nothing the flags read. -/
theorem TransferFlags.microStep {i : Instr} {f : MicroFn} {m : Micro} {loc : Locals} {s : State} (h : TransferFlags s)
    (hsame : SameTransfer s (f m loc s).state) (hgo : LeadsElsewhere i (f m loc s)) :
    TransferFlags (microStep i f m loc s) := by
  obtain ⟨fg, r, he, hfg⟩ := microStep_eq i f m loc s
  have hquiet : inSyncPhase fg = false ∧ atPrimitive fg = false := by
    rcases hfg with rfl | ⟨m', loc', rfl, hout⟩
    · exact ⟨rfl, rfl⟩
    · exact hgo _ m' loc' hout
  rw [he]
  exact h.of_same hsame (fun hs => absurd hs (by simp [hquiet.1])) fun hs => absurd hs (by simp [hquiet.2])

/-- The request's micro-step (e), and no other, is in a synchronous data phase; none calls the primitive (R160). -/
def SyncPhases (i : Instr) : Prop :=
  ∀ m loc, (inSyncPhase (.busy i m loc) = true ↔ m = .e) ∧ atPrimitive (.busy i m loc) = false

/-- The request's micro-step (d), and no other, calls the primitive; none is in a synchronous data phase (R181). -/
def StartPhases (i : Instr) : Prop :=
  ∀ m loc, inSyncPhase (.busy i m loc) = false ∧ (atPrimitive (.busy i m loc) = true ↔ m = .d)

theorem leadsElsewhere_of_ret {i : Instr} {s : State} {rc : ResultCode} {d : RespData} : LeadsElsewhere i (.ret s rc d) :=
  fun _ _ _ e => by cases e

theorem SyncPhases.leadsElsewhere {i : Instr} (hi : SyncPhases i) {s : State} {m : Micro} {loc : Locals} (hm : m ≠ .e) :
    LeadsElsewhere i (.go s m loc) := by
  intro s' m' loc' e
  cases e
  exact ⟨Bool.eq_false_iff.2 fun hs => hm ((hi m loc).1.1 hs), (hi m loc).2⟩

theorem StartPhases.leadsElsewhere {i : Instr} (hi : StartPhases i) {s : State} {m : Micro} {loc : Locals}
    (hm : m ≠ .d) : LeadsElsewhere i (.go s m loc) := by
  intro s' m' loc' e
  cases e
  exact ⟨(hi m loc).1, Bool.eq_false_iff.2 fun hs => hm ((hi m loc).2.1 hs)⟩

/-- SyncXfer takes the bus at (d) and gives it back at (e) (R160). -/
theorem keepsFlags_sync {i : Instr} (hi : SyncPhases i) (kind : SyncKind) (cs : Byte) :
    KeepsFlags i (microSync kind cs) := by
  intro m loc s hfg h
  cases m with
  | e =>
    obtain ⟨kind', hp⟩ := h.syncPeriph (by rw [hfg]; exact (hi .e loc).1.2 rfl)
    have hq : NothingEnded s := h.nothingEnded fun k e => asyncPeriph_ne_syncPeriph k kind' (e.symm.trans hp)
    rw [microStep_go rfl]
    refine .of_nothingEnded hq (fun hs => ?_) h.valid (fun hs => ?_) fun k e => absurd e.symm (asyncPeriph_ne_idle k)
    · cases (hi _ _).1.1 hs
    · rw [continueAt_fg, (hi _ _).2] at hs; cases hs
  | d =>
    by_cases hp : s.periph = .idle
    · rw [microStep_go (show microSync kind cs .d loc s = _ from if_neg (by simp [hp]))]
      refine .of_nothingEnded (h.nothingEnded_of_idle hp) (fun _ => ?_) h.valid (fun hs => ?_) fun k e => ?_
      · cases kind
        · exact .inl rfl
        · exact .inr rfl
      · rw [continueAt_fg, (hi _ _).2] at hs; cases hs
      · exact absurd e.symm (asyncPeriph_ne_syncPeriph k kind)
    · have hout : microSync kind cs .d loc s = _ := if_pos hp
      refine h.microStep ?_ ?_ <;> rw [hout]
      · exact ⟨rfl, rfl, rfl, rfl, rfl, rfl⟩
      · exact hi.leadsElsewhere (by decide)
  | a | b | c | f | g =>
    refine h.microStep ?_ ?_ <;> simp only [microSync]
    · repeat' split
      all_goals simp [SameTransfer, MicroOut.state]
    · repeat' split
      all_goals first | exact leadsElsewhere_of_ret | exact hi.leadsElsewhere (by decide)

/-- AsyncStart names its line at (c), and takes an idle bus at (d) (R181). -/
theorem keepsFlags_start {i : Instr} (hi : StartPhases i) (k : Kind) (cs : Byte) :
    KeepsFlags i (microAsyncStart k cs) := by
  intro m loc s hfg h
  have hnosync : ∀ {P : Prop} m' loc', inSyncPhase (.busy i m' loc') = true → P := fun m' loc' hs => by
    rw [(hi m' loc').1] at hs; cases hs
  cases m with
  | c =>
    rw [microStep_go rfl]
    exact h.of_select (cs := cs) (by simp [SameTransfer]) (hnosync _ _)
  | d =>
    have hv : s.lastCsV = true := h.starting (by rw [hfg]; exact (hi .d loc).2.2 rfl)
    by_cases hstart : (startPrimitive s).1 = true
    · rw [microStep_go (show microAsyncStart k cs .d loc s = _ from if_pos hstart)]
      have hp : s.periph = .idle := by
        by_contra hp
        rw [startPrimitive_busy hp] at hstart
        cases hstart
      exact h.of_begin (k := k) hp hv (by simp [SameTransfer, startPrimitive_idle hp]) (hnosync _ _)
    · have hout : microAsyncStart k cs .d loc s = startFailed k (deassert cs.toNat (startPrimitive s).2).1 :=
        if_neg hstart
      refine h.microStep ?_ ?_ <;> rw [hout]
      · by_cases hp : s.periph = .idle
        · simp [SameTransfer, MicroOut.state, startFailed, startPrimitive_idle hp]
        · simp [SameTransfer, MicroOut.state, startFailed, startPrimitive_busy hp]
      · exact leadsElsewhere_of_ret
  | a | b | e | f | g =>
    refine h.microStep ?_ ?_ <;> simp only [microAsyncStart, startFailed]
    · repeat' split
      all_goals simp [SameTransfer, MicroOut.state]
    · repeat' split
      all_goals first | exact leadsElsewhere_of_ret | exact hi.leadsElsewhere (by decide)

/-- A request whose micro-steps write nothing the flags read. -/
theorem keepsFlags_of_same {i : Instr} {f : MicroFn} (hsame : MicroAll SameTransfer f)
    (hgo : ∀ m loc s, LeadsElsewhere i (f m loc s)) : KeepsFlags i f :=
  fun m loc s _ h => h.microStep (hsame m loc s) (hgo m loc s)

theorem bufSetTx_same (n : U32) (bs : List Byte) : MicroAll SameTransfer (microBufSetTx n bs) := by
  intro m loc s
  cases m <;> simp only [microBufSetTx] <;> (repeat' split) <;> simp [SameTransfer, MicroOut.state]

theorem bufReadRx_same : MicroAll SameTransfer microBufReadRx := by
  intro m loc s
  simp only [microBufReadRx, receivedView]
  split <;> simp [SameTransfer, MicroOut.state]

theorem csAssert_same (cs : Byte) : MicroAll SameTransfer (microCsAssert cs) := by
  intro m loc s
  cases m <;> simp only [microCsAssert] <;> (repeat' split) <;> simp [SameTransfer, MicroOut.state]

theorem asyncStatus_same (k : Byte) : MicroAll SameTransfer (microAsyncStatus k) := by
  intro m loc s
  simp only [microAsyncStatus]
  split <;> simp [SameTransfer, MicroOut.state]

theorem capStart_same (cs : Byte) (n : U32) : MicroAll SameTransfer (microCapStart cs n) := by
  intro m loc s
  cases m <;> simp only [microCapStart] <;> (repeat' split) <;> simp [SameTransfer, MicroOut.state]

theorem capSlot_same (n : U32) : MicroAll SameTransfer (microCapSlot n) := by
  intro m loc s
  simp only [microCapSlot]
  (repeat' split) <;> simp [SameTransfer, MicroOut.state]

/-- A request that never has a synchronous data phase or the primitive next. -/
def QuietPhases (i : Instr) : Prop :=
  ∀ m loc, inSyncPhase (.busy i m loc) = false ∧ atPrimitive (.busy i m loc) = false

theorem keepsFlags_of_quiet {i : Instr} (hi : QuietPhases i) {f : MicroFn} (hsame : MicroAll SameTransfer f) :
    KeepsFlags i f :=
  keepsFlags_of_same hsame fun _ _ _ _ m' loc' _ => hi m' loc'

/-- A size write as a part of sending a register frame (R110, R111). -/
theorem SyncPhases.bufSetTx {i : Instr} (hi : SyncPhases i) (n : U32) (bs : List Byte) :
    KeepsFlags i (microBufSetTx n bs) := by
  refine keepsFlags_of_same (bufSetTx_same n bs) fun m loc s => ?_
  cases m <;> simp only [microBufSetTx] <;> (repeat' split) <;>
    first | exact leadsElsewhere_of_ret | exact hi.leadsElsewhere (by decide)

theorem keepsFlags_bufReadRx (i : Instr) : KeepsFlags i microBufReadRx :=
  keepsFlags_of_same bufReadRx_same fun _ _ _ => leadsElsewhere_of_ret

/-- Requests run one after the other keep the flags if each does: between two of them no data phase is next. -/
theorem keepsFlags_sequence {i : Instr} (hi : SyncPhases i) {parts : List MicroFn}
    (h : ∀ f ∈ parts, KeepsFlags i f) : KeepsFlags i (sequenceMicro parts) := by
  intro m loc s hfg hs
  cases hp : parts[loc.stage]? with
  | none =>
    rw [microStep_ret (show sequenceMicro parts m loc s = .ret s .ok .nothing by simp [sequenceMicro, hp])]
    exact hs.of_same ⟨rfl, rfl, rfl, rfl, rfl, rfl⟩ (fun e => by cases e) fun e => by cases e
  | some f =>
    have hpart : TransferFlags (microStep i f m loc s) := h f (List.mem_of_getElem? hp) m loc s hfg hs
    cases hout : f m loc s with
    | go s' m' loc' =>
      rw [microStep_go hout] at hpart
      rw [microStep_go (sequenceMicro_go hp hout)]
      exact hpart.of_same ⟨rfl, rfl, rfl, rfl, rfl, rfl⟩ (fun e => (hi m' _).1.2 ((hi m' _).1.1 e))
        fun e => absurd e (by simp [(hi m' _).2])
    | ret s' rc d =>
      rw [microStep_ret hout] at hpart
      by_cases hl : loc.stage + 1 < parts.length
      · rw [microStep_go (sequenceMicro_next hp hl hout)]
        exact hpart.of_same ⟨rfl, rfl, rfl, rfl, rfl, rfl⟩ (fun e => by cases (hi .a _).1.1 e)
          fun e => absurd e (by simp [(hi .a _).2])
      · rw [microStep_ret (sequenceMicro_last hp hl hout)]
        exact hpart

theorem syncPhases_syncWrite (cs : Byte) : SyncPhases (.syncWrite cs) :=
  fun m _ => ⟨by cases m <;> simp [inSyncPhase], rfl⟩

theorem syncPhases_syncRw (cs : Byte) : SyncPhases (.syncRw cs) :=
  fun m _ => ⟨by cases m <;> simp [inSyncPhase], rfl⟩

theorem syncPhases_regWriteFrame (a : BitVec 7) (v : U32) : SyncPhases (.regWriteFrame a v) :=
  fun m _ => ⟨by cases m <;> simp [inSyncPhase], rfl⟩

theorem syncPhases_regReadFrame (a : BitVec 7) : SyncPhases (.regReadFrame a) :=
  fun m _ => ⟨by cases m <;> simp [inSyncPhase], rfl⟩

theorem startPhases_asyncRead (cs : Byte) : StartPhases (.asyncRead cs) :=
  fun m _ => ⟨rfl, by cases m <;> simp [atPrimitive]⟩

theorem startPhases_asyncRw (cs : Byte) : StartPhases (.asyncRw cs) :=
  fun m _ => ⟨rfl, by cases m <;> simp [atPrimitive]⟩

/-- Every request keeps the flags. -/
theorem micro_keepsFlags {p : Params} {i : Instr} {f : MicroFn} (hf : microOf p i = some f) : KeepsFlags i f := by
  cases i <;> simp only [microOf, Option.some.injEq, reduceCtorEq] at hf <;> subst hf
  case csAssert cs => exact keepsFlags_of_quiet (fun _ _ => ⟨rfl, rfl⟩) (csAssert_same cs)
  case csDeassert cs =>
    exact keepsFlags_of_quiet (fun _ _ => ⟨rfl, rfl⟩) (fun m loc s => by simp [microCsDeassert, SameTransfer, MicroOut.state])
  case bufSetSize n =>
    exact keepsFlags_of_quiet (fun _ _ => ⟨rfl, rfl⟩) (microBufSetSize_eq n ▸ bufSetTx_same n _)
  case bufSetTx n bs => exact keepsFlags_of_quiet (fun _ _ => ⟨rfl, rfl⟩) (bufSetTx_same n bs)
  case bufReadRx => exact keepsFlags_of_quiet (fun _ _ => ⟨rfl, rfl⟩) bufReadRx_same
  case syncWrite cs => exact keepsFlags_sync (syncPhases_syncWrite cs) .write cs
  case syncRw cs => exact keepsFlags_sync (syncPhases_syncRw cs) .rw cs
  case asyncRead cs => exact keepsFlags_start (startPhases_asyncRead cs) .rx cs
  case asyncRw cs => exact keepsFlags_start (startPhases_asyncRw cs) .txrx cs
  case asyncStatus k => exact keepsFlags_of_quiet (fun _ _ => ⟨rfl, rfl⟩) (asyncStatus_same k)
  case capStart cs n => exact keepsFlags_of_quiet (fun _ _ => ⟨rfl, rfl⟩) (capStart_same cs n)
  case capCount =>
    exact keepsFlags_of_quiet (fun _ _ => ⟨rfl, rfl⟩) (fun _ _ _ => ⟨rfl, rfl, rfl, rfl, rfl, rfl⟩)
  case capSlot n => exact keepsFlags_of_quiet (fun _ _ => ⟨rfl, rfl⟩) (capSlot_same n)
  case regWriteFrame a v =>
    have hi := syncPhases_regWriteFrame a v
    refine keepsFlags_sequence hi fun g hg => ?_
    simp only [List.mem_cons, List.not_mem_nil, or_false] at hg
    rcases hg with rfl | rfl
    · exact hi.bufSetTx _ _
    · exact keepsFlags_sync hi .write _
  case regReadFrame a =>
    have hi := syncPhases_regReadFrame a
    refine keepsFlags_sequence hi fun g hg => ?_
    simp only [List.mem_cons, List.not_mem_nil, or_false] at hg
    rcases hg with rfl | rfl | rfl
    · exact hi.bufSetTx _ _
    · exact keepsFlags_sync hi .rw _
    · exact keepsFlags_bufReadRx _

/-! ### The handlers and the end of a data phase -/

theorem mayTransfer_of_not_blocked {cs : Byte} {s : State} (hb : ¬ StartBlocked cs s) (hp : s.periph = .idle) :
    MayTransfer cs s := by
  simp only [StartBlocked, not_or, Bool.not_eq_false, Nat.not_le, Nat.not_lt, Nat.le_zero] at hb
  obtain ⟨hbound, hsize, hrange, hlow⟩ := hb
  exact ⟨hbound, hsize, hrange, hlow, hp⟩

/-- A start by IRQ on an idle bus keeps the flags (R212). -/
theorem TransferFlags.asyncStart {s : State} (h : TransferFlags s) (hp : s.periph = .idle) (k : Kind) (cs : Byte) :
    TransferFlags (asyncStart k cs s).1 := by
  by_cases hb : StartBlocked cs s
  · rw [asyncStart_blocked hb]
    exact h.of_same (by simp [SameTransfer]) (by simp) (by simp)
  · have hmay := mayTransfer_of_not_blocked hb hp
    cases hd : (drawStart s).1 with
    | false =>
      rw [asyncStart_fails hmay hd]
      exact h.of_select (cs := cs) (by simp [SameTransfer]) (by simp)
    | true =>
      rw [asyncStart_starts hmay hd]
      have hsel : TransferFlags { s with lastCs := some cs, lastCsV := true } :=
        h.of_select (cs := cs) ⟨rfl, rfl, rfl, rfl, rfl, rfl⟩ id
      exact hsel.of_begin (k := k) hp rfl (by simp [SameTransfer]) (by simp)

theorem TransferFlags.edgeHandler {s : State} (h : TransferFlags s) : TransferFlags (edgeHandler s) := by
  by_cases hp : s.periph = .idle
  · by_cases hc : s.capCounter = 0 ∨ s.capCounter < s.capTarget
    · rw [edgeHandler_starts hp hc]
      have hknown : TransferFlags (known s.capCs s).2 := h.of_same (by simp [SameTransfer]) (by simp) (by simp)
      exact hknown.asyncStart (by simpa using hp) .rx _
    · rw [edgeHandler_disables hp hc]
      exact h.of_same ⟨rfl, rfl, rfl, rfl, rfl, rfl⟩ id id
  · rwa [edgeHandler_busy hp]

/-- The completion handler frees the bus, and of what the flags read writes nothing else (R191). -/
theorem completionHandler_same (k : Kind) (s : State) :
    SameTransfer { s with xferDoneHw := false, periph := .idle } (completionHandler k s) ∧
      (completionHandler k s).fg = s.fg := by
  obtain ⟨record, capCounter, faults, draws, e⟩ := hook_state k { s with xferDoneHw := false, periph := .idle }
  simp [SameTransfer, completionHandler, releaseLast, e]

/-- Only the completion of the kind in flight is pending, so its handler leaves none. -/
theorem TransferFlags.completion {s : State} (h : TransferFlags s) {k : Kind}
    (hk : Machine.pending (.cpl k) s = true) : TransferFlags (completionHandler k (acknowledge (.cpl k) s)) := by
  obtain ⟨hp, -⟩ := h.pending k hk
  have hother : ∀ k', k' ≠ k → Machine.pending (.cpl k') s = false := fun k' hne =>
    Bool.eq_false_iff.2 fun hk' => hne (asyncPeriph_injective ((h.pending k' hk').1.symm.trans hp))
  have hack : (acknowledge (.cpl k) s).cplRx = false ∧ (acknowledge (.cpl k) s).cplTxRx = false := by
    cases k
    · exact ⟨rfl, hother .txrx (by decide)⟩
    · exact ⟨hother .rx (by decide), rfl⟩
  obtain ⟨⟨hperiph, hdone, hrx, htxrx, hlast, hlastV⟩, hfg⟩ := completionHandler_same k (acknowledge (.cpl k) s)
  simp only [acknowledge_lastCs, acknowledge_lastCsV, acknowledge_fg] at hlast hlastV hfg
  refine .of_nothingEnded ⟨hdone, hrx.trans hack.1, htxrx.trans hack.2⟩ (fun hs => ?_) ?_ (fun hs => ?_) fun k' e => ?_
  · obtain ⟨kind, hsync⟩ := h.syncPeriph (hfg ▸ hs)
    exact absurd (hp.symm.trans hsync) (asyncPeriph_ne_syncPeriph k kind)
  · rw [hlastV, hlast]; exact h.valid
  · rw [hlastV]; exact h.starting (hfg ▸ hs)
  · exact absurd (e.symm.trans hperiph) (asyncPeriph_ne_idle k')

theorem transferring_eq_some {s : State} {k : Kind} (h : transferring s = some k) :
    s.periph = asyncPeriph k ∧ s.xferDoneHw = false := by
  unfold transferring at h
  split at h
  · cases h
  · rename_i hdone
    split at h <;> cases h <;> exact ⟨by assumption, by simpa using hdone⟩

/-- The end of a data phase writes RX, the log and the count of free values, and of what the flags read its completion
(R190). -/
theorem endDataPhase_same (k : Kind) (miso : List Byte) (s : State) :
    SameTransfer (setCplPend k { s with xferDoneHw := true }) (endDataPhase k miso s) ∧
      (endDataPhase k miso s).fg = s.fg := by
  cases k <;> simp [SameTransfer, endDataPhase, asyncMosi, setCplPend]

theorem TransferFlags.phaseEnd {s : State} (h : TransferFlags s) {k : Kind} (hk : transferring s = some k)
    (miso : List Byte) : TransferFlags (endDataPhase k miso s) := by
  obtain ⟨hp, hdone⟩ := transferring_eq_some hk
  have hpend : TransferFlags (setCplPend k { s with xferDoneHw := true }) := by
    refine ⟨fun _ => ⟨k, by simpa using hp⟩, fun k' hk' => ?_, ?_, ?_, ?_, ?_⟩
    · have hkk : k' = k := by
        by_contra hne
        have hs : Machine.pending (.cpl k') s = true := by
          cases k <;> cases k' <;> first | exact absurd rfl hne | exact hk'
        have := (h.pending k' hs).2
        rw [hdone] at this
        cases this
      subst hkk
      exact ⟨by simpa using hp, by simp⟩
    · simpa using h.sync
    · simpa using h.valid
    · simpa using h.starting
    · simpa using h.named
  obtain ⟨hsame, hfg⟩ := endDataPhase_same k miso s
  exact hpend.of_same hsame (by simp [hfg]) (by simp [hfg])

/-! ### Acts -/

theorem Act.transferFlags {G : Prop} {τ : Turn} {s t : State} (a : Act G τ s t) (h : TransferFlags s) :
    TransferFlags t := by
  cases a with
  | micro k i f m loc _ hfg hf => exact micro_keepsFlags hf m loc s hfg h
  | irq src _ hmay =>
    cases src with
    | edge => exact (h.of_same (t := acknowledge .edge s) ⟨rfl, rfl, rfl, rfl, rfl, rfl⟩ id id).edgeHandler
    | cpl k => exact h.completion (Bool.and_eq_true_iff.1 hmay).1
  | phaseEnd _ k miso _ hk => exact h.phaseEnd hk miso
  | reset =>
    exact .of_nothingEnded ⟨rfl, rfl, rfl⟩ (fun e => by cases e) rfl (fun e => by cases e)
      fun k e => absurd e.symm (asyncPeriph_ne_idle k)
  | illegal => exact h.of_same ⟨rfl, rfl, rfl, rfl, rfl, rfl⟩ (fun e => by cases e) fun e => by cases e
  | take _ i =>
    exact h.of_same ⟨rfl, rfl, rfl, rfl, rfl, rfl⟩ (fun e => by cases i <;> cases e) fun e => by cases i <;> cases e
  | input => exact h.of_same ⟨rfl, rfl, rfl, rfl, rfl, rfl⟩ id id
  | prog => exact h.of_same ⟨rfl, rfl, rfl, rfl, rfl, rfl⟩ id id
  | edge => exact h.of_same ⟨rfl, rfl, rfl, rfl, rfl, rfl⟩ id id

/-- Settles O45: a synchronous data phase has the bus to itself from its (d) to its (e), a start finds the bus idle, and a
completion is pending only between the end of its data phase and its handler. -/
theorem stepKeepsTransferFlags : Obligations.StepKeepsTransferFlags := by
  intro s t hs hstep
  exact step_keeps hstep (fun _ _ a => a.transferFlags) hs

end Sys2Proof.Machine
end

section
/-! PROOF. A step of an idle FG runs the request at the port (spec/30_encoding.md R90, R96), and ASYNC.STATUS reads both
fields of the status (spec/10_state.md R30). -/

namespace Sys2Proof

/-- Decoding a request's bytes gives it back (R90 to R97), whatever bytes follow. -/
theorem decodeRequest_encode {i : Instr} (hw : i.wf = true) (hf : i.format = .req64) (rest : List Byte) :
    decode .req64 (encode i ++ rest) = .ok (i, rest) := by
  cases i <;> simp only [Instr.format, reduceCtorEq] at hf
  case bufSetTx n p =>
    have hlen : p.length = n.toNat := by simpa [Instr.wf] using hw
    simp [decode, encode, reqWord, bytes32, decodeRequest, decodeFields, append_extract32, ← hlen, splitPayload_append]
  all_goals simp [decode, encode, reqWord, bytes32, decodeRequest, decodeFields, append_extract32, onlyIf]

end Sys2Proof

namespace Sys2Proof.Machine

/-- A request whole at the port is run, with its bytes taken. -/
theorem fetchRequest_runs {i : Instr} {bs : List Byte} {s : State} (hw : i.wf = true) (hf : i.format = .req64)
    (h : s.port = encode i ++ bs) : fetchRequest s = exec i { s with port := bs } := by
  have hd : decode .req64 s.port = .ok (i, bs) := h ▸ decodeRequest_encode hw hf bs
  simp [fetchRequest, hd]

/-- Settles O51: the listed turn is FG's, an idle FG with no host program looks at the port, and the bytes there decode to
the request. -/
theorem stepRunsTheRequestAtThePort : Obligations.StepRunsTheRequestAtThePort := by
  intro i k bs rest s hw hf hturn hfg hprog hport
  rw [step_of_turn hturn]
  let u : State := { s with turns := rest, quota := k }
  calc fgTurn u = fetchRequest u := fgTurn_fetch hfg hprog
    _ = exec i { u with port := bs } := fetchRequest_runs hw hf hport

/-! ### The status word (R30) -/

theorem statusWord_done (done : Bool) (result : Byte) : (statusWord done result).getLsbD 8 = done := by
  have hflag : (0#7 ++ BitVec.ofBool done).getLsbD 0 = done := by cases done <;> rfl
  simpa only [statusWord, BitVec.getLsbD_append, Nat.lt_irrefl, if_false, Nat.sub_self] using hflag

theorem statusWord_result (done : Bool) (result : Byte) : (statusWord done result).extractLsb' 0 8 = result :=
  BitVec.extractLsb'_append_eq_right

theorem statusWord_zero (done : Bool) (result : Byte) : (statusWord done result).extractLsb' 9 7 = 0 := by
  have hhigh : (0#7 ++ BitVec.ofBool done).extractLsb' 1 7 = 0 := by cases done <;> rfl
  rw [statusWord, BitVec.extractLsb'_append_eq_of_le (by decide)]
  exact hhigh

/-- An element with a known value reads as that value (R300). -/
theorem known_of_some {v : Option Byte} {b : Byte} (h : v = some b) (s : State) : (known v s).1 = b := by
  rw [h, known_some]

/-- ASYNC.STATUS of a kind, run whole, answers the kind's status word. -/
theorem exec_asyncStatus {idx : Byte} {k : Kind} {s : State} (h : Ready 1 s) (hk : kindOfIdx idx = some k) :
    ∃ w d, exec (.asyncStatus idx) s = .next (respond .ok (.status w) { s with draws := d }) ∧
      w.getLsbD 8 = (statusOf k s).done ∧ w.extractLsb' 9 7 = 0 ∧
      ∀ v, (statusOf k s).result = some v → w.extractLsb' 0 8 = v := by
  let u : State := accept (.asyncStatus idx) s
  have hu : statusOf k u = statusOf k s := by cases k <;> rfl
  obtain ⟨d, hd⟩ := known_state (statusOf k u).result u
  obtain ⟨r, hrun⟩ := exec_ready h (show microOf s.params (.asyncStatus idx) = some (microAsyncStatus idx) from rfl)
  refine ⟨statusWord (statusOf k u).done (known (statusOf k u).result u).1, d, ?_, ?_, ?_, fun v hv => ?_⟩
  · have hret : microAsyncStatus idx .a {} u = .ret { u with draws := d } .ok
        (.status (statusWord (statusOf k u).done (known (statusOf k u).result u).1)) := by
      simp only [microAsyncStatus, hk, hd]
    rw [hrun, runMicro_first hret]
    rfl
  · rw [statusWord_done, hu]
  · exact statusWord_zero _ _
  · rw [statusWord_result, hu, known_of_some hv]

/-- ASYNC.STATUS of an index that names no kind (R184). -/
theorem exec_asyncStatus_invalid {idx : Byte} {s : State} (h : Ready 1 s) (hk : kindOfIdx idx = none) :
    exec (.asyncStatus idx) s = .next (respond .invalidIndex .nothing s) := by
  obtain ⟨r, hrun⟩ := exec_ready h (show microOf s.params (.asyncStatus idx) = some (microAsyncStatus idx) from rfl)
  have hret : microAsyncStatus idx .a {} (accept (.asyncStatus idx) s) =
      .ret (accept (.asyncStatus idx) s) .invalidIndex .nothing := by
    simp only [microAsyncStatus, hk]
  rw [hrun, runMicro_first hret]
  rfl

/-- Settles O19: both fields are read in the one micro-step, as one word. -/
theorem asyncStatusReadsBothFields : Obligations.AsyncStatusReadsBothFields := by
  intro s hready
  refine ⟨exec_asyncStatus (k := .rx) hready rfl, exec_asyncStatus (k := .txrx) hready rfl, fun idx hidx => ?_⟩
  refine exec_asyncStatus_invalid hready ?_
  have h0 : idx ≠ 0 := by rintro rfl; exact absurd hidx (by decide)
  have h1 : idx ≠ 1 := by rintro rfl; exact absurd hidx (by decide)
  rw [kindOfIdx, if_neg h0, if_neg h1]

end Sys2Proof.Machine
end

section
/-! PROOF. R45 (ii) and (vi) do not follow from the pseudocode (log 19): a run to a fault-free transfer in flight whose line
is high. -/

namespace Sys2Proof.Machine

theorem Reaches.head {s u t : State} (h : Steps s u) (r : Reaches u t) : Reaches s t := by
  induction r with
  | refl => exact .tail .refl h
  | tail _ h' ih => exact .tail ih h'

/-- What a run of `k` steps ends in is reached. -/
theorem reaches_of_run {k : Nat} {s t : State} (h : Sys2Proof.core.run k s = .next t) : Reaches s t := by
  induction k generalizing s with
  | zero =>
    cases h
    exact .refl
  | succ k ih =>
    cases hs : step s with
    | next u => exact .head hs (ih (run_of_step hs ▸ h))
    | fault r => cases r
    | refused r =>
      have hcore : Sys2Proof.core.step s = .refused r := hs
      simp [Host.Core.run, hcore] at h

/-- Two lines and a bound handle, the capture driver, any interrupt order. -/
def raceParams : Params where
  nCs          := 2
  bufCap       := 8
  recordCap    := 8
  csReg        := 0
  csCap        := 1
  handleBound  := true
  activeDriver := .capture
  syncTimeout  := 0
  irqOrder     := .any
  parseStrict  := true
  wregRange    := .u32
  portBase     := 0
  asyncEnds    := true

/-- With both starts answered yes: CAP.START arms line 1; ASYNC.READ on line 1 runs its check; an edge handler starts a
receive on the same line; FG drives the line again, one line low and so no fault (R301); the receive ends, its completion
handler releases the line; FG's primitive finds the bus idle and starts. -/
def sameLineRace : State :=
  loaded raceParams (encode (.capStart 1 5) ++ encode (.asyncRead 1)) []
    [.fg 7, .fg 2, .edge, .irq .edge, .fg 1, .periph none, .irq (.cpl .rx), .fg 1] [0x12, 0x34, 0x56] [] [true, true]

/-- The race leaves a fault-free receive in flight with its own line, line 1, high. -/
theorem sameLineRace_line_high : ∃ t, Sys2Proof.core.run 8 sameLineRace = .next t ∧ faultFree t = true ∧
    t.periph = asyncPeriph .rx ∧ t.lastCs = some 1 ∧ levelOf 1 t = true :=
  ⟨_, rfl, by decide, by decide, by decide, by decide⟩

/-- Refutes O60: the eight steps of `sameLineRace`. -/
theorem not_faultFreeInFlightLineIsLow : ¬ Obligations.FaultFreeInFlightLineIsLow := by
  intro h
  obtain ⟨t, hrun, hfree, hperiph, hlast, hhigh⟩ := sameLineRace_line_high
  have hreach : Reachable t := ⟨raceParams, _, _, _, _, _, _, by decide, reaches_of_run hrun⟩
  obtain ⟨cs, hcs, hlow⟩ := h t hreach hfree .rx hperiph
  obtain rfl : 1 = cs := Option.some.inj (hlast.symm.trans hcs)
  rw [show (1 : Byte).toNat = 1 from rfl, hhigh] at hlow
  cases hlow

end Sys2Proof.Machine
end

section
/-! PROOF. The decoder and the encoder are each other's inverse (spec/30_encoding.md R90 to R97, R100, R110 to R113), and
what R95 calls an illegal word. -/

namespace Sys2Proof

/-! ### Decoding what is encoded -/

/-- Decoding an event's code gives it back (R100), whatever bytes follow. -/
theorem decodeEvent_encode {i : Instr} (h : i.format = .event8) (rest : List Byte) :
    decode .event8 (encode i ++ rest) = .ok (i, rest) := by
  cases i <;> simp only [Instr.format, reduceCtorEq] at h <;> rfl

/-- Decoding a sample frame's bytes gives it back (R112), whatever bytes follow. -/
theorem decodeSampleFrame_encode {i : Instr} (h : i.format = .frame24) (rest : List Byte) :
    decode .frame24 (encode i ++ rest) = .ok (i, rest) := by
  cases i <;> simp only [Instr.format, reduceCtorEq] at h
  simp only [decode, encode, List.cons_append, List.nil_append, decodeSampleFrame, append_extract24]

/-- Settles O46: one law for each format of the opcode table. -/
theorem decodeOfEncode : Obligations.DecodeOfEncode := by
  intro i rest hw
  cases hf : i.format with
  | req64 => exact decodeRequest_encode hw hf rest
  | event8 => exact decodeEvent_encode hf rest
  | frame40 => exact decodeRegFrame_encode hf rest
  | frame24 => exact decodeSampleFrame_encode hf rest

/-! ### Encoding what is decoded -/

/-- Two fields put together are zero exactly when both are. -/
theorem append_eq_zero_iff {v w : Nat} {x : BitVec v} {y : BitVec w} :
    x ++ y = (0 : BitVec (v + w)) ↔ x = 0 ∧ y = 0 := by
  constructor
  · intro h
    have hx : (x ++ y).extractLsb' w v = x := BitVec.extractLsb'_append_eq_left
    have hy : (x ++ y).extractLsb' 0 w = y := BitVec.extractLsb'_append_eq_right
    rw [h] at hx hy
    exact ⟨by rw [← hx]; simp, by rw [← hy]; simp⟩
  · rintro ⟨rfl, rfl⟩
    exact BitVec.zero_append_zero

/-- What a request word's fields decode to is encoded as these fields, RSV zero, with its payload after them. -/
theorem encode_of_decodeFields {opc idx : Byte} {rsv : U16} {n : U32} {rest rest' : List Byte} {i : Instr}
    (h : decodeFields opc idx rsv n rest = .ok (i, rest')) :
    rsv = 0 ∧ encode i ++ rest' = reqWord opc idx n ++ rest := by
  unfold decodeFields at h
  split at h
  · cases h
  rename_i hrsv
  refine ⟨not_not.1 hrsv, ?_⟩
  split at h
  case h_4 hopc =>
    split at h
    · rename_i hidx
      split at h <;> cases h
      rename_i hp
      rw [(BitVec.toNat_eq_nat.1 hopc).2, hidx, ← (splitPayload_some hp).2]
      exact List.append_assoc ..
    · cases h
  case h_11 hopc =>
    cases h
    rw [(BitVec.toNat_eq_nat.1 hopc).2]
    rfl
  case h_14 => cases h
  all_goals
    rename_i hopc
    obtain ⟨hz, rfl, rfl⟩ := onlyIf_ok h
    simp only [Bool.and_eq_true, beq_iff_eq] at hz
    simp only [(BitVec.toNat_eq_nat.1 hopc).2, hz]
    rfl

/-- The bytes of a request word that the decoder accepts are its encoding's. -/
theorem encode_of_decodeRequest {bs rest : List Byte} {i : Instr} (h : decode .req64 bs = .ok (i, rest)) :
    encode i ++ rest = bs := by
  simp only [decode] at h
  unfold decodeRequest at h
  split at h
  · obtain ⟨hrsv, he⟩ := encode_of_decodeFields h
    obtain ⟨h2, h3⟩ := append_eq_zero_iff.1 hrsv
    rw [he, h2, h3, reqWord, bytes32_append]
    rfl
  · cases h

/-- A code that R100 lists is its event's. -/
theorem encode_of_decodeEvent {bs rest : List Byte} {i : Instr} (h : decode .event8 bs = .ok (i, rest)) :
    i.wf = true ∧ i.format = .event8 ∧ encode i ++ rest = bs := by
  simp only [decode] at h
  unfold decodeEvent at h
  split at h
  · split at h <;> cases h
    all_goals
      rename_i hc
      rw [(BitVec.toNat_eq_nat.1 hc).2]
      exact ⟨rfl, rfl, rfl⟩
  · cases h

/-- The first byte of a register frame is its flag and its address. -/
theorem flag_append_extract {b : Byte} {flag : BitVec 1} (h : b.getLsbD 7 = flag.getLsbD 0) :
    flag ++ b.extractLsb' 0 7 = b := by
  refine BitVec.eq_of_getLsbD_eq fun i hi => ?_
  simp only [BitVec.getLsbD_append, BitVec.getLsbD_extractLsb']
  split
  · simp [*]
  · obtain rfl : i = 7 := by omega
    exact h.symm

/-- The bytes of a register frame that the decoder accepts are its encoding's. -/
theorem encode_of_decodeRegFrame {bs rest : List Byte} {i : Instr} (h : decode .frame40 bs = .ok (i, rest)) :
    encode i ++ rest = bs := by
  simp only [decode] at h
  unfold decodeRegFrame at h
  split at h
  · split at h
    · rename_i hflag
      cases h
      rw [encode, bytes32_append, flag_append_extract (flag := 0#1) hflag]
      rfl
    · rename_i hflag
      split at h <;> cases h
      rename_i hzero
      rw [encode, ← hzero, bytes32_append, flag_append_extract (flag := 1#1) (Bool.not_eq_false _ ▸ hflag)]
      rfl
  · cases h

/-- Any three bytes are the sample frame they decode to. -/
theorem encode_of_decodeSampleFrame {bs rest : List Byte} {i : Instr} (h : decode .frame24 bs = .ok (i, rest)) :
    i.wf = true ∧ i.format = .frame24 ∧ encode i ++ rest = bs := by
  simp only [decode] at h
  unfold decodeSampleFrame at h
  split at h <;> cases h
  refine ⟨rfl, rfl, ?_⟩
  rw [encode, extract24_append]
  rfl

/-- Settles O47: format by format. -/
theorem encodeOfDecode : Obligations.EncodeOfDecode := by
  intro f bs rest i h
  cases f with
  | req64 =>
    obtain ⟨hw, hf⟩ := decodeRequest_request h
    exact ⟨hw, hf, encode_of_decodeRequest h⟩
  | event8 => exact encode_of_decodeEvent h
  | frame40 =>
    obtain ⟨hw, hf⟩ := decodeRegFrame_frame h
    exact ⟨hw, hf, encode_of_decodeRegFrame h⟩
  | frame24 => exact encode_of_decodeSampleFrame h

/-! ### Illegal words (R95) -/

/-- A field that an opcode does not use makes the word illegal where it is not 0. -/
theorem onlyIf_illegal {z : Bool} {i : Instr} {rest : List Byte} :
    onlyIf z i rest = .error .illegalWord ↔ z = false := by
  cases z <;> simp [onlyIf]

/-- The fields of an illegal word: RSV, OPC, IDX and N, whatever bytes follow. -/
theorem decodeFields_illegal {opc idx : Byte} {rsv : U16} {n : U32} {rest : List Byte} :
    decodeFields opc idx rsv n rest = .error .illegalWord ↔
      rsv ≠ 0 ∨
        opc.toNat ∉ [0x01, 0x02, 0x10, 0x11, 0x12, 0x20, 0x21, 0x30, 0x31, 0x32, 0x40, 0x41, 0x42] ∨
        (idx ≠ 0 ∧ opc.toNat ∈ [0x10, 0x11, 0x12, 0x41, 0x42]) ∨
        (n ≠ 0 ∧ opc.toNat ∈ [0x01, 0x02, 0x12, 0x20, 0x21, 0x30, 0x31, 0x32, 0x41]) := by
  unfold decodeFields
  split
  · exact iff_of_true rfl (.inl ‹_›)
  rename_i hrsv
  rw [not_not] at hrsv
  split
  case h_4 hopc =>
    by_cases hidx : idx = 0
    · simp only [hidx, if_true]
      split <;> simp [hopc, hrsv]
    · exact iff_of_true (if_neg hidx) (.inr (.inr (.inl ⟨hidx, by simp [hopc]⟩)))
  case h_11 hopc => simp [hopc, hrsv]
  case h_14 =>
    refine iff_of_true rfl (.inr (.inl fun hopc => ?_))
    simp only [List.mem_cons, List.not_mem_nil, or_false] at hopc
    tauto
  all_goals
    rename_i hopc
    simp [onlyIf_illegal, hopc, hrsv, imp_iff_not_or]

/-- Settles O48: RSV and N are zero exactly when each of their bytes is. -/
theorem illegalWordsAreExactlyR95 : Obligations.IllegalWordsAreExactlyR95 := by
  intro opc idx r0 r1 n0 n1 n2 n3 rest
  have hrsv : (r0 ++ r1 : U16) ≠ 0 ↔ r0 ≠ 0 ∨ r1 ≠ 0 := by
    rw [Ne, append_eq_zero_iff (v := 8) (w := 8), not_and_or]
  have hn : (n0 ++ n1 ++ n2 ++ n3 : U32) ≠ 0 ↔ n0 ≠ 0 ∨ n1 ≠ 0 ∨ n2 ≠ 0 ∨ n3 ≠ 0 := by
    rw [Ne, append_eq_zero_iff (v := 24) (w := 8), append_eq_zero_iff (v := 16) (w := 8),
      append_eq_zero_iff (v := 8) (w := 8), not_and_or, not_and_or, not_and_or, or_assoc, or_assoc]
  rw [decode, decodeRequest, decodeFields_illegal, hrsv, hn]

end Sys2Proof
end

section
/-! PROOF. What FG does with an illegal word at the port (spec/30_encoding.md R95, R97), and ten words of the encoding
tables. -/

namespace Sys2Proof.Machine

/-- With no input HOST waits. -/
theorem hostTake_nil {s : State} (h : s.hostIn = []) : hostTake s = .next s := by
  simp [hostTake, h]

/-- An illegal word whole at the port is answered (log 9). -/
theorem fetchRequest_illegal {s : State} (h : decode .req64 s.port = .error .illegalWord)
    (hl : wordLength s.port ≤ s.port.length) : fetchRequest s = .next (answerIllegal s) := by
  simp [fetchRequest, h, hl]

/-- An illegal word that is not there whole is not ready (log 8). -/
theorem portReady_illegal_short {s : State} (h : decode .req64 s.port = .error .illegalWord)
    (hl : s.port.length < wordLength s.port) : portReady s = false := by
  simp [portReady, h, hl]

/-- Settles O49: the listed turn is FG's, an idle FG with no host program looks at the port, and the word there is answered
when it is whole, and waited for until then. -/
theorem illegalWordIsAnswered : Obligations.IllegalWordIsAnswered := by
  intro k rest s hturn hfg hprog hill
  let u : State := { s with turns := rest, quota := k }
  have hfetch : step s = fetchRequest u := (step_of_turn hturn).trans (fgTurn_fetch (s := u) hfg hprog)
  refine ⟨fun hwhole => ?_, fun hshort hin => ?_⟩
  · exact hfetch.trans (fetchRequest_illegal (s := u) hill hwhole)
  · calc step s = fetchRequest u := hfetch
      _ = hostTake u := fetchRequest_waits (portReady_illegal_short (s := u) hill hshort)
      _ = .next u := hostTake_nil hin

/-- Settles O50, by computing the decoder on each word. -/
theorem knownWordsDecode : Obligations.KnownWordsDecode := by
  unfold Obligations.KnownWordsDecode
  decide

end Sys2Proof.Machine
end

section
/-! PROOF. The bytes of the register frames as the host packs them (spec/30_encoding.md R110, R111). -/

namespace Sys2Proof.Machine

/-- The bytes of a u40 are its first byte's and its 32-bit field's. -/
theorem bytes40_append (a : Byte) (v : U32) : bytes40 (a ++ v) = a :: bytes32 v := by
  have hlow : ∀ start, start + 8 ≤ 32 → (a ++ v : U40).extractLsb' start 8 = v.extractLsb' start 8 :=
    fun _ h => BitVec.extractLsb'_append_eq_of_add_le h
  have hhigh : (a ++ v : U40).extractLsb' 32 8 = a := BitVec.extractLsb'_append_eq_left
  rw [bytes40, bytes32, hhigh, hlow 24 (by decide), hlow 16 (by decide), hlow 8 (by decide), hlow 0 (by decide)]

/-- The packing of R110 for a value below 2^32: nothing of the value reaches the address byte. -/
theorem frameW_eq (a : Byte) {v : U64} (hv : v.toNat < 2 ^ 32) : frameW a v = a :: bytes32 (v.setWidth 32) := by
  have hvalue : (v.setWidth 32).setWidth 64 = v := BitVec.setWidth_setWidth_eq_self hv
  have hword : (a.setWidth 64 <<< 32) ||| v = (a ++ v.setWidth 32 : U40).setWidth 64 := by
    rw [BitVec.setWidth_append_eq_shiftLeft_setWidth_or, hvalue]
  have hlow : ((a ++ v.setWidth 32 : U40).setWidth 64).extractLsb' 0 40 = a ++ v.setWidth 32 := by
    rw [BitVec.extractLsb'_setWidth_of_le (by decide), BitVec.extractLsb'_eq_self]
  have hflag : Config.writeFlag ||| a = a := BitVec.zero_or
  rw [frameW, hflag, hword, hlow, bytes40_append]

/-- Settles O56: the four bytes of a value below 2^32 are those of its low half. -/
theorem packedWriteFrameBytes : Obligations.PackedWriteFrameBytes := by
  intro a v _ hv
  have hbyte : ∀ start, start + 8 ≤ 32 → (v.setWidth 32).extractLsb' start 8 = v.extractLsb' start 8 := by
    intro start h
    refine BitVec.eq_of_getLsbD_eq fun i hi => ?_
    simp [show start + i < 32 by omega]
  rw [frameW_eq a hv, bytes32, hbyte 24 (by decide), hbyte 16 (by decide), hbyte 8 (by decide), hbyte 0 (by decide)]

/-- The frame the host packs for REG.WRITE of a 32-bit value is the one of R110. -/
theorem frameW_eq_encode (a : BitVec 7) (v : U32) :
    frameW (a.setWidth 8) (v.setWidth 64) = encode (.regWriteFrame a v) := by
  have hv : (v.setWidth 64).toNat < 2 ^ 32 := by
    rw [BitVec.toNat_setWidth_of_le (by decide)]
    exact v.isLt
  rw [frameW_eq _ hv, BitVec.setWidth_setWidth_of_le _ (by decide), BitVec.setWidth_eq, encode,
    BitVec.setWidth_eq_append (show 7 ≤ 8 by decide)]
  rfl

/-- The frame of REG.READ is the one of R111. -/
theorem frameR_eq_encode (a : BitVec 7) : frameR (a.setWidth 8) = encode (.regReadFrame a) := by
  have hfirst : Config.readFlag ||| a.setWidth 8 = 1#1 ++ a := by
    rw [BitVec.setWidth_eq_append (show 7 ≤ 8 by decide)]
    show (1#1 ++ 0#7) ||| (0#1 ++ a) = 1#1 ++ a
    rw [BitVec.or_append, BitVec.or_zero, BitVec.zero_or]
  rw [frameR, hfirst]
  rfl

end Sys2Proof.Machine
end

section
/-! PROOF. The bus frames run whole (log 10): a sample frame ends the receive that carries it (spec/30_encoding.md R112); a
register frame is SetTx, then SyncXfer, then, for a read, ReadRx, as parts of one host sequence (R110, R111, R99). -/

namespace Sys2Proof.Machine

/-! ### The sample frame (R112) -/

/-- A 3-byte receive-only data phase under way. -/
theorem sampleUnderWay_eq_true {s : State} :
    sampleUnderWay s = true ↔ s.periph = .asyncRx ∧ s.xferDoneHw = false ∧ s.bufSize = 3 := by
  have hsize : s.bufSize.toNat = 3 ↔ s.bufSize = 3 := ⟨fun h => BitVec.eq_of_toNat_eq h, fun h => h ▸ rfl⟩
  have hphase : transferring s = some .rx ↔ s.periph = .asyncRx ∧ s.xferDoneHw = false := by
    refine ⟨transferring_eq_some, fun ⟨hp, hd⟩ => ?_⟩
    simp [transferring, hp, hd]
  rw [sampleUnderWay, Bool.and_eq_true, decide_eq_true_iff, decide_eq_true_iff, Config.sampleBytes, hphase, hsize,
    and_assoc]

/-- The end of a receive-only data phase under a known LAST_CS (R190). -/
theorem endDataPhase_rx {s : State} {cs : Byte} (h : s.lastCs = some cs) (miso : List Byte) :
    endDataPhase .rx miso s = { s with
      rx := Cells.writeFrom s.rx 0 miso
      xferDoneHw := true
      cplRx := true
      busLog := s.busLog ++ [.data .asyncRx cs.toNat (unknownBytes s.bufSize.toNat) (miso.map some) .ok] } := by
  have hknown : known s.lastCs s = (cs, s) := by rw [h, known_some]
  simp only [endDataPhase, asyncMosi, hknown]
  rfl

/-- Settles O55: the frame's bytes are the end of the data phase under way, where it is one of three received bytes. -/
theorem sampleFrameEndsTheReceive : Obligations.SampleFrameEndsTheReceive := by
  intro v cs s
  refine ⟨fun hperiph hdone hsize hlast => ?_, fun helse => ?_⟩
  · refine ⟨Cells.writeFrom s.rx 0 (sampleBytesOf v), ?_, prefixHolds_writeFrom s.rx (sampleBytesOf v)⟩
    have hend : sampleEnd v s = endDataPhase .rx (sampleBytesOf v) s :=
      if_pos (sampleUnderWay_eq_true.2 ⟨hperiph, hdone, hsize⟩)
    have hthree : unknownBytes s.bufSize.toNat = [none, none, none] := by rw [hsize]; rfl
    rw [exec, execSampleFrame, hend, endDataPhase_rx hlast, hthree]
    rfl
  · have hno : ¬ sampleUnderWay s = true := by
      rw [sampleUnderWay_eq_true]
      rintro ⟨hperiph, hdone, hsize⟩
      rcases helse with h | h | h
      · exact h hperiph
      · rw [hdone] at h; cases h
      · exact h hsize
    exact congrArg Host.Outcome.next (if_neg hno)

/-! ### Reading back what was written -/

/-- The first `n` cells read as the bytes they hold. -/
theorem readBytes_of_prefix {m m' : Memory} {n : Nat} {bs : List Byte} (h : PrefixHolds m m' n bs) (hn : bs.length = n)
    (s : State) : (readBytes m' n s).1 = bs := by
  refine List.ext_getElem (by simp [hn]) fun j hj hb => ?_
  have hread : Cells.read m' j = some bs[j] := by
    rw [h j, if_pos (hn ▸ hb), List.getElem?_eq_getElem hb]
  simp [readBytes, hread]

/-- Bytes written from cell 0 on are read back. -/
theorem readBytes_writeFrom (m : Memory) (bs : List Byte) (s : State) :
    (readBytes (Cells.writeFrom m 0 bs) bs.length s).1 = bs :=
  readBytes_of_prefix (prefixHolds_writeFrom m bs) rfl s

/-! ### The parts of a sequence -/

section
variable {parts : List MicroFn} {i : Instr} {s : State}

/-- What a size write on an idle bus leaves (R143). -/
def sizedWith (n : U32) (bs : List Byte) (s : State) : State :=
  { s with bufSize := n, tx := Cells.writeFrom s.tx 0 bs, rx := Cells.eraseBelow s.rx n.toNat }

/-- A size write on an idle bus raises no fault. -/
theorem sizeWrite_idle {n : U32} {bs : List Byte} {s : State} (h : s.periph = .idle) :
    sizeWrite n bs s = sizedWith n bs s := by
  rw [sizeWrite_eq]
  simp [h, sizedWith]

/-- BUF.SETTX as the first request of a sequence, on an idle bus with its size in capacity. -/
theorem runMicro_sequence_setTx {n : U32} {bs : List Byte} (hpart : parts[0]? = some (microBufSetTx n bs))
    (hmore : 1 < parts.length) (hfg : s.fg = .busy i .a {}) (hp : s.periph = .idle) (hn : n.toNat ≤ s.params.bufCap)
    (k : Nat) :
    runMicro i (sequenceMicro parts) (k + 2) s =
      runMicro i (sequenceMicro parts) k { sizedWith n bs s with fg := .busy i .a { stage := 1 } } := by
  have ha : microBufSetTx n bs .a {} s = .go s .b {} := if_pos (sizeCheck_eq_ok.2 ⟨hp, hn⟩)
  have hb : microBufSetTx n bs .b {} (continueAt i .b {} s) =
      .ret (sizedWith n bs (continueAt i .b {} s)) .ok .nothing :=
    congrArg (MicroOut.ret · .ok .nothing) (sizeWrite_idle hp)
  rw [runMicro_go (k := k + 1) hfg (sequenceMicro_go hpart ha),
    runMicro_go (k := k) rfl (sequenceMicro_next hpart hmore hb)]
  rfl

/-- The outcome SyncXfer draws (R162). -/
def syncOutcome (s : State) : PhaseOutcome := (drawOutcome (readBytes s.tx s.bufSize.toNat s).2).1

/-- The bytes SLAVE answers in SyncXfer's data phase (R78). -/
def syncReceived (s : State) : List Byte :=
  (slaveBytes s.bufSize.toNat (drawOutcome (readBytes s.tx s.bufSize.toNat s).2).2).1

/-- The environment's next answer is the outcome. -/
theorem syncOutcome_of_cons {o : PhaseOutcome} {rest : List PhaseOutcome} (h : s.outcomeIn = o :: rest) :
    syncOutcome s = o :=
  drawOutcome_of_cons h

/-- As many bytes are received as the buffer's size says. -/
theorem syncReceived_length (s : State) : (syncReceived s).length = s.bufSize.toNat := slaveBytes_length _ _

/-- SLAVE's bytes to come are the ones received. -/
theorem syncReceived_get {j : Nat} {v : Byte} (hj : j < s.bufSize.toNat) (hv : s.slaveIn[j]? = some v) :
    (syncReceived s)[j]? = some v :=
  slaveBytes_get (s := (drawOutcome (readBytes s.tx s.bufSize.toNat s).2).2) hj hv

/-- The Data record SyncXfer logs (R160 (e)). -/
def syncLogged (kind : SyncKind) (cs : Nat) (s : State) : BusRecord :=
  syncRecord kind cs (syncOutcome s) s.bufSize.toNat (readBytes s.tx s.bufSize.toNat s).1 (syncReceived s)

/-- What SyncXfer leaves of RX, of the log and of the environment's answers (R160). -/
def syncDone (kind : SyncKind) (cs : Nat) (s : State) : State :=
  { s with
    rx := syncRx kind (syncOutcome s) s.bufSize.toNat (syncReceived s) s.rx
    busLog := s.busLog ++ [.csLow cs, syncLogged kind cs s, .csHigh cs]
    slaveIn := s.slaveIn.drop s.bufSize.toNat
    outcomeIn := s.outcomeIn.tail
    draws := s.draws + s.bufSize.toNat + 1 + s.bufSize.toNat }

/-- SyncXfer before its last micro-step: the same, with its line low still. -/
def syncHeld (kind : SyncKind) (cs : Nat) (s : State) : State :=
  { syncDone kind cs s with
    csLevel := s.csLevel.set cs false
    busLog := s.busLog ++ [.csLow cs] ++ [syncLogged kind cs s]
    periph := .idle }

/-- SyncXfer as a request of a sequence, where nothing stands in the way, up to its last micro-step. -/
theorem runMicro_sequence_sync {kind : SyncKind} {cs : Byte} {j : Nat} (hpart : parts[j]? = some (microSync kind cs))
    (hfg : s.fg = .busy i .a { stage := j }) (h : MayTransfer cs s) (k : Nat) :
    runMicro i (sequenceMicro parts) (k + 5) s = runMicro i (sequenceMicro parts) k
      { syncHeld kind cs.toNat s with fg := .busy i .f { stage := j, rc := outcomeCode (syncOutcome s) } } := by
  obtain ⟨hbound, hsize, hrange, hlow, hp⟩ := h
  have ha : microSync kind cs .a { stage := j } s = .go s .b { stage := j } := by
    rw [microSync, if_neg (by simp [hbound]), if_neg hsize]
  have hb : ∀ fg, microSync kind cs .b { stage := j } { s with fg := fg } = .go { s with fg := fg } .c { stage := j } :=
    fun _ => if_pos (assertCheck_ok_of_may hrange hlow)
  have hc : ∀ fg, microSync kind cs .c { stage := j } { s with fg := fg } =
      .go { s with fg := fg, csLevel := s.csLevel.set cs.toNat false, busLog := s.busLog ++ [.csLow cs.toNat] } .d
        { stage := j } :=
    fun fg => congrArg (MicroOut.go · .d _) (assertDrive_of_none_low (s := { s with fg := fg }) hlow cs.toNat)
  calc runMicro i (sequenceMicro parts) (k + 5) s
    _ = runMicro i (sequenceMicro parts) (k + 4) _ := runMicro_go hfg (sequenceMicro_go hpart ha)
    _ = runMicro i (sequenceMicro parts) (k + 3) _ := runMicro_go rfl (sequenceMicro_go hpart (hb _))
    _ = runMicro i (sequenceMicro parts) (k + 2) _ := runMicro_go rfl (sequenceMicro_go hpart (hc _))
    _ = runMicro i (sequenceMicro parts) (k + 1) _ :=
      runMicro_go rfl (sequenceMicro_go hpart (show microSync kind cs .d _ _ = _ from if_neg (not_not.2 hp)))
    _ = runMicro i (sequenceMicro parts) k _ :=
      runMicro_go rfl (sequenceMicro_go hpart (show microSync kind cs .e _ _ = _ from rfl))

/-- SyncXfer's last micro-step, on the idle bus it leaves. -/
theorem microSync_releases {kind : SyncKind} {cs : Byte} (h : MayTransfer cs s) (fg : FgPhase) (loc : Locals) :
    microSync kind cs .f loc { syncHeld kind cs.toNat s with fg := fg } =
      .ret { syncDone kind cs.toNat s with fg := fg } loc.rc .nothing := by
  obtain ⟨-, -, hrange, hlow, hp⟩ := h
  have hrelease : (deassert cs.toNat { syncHeld kind cs.toNat s with fg := fg }).1 =
      { syncDone kind cs.toNat s with fg := fg } := by
    rw [deassert_idle (by exact hrange) rfl]
    simp [syncHeld, syncDone, set_true_of_all (lowCount_eq_zero.1 hlow), hp]
  exact congrArg (MicroOut.ret · loc.rc .nothing) hrelease

/-! ### The register frames -/

/-- Nothing stands in the way of a register frame on CS_REG. -/
def MaySendFrame (s : State) : Prop :=
  s.bound = true ∧ s.params.csReg.toNat < s.params.nCs ∧ lowCount s = 0 ∧ s.periph = .idle ∧ 5 ≤ s.params.bufCap

/-- The frame's sequence between its SetTx and its SyncXfer. -/
def framePlaced (i : Instr) (s : State) : State :=
  { sizedWith 5 (encode i) (accept i s) with fg := .busy i .a { stage := 1 } }

/-- Nothing stands in the way of the frame's transfer. -/
theorem framePlaced_mayTransfer (i : Instr) (h : MaySendFrame s) : MayTransfer s.params.csReg (framePlaced i s) := by
  obtain ⟨hbound, hrange, hlow, hp, -⟩ := h
  exact ⟨hbound, (by decide : (5 : U32) ≠ 0), hrange, hlow, hp⟩

/-- A frame's sequence up to the last micro-step of its SyncXfer. -/
theorem runMicro_frame (i : Instr) (kind : SyncKind) (more : List MicroFn) (h : MaySendFrame s) (k : Nat) :
    runMicro i (sequenceMicro (microBufSetTx 5 (encode i) :: microSync kind s.params.csReg :: more)) (k + 7) (accept i s) =
      runMicro i (sequenceMicro (microBufSetTx 5 (encode i) :: microSync kind s.params.csReg :: more)) k
        { syncHeld kind s.params.csReg.toNat (framePlaced i s) with
          fg := .busy i .f { stage := 1, rc := outcomeCode (syncOutcome (framePlaced i s)) } } := by
  have hmay := framePlaced_mayTransfer i h
  obtain ⟨-, -, -, hp, hcap⟩ := h
  rw [runMicro_sequence_setTx (s := accept i s) (k := k + 5) (n := 5) (bs := encode i) rfl (by simp) rfl hp hcap]
  exact runMicro_sequence_sync (k := k) rfl rfl hmay

/-- A transmit-only data phase logs no received byte (R161). -/
theorem syncRecord_write (cs n : Nat) (o : PhaseOutcome) (mosi miso : List Byte) :
    syncRecord .write cs o n mosi miso =
      .data .syncTx cs (if o = .ok then mosi.map some else unknownBytes n) (unknownBytes n) o := by
  simp [syncRecord, syncPhase]

/-- A good transmit-receive data phase logs the bytes received (R163). -/
theorem syncRecord_rw (cs n : Nat) (o : PhaseOutcome) (mosi miso : List Byte) :
    syncRecord .rw cs o n mosi miso = .data .syncTxRx cs (if o = .ok then mosi.map some else unknownBytes n)
      (if o = .ok then miso.map some else unknownBytes n) o := by
  simp [syncRecord, syncPhase]

/-- What the SyncXfer of a frame's sequence leaves: exactly the frame was sent. -/
theorem syncDone_framePlaced {i : Instr} (hlen : (encode i).length = 5) (kind : SyncKind) (cs : Nat) :
    syncDone kind cs (framePlaced i s) = { framePlaced i s with
      rx := syncRx kind (syncOutcome (framePlaced i s)) 5 (syncReceived (framePlaced i s)) (framePlaced i s).rx
      busLog := s.busLog ++ [.csLow cs,
        syncRecord kind cs (syncOutcome (framePlaced i s)) 5 (encode i) (syncReceived (framePlaced i s)), .csHigh cs]
      slaveIn := s.slaveIn.drop 5
      outcomeIn := s.outcomeIn.tail
      draws := s.draws + 5 + 1 + 5 } := by
  have hsent : (readBytes (framePlaced i s).tx 5 (framePlaced i s)).1 = encode i :=
    hlen ▸ readBytes_writeFrom s.tx (encode i) (framePlaced i s)
  rw [← hsent]
  rfl

/-- RX after a synchronous transmit-receive data phase of `n` bytes (R163). -/
theorem prefixHolds_syncRx_rw {m m' : Memory} {n : Nat} {miso : List Byte} {o : PhaseOutcome}
    (h : PrefixHolds m m' n []) (hn : miso.length = n) :
    PrefixHolds m (syncRx .rw o n miso m') n (if o = .ok then miso else []) := by
  intro j
  cases o with
  | ok =>
    rw [if_pos rfl, syncRx, Cells.read_writeFrom, h j]
    by_cases hj : j < n <;> simp [hj, hn]
  | _ =>
    show Cells.read (Cells.eraseBelow m' n) j = if j < n then none else Cells.read m j
    rw [Cells.read_eraseBelow, h j]
    by_cases hj : j < n <;> simp [hj]

/-- On an idle bus BUF.READRX answers the received bytes (R145). -/
theorem receivedView_idle {s : State} (h : s.periph = .idle) : receivedView s = readBytes s.rx s.bufSize.toNat s :=
  if_neg (not_not.2 h)

end

/-- Settles O53: SetTx of the frame, then SyncXfer, whose answer is the sequence's. -/
theorem regWriteFrameGoesOut : Obligations.RegWriteFrameGoesOut := by
  intro a v s hready hbound hrange hlow hp hcap
  have hsend : MaySendFrame s := ⟨hbound, hrange, hlow, hp, hcap⟩
  let u : State := framePlaced (.regWriteFrame a v) s
  obtain ⟨r, hrun⟩ := exec_ready hready (i := .regWriteFrame a v) rfl
  have hmicro : microRegWrite s.params.csReg a v =
      sequenceMicro [microBufSetTx 5 (encode (.regWriteFrame a v)), microSync .write s.params.csReg] := by
    rw [← frameW_eq_encode]
    rfl
  rw [hrun, hmicro, runMicro_frame _ .write [] hsend (r + 1),
    runMicro_ret rfl (sequenceMicro_last rfl (by simp) (microSync_releases (framePlaced_mayTransfer _ hsend) _ _)),
    syncDone_framePlaced rfl, syncRecord_write]
  exact ⟨syncOutcome u, u.tx, u.rx, _, rfl, prefixHolds_writeFrom s.tx (encode (.regWriteFrame a v)),
    prefixHolds_eraseBelow s.rx 5, fun x rest => syncOutcome_of_cons (s := u)⟩

/-- Settles O54: SetTx of the frame, SyncXfer, and ReadRx of what it received. -/
theorem regReadFrameAnswersTheReceivedBytes : Obligations.RegReadFrameAnswersTheReceivedBytes := by
  intro a s hready hbound hrange hlow hp hcap
  have hsend : MaySendFrame s := ⟨hbound, hrange, hlow, hp, hcap⟩
  let u : State := framePlaced (.regReadFrame a) s
  obtain ⟨r, hrun⟩ := exec_ready hready (i := .regReadFrame a) rfl
  have hmicro : microRegRead s.params.csReg a =
      sequenceMicro [microBufSetTx 5 (encode (.regReadFrame a)), microSync .rw s.params.csReg, microBufReadRx] := by
    rw [← frameR_eq_encode]
    rfl
  have hlen : (syncReceived u).length = 5 := syncReceived_length u
  let rx : Memory := syncRx .rw (syncOutcome u) 5 (syncReceived u) u.rx
  have hrx : PrefixHolds s.rx rx 5 (if syncOutcome u = .ok then syncReceived u else []) :=
    prefixHolds_syncRx_rw (prefixHolds_eraseBelow s.rx 5) hlen
  rw [hrun, hmicro, runMicro_frame _ .rw _ hsend (r + 2),
    runMicro_go rfl (sequenceMicro_next rfl (by simp) (microSync_releases (framePlaced_mayTransfer _ hsend) _ _)),
    runMicro_ret rfl (sequenceMicro_last rfl (by simp) (show microBufReadRx .a _ _ = _ from rfl)),
    syncDone_framePlaced rfl, syncRecord_rw, receivedView_idle (by exact hp)]
  refine ⟨syncOutcome u, syncReceived u, (readBytes rx 5 { s with draws := s.draws + 5 + 1 + 5 }).1, u.tx, rx, _, rfl,
    prefixHolds_writeFrom s.tx (encode (.regReadFrame a)), by simp, hlen, fun j v => syncReceived_get (s := u),
    fun ho => ?_, hrx, fun x rest => syncOutcome_of_cons (s := u)⟩
  rw [if_pos ho] at hrx
  exact readBytes_of_prefix hrx hlen _

end Sys2Proof.Machine
end

section
/-! PROOF. Mutual exclusion (spec/40_chip_select.md R134): every effect on the block keeps it, then every act does. -/

namespace Sys2Proof.Machine

variable {W : Prop} {fg : Bool}

/-! ### The multi-select bit -/

/-- A fault is clear where none of its bits stands in FAULTS. -/
theorem hasFault_eq_false {f : Byte} {s : State} :
    hasFault f s = false ↔ ∀ j, s.faults.getLsbD j = true → f.getLsbD j = false := by
  have hbits : s.faults &&& f = 0 ↔ ∀ j, (s.faults &&& f).getLsbD j = false := by
    constructor
    · intro h j
      rw [h]
      exact BitVec.getLsbD_zero
    · intro h
      exact BitVec.eq_of_getLsbD_eq fun j _ => (h j).trans BitVec.getLsbD_zero.symm
  simpa [hasFault, BitVec.getLsbD_and, Bool.and_eq_false_imp] using hbits

/-- A fault that is clear in the later state was clear in the earlier one. -/
theorem FaultsKept.clear {f : Byte} {s t : State} (h : FaultsKept s t) (ht : hasFault f t = false) :
    hasFault f s = false :=
  hasFault_eq_false.2 fun j hj => hasFault_eq_false.1 ht j (h j hj)

/-- A raised F_MULTI_SELECT is set. -/
theorem hasFault_raiseFault_multiSelect (s : State) : hasFault fMultiSelect (raiseFault fMultiSelect s) = true := by
  rw [← Bool.not_eq_false, hasFault_eq_false]
  intro h
  have hbit : (raiseFault fMultiSelect s).faults.getLsbD 0 = true := by
    rw [raiseFault, BitVec.getLsbD_or]
    exact Bool.or_true _
  exact absurd (h 0 hbit) (by decide)

/-! ### The number of low lines -/

/-- Releasing a line makes no line low. -/
theorem lowCount_deassert_le (i : Nat) (s : State) : lowCount (deassert i s).1 ≤ lowCount s := by
  rw [lowCount, deassert_csLevel]
  split
  · exact Nat.le_refl _
  · exact countP_low_set_true s.csLevel i

/-- Where no fault bit is cleared and no further line goes low, mutual exclusion is kept. -/
theorem MutualExclusion.mono {s t : State} (h : MutualExclusion s) (hf : FaultsKept s t)
    (hl : lowCount t ≤ lowCount s) : MutualExclusion t :=
  fun ht => Nat.le_trans hl (h (hf.clear ht))

/-- Where FAULTS and the lines are as they were, mutual exclusion is kept. -/
theorem MutualExclusion.of_eq {s t : State} (h : MutualExclusion s) (hf : t.faults = s.faults)
    (hl : t.csLevel = s.csLevel) : MutualExclusion t :=
  h.mono (.of_eq hf) (by rw [lowCount, hl, lowCount])

/-- The drive counts the low lines itself (R130 (b)): after it mutual exclusion holds whatever it found. -/
theorem mutualExclusion_assertDrive (i : Nat) (s : State) : MutualExclusion (assertDrive i s) := by
  simp only [assertDrive]
  split
  · intro h
    rw [hasFault_raiseFault_multiSelect] at h
    cases h
  · exact fun _ => by omega

/-- At reset every line is high (R300). -/
theorem lowCount_initial (p : Params) : lowCount (State.initial p) = 0 :=
  lowCount_eq_zero.2 fun _ h => List.eq_of_mem_replicate h

/-! ### Effects and acts -/

/-- Only the drive makes a line low. -/
theorem Effect.mutualExclusion {s t : State} (e : Effect W fg s t) (h : MutualExclusion s) : MutualExclusion t := by
  have hf : FaultsKept s t := e.faultsKept
  cases e with
  | low i => exact mutualExclusion_assertDrive i s
  | high i => exact h.mono hf (lowCount_deassert_le i s)
  | _ => exact h.mono hf (by simp [lowCount])

theorem Effects.mutualExclusion {s t : State} (e : Effects W fg s t) (h : MutualExclusion s) : MutualExclusion t := by
  induction e with
  | refl => exact h
  | tail _ e ih => exact e.mutualExclusion ih

/-- Every act keeps mutual exclusion; a reset raises every line. -/
theorem Act.mutualExclusion {G : Prop} {τ : Turn} {s t : State} (a : Act G τ s t) (h : MutualExclusion s) :
    MutualExclusion t := by
  cases a with
  | micro k i f m loc _ hfg hf =>
    obtain ⟨fg, r, he, -⟩ := microStep_eq i f m loc s
    rw [he]
    exact (micro_effects hf hfg).mutualExclusion h
  | irq src =>
    have hack : MutualExclusion (acknowledge src s) := h.of_eq (acknowledge_faults src s) (acknowledge_csLevel src s)
    exact (handler_effects (W := True) src _).mutualExclusion hack
  | phaseEnd _ k miso => exact (phaseEnd_effects (W := False) k miso s False.elim).mutualExclusion h
  | reset => exact fun _ => (lowCount_initial s.params).trans_le (Nat.zero_le 1)
  | input => exact h
  | prog => exact h
  | illegal => exact h
  | take => exact h
  | edge => exact h

/-- Settles O5: the drive is the one effect that makes a line low, and it raises F_MULTI_SELECT where two are low after
it; no effect clears the bit, and a reset raises every line. -/
theorem stepKeepsMutualExclusion : Obligations.StepKeepsMutualExclusion := by
  intro s t hs hstep
  exact step_keeps hstep (fun _ _ a => a.mutualExclusion) hs

end Sys2Proof.Machine
end

section
/-! PROOF. What CS.ASSERT and CS.DEASSERT do (spec/40_chip_select.md R130 to R133): the check and the drive first, then
each request run on them. -/

namespace Sys2Proof.Machine

/-! ### The check and the drive (R130) -/

/-- The range is tested first, whatever the lines are. -/
theorem assertCheck_out {i : Nat} {s : State} (h : s.params.nCs ≤ i) : assertCheck i s = .invalidIndex := if_pos h

/-- In range, a low line is a conflict. -/
theorem assertCheck_conflict {i : Nat} {s : State} (h : i < s.params.nCs) (hlow : 0 < lowCount s) :
    assertCheck i s = .selectConflict :=
  (if_neg (Nat.not_le_of_lt h)).trans (if_pos hlow)

/-- Driving a line while another is low leaves both low and raises F_MULTI_SELECT (R301). -/
theorem assertDrive_of_other_low {i j : Nat} {s : State} (hi : i < s.csLevel.length) (hj : j ≠ i)
    (hlow : levelOf j s = false) :
    assertDrive i s = { s with
      csLevel := s.csLevel.set i false, busLog := s.busLog ++ [.csLow i], faults := s.faults ||| fMultiSelect } := by
  have hi' : (s.csLevel.set i false).getD i true = false := by rw [getD_set _ _ _ _ hi, if_pos rfl]
  have hj' : (s.csLevel.set i false).getD j true = false := by rw [getD_set _ _ _ _ hi, if_neg hj]; exact hlow
  rw [assertDrive_eq, if_pos (two_le_countP_low hj.symm hi' hj')]

/-- Driving a line while every other is high raises no fault. -/
theorem assertDrive_of_others_high {i : Nat} {s : State} (hi : i < s.csLevel.length)
    (hhigh : ∀ j, j ≠ i → levelOf j s = true) :
    assertDrive i s = { s with csLevel := s.csLevel.set i false, busLog := s.busLog ++ [.csLow i] } := by
  have hone : ((s.csLevel.set i false).countP fun level => !level) ≤ 1 := by
    refine countP_low_le_one (i := i) fun j hj => ?_
    rw [getD_set _ _ _ _ hi, if_neg hj]
    exact hhigh j hj
  rw [assertDrive_eq, if_neg (Nat.not_le_of_lt (Nat.lt_succ_of_le hone))]

/-! ### CS.ASSERT (R131) -/

/-- Micro-step (a) goes on where the check succeeds. -/
theorem microCsAssert_a_go {cs : Byte} {s : State} {loc : Locals} (h : assertCheck cs.toNat s = .ok) :
    microCsAssert cs .a loc s = .go s .b loc := if_pos h

/-- Micro-step (a) answers the code of a check that fails. -/
theorem microCsAssert_a_ret {cs : Byte} {s : State} {loc : Locals} {rc : ResultCode} (h : assertCheck cs.toNat s = rc)
    (hrc : rc ≠ .ok) : microCsAssert cs .a loc s = .ret s rc .nothing := by
  subst h
  exact if_neg hrc

/-- Micro-step (b) drives the line and answers OK. -/
theorem microCsAssert_b (cs : Byte) (loc : Locals) (s : State) :
    microCsAssert cs .b loc s = .ret (assertDrive cs.toNat s) .ok .nothing := rfl

/-- A CS.ASSERT whose check fails answers its code and changes nothing. -/
theorem exec_csAssert_refused {cs : Byte} {s : State} {rc : ResultCode} (h : Ready 1 s)
    (hcheck : assertCheck cs.toNat s = rc) (hrc : rc ≠ .ok) :
    exec (.csAssert cs) s = .next (respond rc .nothing s) := by
  obtain ⟨r, hrun⟩ := exec_ready (i := .csAssert cs) h rfl
  rw [hrun, runMicro_first (microCsAssert_a_ret (s := accept _ s) hcheck hrc)]
  rfl

/-- At its micro-step (b) CS.ASSERT drives the line and answers OK. -/
theorem exec_csAssert_drive {cs : Byte} {loc : Locals} {s : State} (hfg : s.fg = .busy (.csAssert cs) .b loc)
    (hq : 1 ≤ s.quota) : exec (.csAssert cs) s = .next (respond .ok .nothing (assertDrive cs.toNat s)) :=
  exec_answers hfg hq rfl (microCsAssert_b cs loc s)

/-- Settles O3: the drive of micro-step (b) by the level of the other lines. -/
theorem csAssertDriveRaisesMultiSelect : Obligations.CsAssertDriveRaisesMultiSelect := by
  intro cs loc s hfg hq hi
  rw [exec_csAssert_drive hfg hq]
  constructor
  · rintro ⟨j, hj, hlow⟩
    rw [assertDrive_of_other_low hi hj hlow]
    rfl
  · intro hhigh
    rw [assertDrive_of_others_high hi hhigh]

/-- Settles O1: the check succeeds, and the drive finds no line low. -/
theorem csAssertDrivesItsLineLow : Obligations.CsAssertDrivesItsLineLow := by
  intro cs s hready hrange hlow
  obtain ⟨r, hrun⟩ := exec_ready (i := .csAssert cs) hready rfl
  have hcheck : assertCheck cs.toNat (accept (.csAssert cs) s) = .ok := assertCheck_eq_ok.2 ⟨hrange, hlow⟩
  rw [hrun, runMicro_go (k := r + 1) rfl (microCsAssert_a_go hcheck), runMicro_ret rfl (microCsAssert_b cs _ _),
    assertDrive_of_none_low (by exact hlow)]
  rfl

/-- Settles O2: the check answers by the range first, then by the low lines. -/
theorem csAssertRefusesInOrder : Obligations.CsAssertRefusesInOrder := by
  intro cs s hready
  constructor
  · intro hout
    exact exec_csAssert_refused hready (assertCheck_out hout) (by decide)
  · intro hrange hlow
    exact exec_csAssert_refused hready (assertCheck_conflict hrange hlow) (by decide)

/-! ### CS.DEASSERT (R133) -/

/-- CS.DEASSERT is Deassert, with its result code as the answer. -/
theorem exec_csDeassert {cs : Byte} {s : State} (h : Ready 1 s) :
    exec (.csDeassert cs) s = .next (respond (deassert cs.toNat (accept (.csDeassert cs) s)).2 .nothing
      (deassert cs.toNat (accept (.csDeassert cs) s)).1) := by
  obtain ⟨r, hrun⟩ := exec_ready (i := .csDeassert cs) h rfl
  rw [hrun, runMicro_first rfl]

/-- Settles O4: Deassert by the range. -/
theorem csDeassertReleasesItsLine : Obligations.CsDeassertReleasesItsLine := by
  intro cs s hready
  rw [exec_csDeassert hready]
  constructor
  · intro hout
    rw [deassert_out (by exact hout)]
    rfl
  · intro hrange
    rw [deassert_in (by exact hrange)]
    rfl

end Sys2Proof.Machine
end

section
/-! PROOF. The transfer buffer (spec/41_buffer.md R140 to R146): the requests that write it, and the one that reads it. -/

namespace Sys2Proof.Machine

/-! ### The check and the write (R140, R143) -/

/-- With a transfer in flight a size write is refused, whatever its size is. -/
theorem sizeCheck_busy {n : Nat} {s : State} (h : s.periph ≠ .idle) : sizeCheck n s = .busy := if_pos h

/-- On an idle bus a size above BUF_CAP is refused. -/
theorem sizeCheck_above {n : Nat} {s : State} (hp : s.periph = .idle) (hn : s.params.bufCap < n) :
    sizeCheck n s = .capacityExceeded :=
  (if_neg (not_not.2 hp)).trans (if_pos hn)

/-- With a transfer in flight a size write raises F_BUFFER_WRITE_IN_FLIGHT, and still happens (R140 (b), R302). -/
theorem sizeWrite_inFlight {n : U32} {bs : List Byte} {s : State} (h : s.periph ≠ .idle) :
    sizeWrite n bs s = { sizedWith n bs s with faults := s.faults ||| fBufferWriteInFlight } := by
  rw [sizeWrite_eq, if_pos h]
  rfl

/-- The stores after a size write: as many bytes in TX as the size says, and that many unknown cells in RX. -/
theorem sizedWith_prefixes {n : U32} {bs : List Byte} (h : bs.length = n.toNat) (s : State) :
    PrefixHolds s.tx (sizedWith n bs s).tx n.toNat bs ∧ PrefixHolds s.rx (sizedWith n bs s).rx n.toNat [] :=
  ⟨h ▸ prefixHolds_writeFrom s.tx bs, prefixHolds_eraseBelow s.rx n.toNat⟩

/-! ### BUF.SETSIZE and BUF.SETTX: a request `i` with the micro-steps of R143 -/

section
variable {i : Instr} {n : U32} {bs : List Byte} {s : State}

/-- Micro-step (a) goes on where the check succeeds. -/
theorem microBufSetTx_a_go {loc : Locals} (h : sizeCheck n.toNat s = .ok) :
    microBufSetTx n bs .a loc s = .go s .b loc := if_pos h

/-- Micro-step (a) answers the code of a check that fails. -/
theorem microBufSetTx_a_ret {loc : Locals} {rc : ResultCode} (h : sizeCheck n.toNat s = rc) (hrc : rc ≠ .ok) :
    microBufSetTx n bs .a loc s = .ret s rc .nothing := by
  subst h
  exact if_neg hrc

/-- Micro-step (b) writes the buffer and answers OK. -/
theorem microBufSetTx_b (n : U32) (bs : List Byte) (loc : Locals) (s : State) :
    microBufSetTx n bs .b loc s = .ret (sizeWrite n bs s) .ok .nothing := rfl

/-- A size write whose check fails answers its code and changes nothing. -/
theorem exec_sizeWrite_refused {rc : ResultCode} (hf : microOf s.params i = some (microBufSetTx n bs)) (h : Ready 1 s)
    (hcheck : sizeCheck n.toNat s = rc) (hrc : rc ≠ .ok) : exec i s = .next (respond rc .nothing s) := by
  obtain ⟨r, hrun⟩ := exec_ready h hf
  rw [hrun, runMicro_first (microBufSetTx_a_ret (s := accept i s) hcheck hrc)]
  rfl

/-- On an idle bus, with its size in capacity, a size write run whole writes the buffer. -/
theorem exec_sizeWrite (hf : microOf s.params i = some (microBufSetTx n bs)) (h : Ready 2 s) (hp : s.periph = .idle)
    (hn : n.toNat ≤ s.params.bufCap) : exec i s = .next (respond .ok .nothing (sizedWith n bs s)) := by
  obtain ⟨r, hrun⟩ := exec_ready h hf
  have hcheck : sizeCheck n.toNat (accept i s) = .ok := sizeCheck_eq_ok.2 ⟨hp, hn⟩
  rw [hrun, runMicro_go (k := r + 1) rfl (microBufSetTx_a_go hcheck), runMicro_ret rfl (microBufSetTx_b n bs _ _),
    sizeWrite_idle (by exact hp)]
  rfl

/-- At its micro-step (b), with a transfer in flight, a size write raises the fault and writes the buffer. -/
theorem exec_sizeWrite_inFlight {loc : Locals} (hf : microOf s.params i = some (microBufSetTx n bs))
    (hfg : s.fg = .busy i .b loc) (hq : 1 ≤ s.quota) (hp : s.periph ≠ .idle) :
    exec i s = .next (respond .ok .nothing { sizedWith n bs s with faults := s.faults ||| fBufferWriteInFlight }) := by
  rw [exec_answers hfg hq hf (microBufSetTx_b n bs loc s), sizeWrite_inFlight hp]

end

/-- Settles O6: a size write of zeros. -/
theorem bufSetSizeZeroFillsTransmit : Obligations.BufSetSizeZeroFillsTransmit := by
  intro n s hready hp hn
  refine ⟨_, _, exec_sizeWrite (bs := zeroBytes n) ?_ hready hp hn, sizedWith_prefixes (by simp [zeroBytes]) s⟩
  exact congrArg some (microBufSetSize_eq n)

/-- Settles O7: a size write of the payload, which is as long as its length field says (R97). -/
theorem bufSetTxCopiesPayload : Obligations.BufSetTxCopiesPayload := by
  intro n p s hwf hready hp hn
  have hlen : p.length = n.toNat := by simpa [Instr.wf] using hwf
  exact ⟨_, _, exec_sizeWrite (bs := p) rfl hready hp hn, sizedWith_prefixes hlen s⟩

/-- Settles O8: the check answers by the bus first, then by the size. -/
theorem bufferWriteRefusesInOrder : Obligations.BufferWriteRefusesInOrder := by
  intro i n s hi hready
  have hmicro : ∃ bs, microOf s.params i = some (microBufSetTx n bs) := by
    rcases hi with rfl | ⟨p, rfl⟩
    · exact ⟨zeroBytes n, rfl⟩
    · exact ⟨p, rfl⟩
  obtain ⟨bs, hf⟩ := hmicro
  constructor
  · intro hp
    exact exec_sizeWrite_refused hf hready (sizeCheck_busy hp) (by decide)
  · intro hp hn
    exact exec_sizeWrite_refused hf hready (sizeCheck_above hp hn) (by decide)

/-! ### BUF.READRX (R145, R146) -/

/-- Answering the received bytes counts free values, and changes nothing else. -/
theorem receivedView_state (s : State) : (receivedView s).2 = { s with draws := s.draws + s.bufSize.toNat } := by
  unfold receivedView
  split <;> rfl

/-- BUF_SIZE bytes are answered, whether a transfer is in flight or not. -/
theorem receivedView_length (s : State) : (receivedView s).1.length = s.bufSize.toNat := by
  unfold receivedView
  split
  · simp [drawBytes]
  · exact readBytes_length _ _ s

/-- Settles O9: the one micro-step answers the view, on an idle bus the cells themselves. -/
theorem bufReadRxAnswersTheActiveSize : Obligations.BufReadRxAnswersTheActiveSize := by
  intro s hready
  let u : State := accept .bufReadRx s
  obtain ⟨r, hrun⟩ := exec_ready (i := .bufReadRx) hready rfl
  refine ⟨(receivedView u).1, s.draws + s.bufSize.toNat, ?_, receivedView_length u, fun hp => ?_⟩
  · rw [hrun, runMicro_first rfl, receivedView_state]
    rfl
  · rw [receivedView_idle (s := u) hp]
    exact readBytes_sent s.rx s.bufSize.toNat u

end Sys2Proof.Machine
end

section
/-! PROOF. BUF_SIZE while a transfer is in flight (spec/41_buffer.md R141, R302): a size write in flight is recorded,
micro-step by micro-step; then a turn of FG, then a step; and CAP.START's write of the size (R220 (e)). -/

namespace Sys2Proof.Machine

/-! ### A size write in flight -/

/-- A fault just raised is set. -/
theorem hasFault_of_or {f x : Byte} {s : State} (hf : f ≠ 0) (h : s.faults = x ||| f) : hasFault f s = true := by
  have habsorb : (x ||| f) &&& f = f := by
    ext j
    simp +contextual
  rw [hasFault, h, habsorb]
  exact bne_iff_ne.2 hf

/-- A fault once set stays set while the fault bits are kept. -/
theorem FaultsKept.set {f : Byte} {s t : State} (h : FaultsKept s t) (hs : hasFault f s = true) :
    hasFault f t = true := by
  by_contra ht
  rw [h.clear (Bool.eq_false_iff.2 ht)] at hs
  cases hs

/-- From `s` to `t` BUF_SIZE is kept, or its write in flight has been recorded. -/
def SizeKeptOrFault (s t : State) : Prop :=
  t.bufSize = s.bufSize ∨ hasFault fBufferWriteInFlight t = true

/-- A size write with a transfer in flight is recorded. -/
theorem sizeKeptOrFault_sizeWrite {s : State} (h : s.periph ≠ .idle) (n : U32) (bs : List Byte) :
    SizeKeptOrFault s (sizeWrite n bs s) :=
  .inr (hasFault_of_or (x := s.faults) (by decide) (by rw [sizeWrite_inFlight h]))

/-- IRQ and PERIPH write no size. -/
theorem Effects.bufSize {W : Prop} {s t : State} (e : Effects W false s t) : t.bufSize = s.bufSize := by
  induction e with
  | refl => rfl
  | tail _ e ih =>
    cases e with
    | size _ _ _ hf => cases hf
    | _ => simpa using ih

/-- A request whose effects IRQ could have too writes no size. -/
theorem microAll_bufSize {f : MicroFn} (h : MicroAll (Effects True false) f) :
    MicroAll (fun s t => t.bufSize = s.bufSize) f :=
  fun m loc s => (h m loc s).bufSize

theorem bufSetTx_sizeKeptOrFault (n : U32) (bs : List Byte) :
    MicroAll (fun s t => s.periph ≠ .idle → SizeKeptOrFault s t) (microBufSetTx n bs) := by
  intro m loc s hp
  cases m with
  | a =>
    rw [microBufSetTx_a_ret (sizeCheck_busy hp) (by decide)]
    exact .inl rfl
  | _ => exact sizeKeptOrFault_sizeWrite hp n bs

theorem capStart_sizeKeptOrFault (cs : Byte) (n : U32) :
    MicroAll (fun s t => s.periph ≠ .idle → SizeKeptOrFault s t) (microCapStart cs n) := by
  intro m loc s hp
  cases m with
  | a =>
    simp only [microCapStart]
    split <;> exact .inl rfl
  | e =>
    simp only [microCapStart]
    split
    · exact sizeKeptOrFault_sizeWrite hp _ _
    · exact .inl rfl
  | _ => exact .inl rfl

/-- A micro-step with a transfer in flight keeps BUF_SIZE, or records its write. -/
theorem micro_sizeKeptOrFault {p : Params} {i : Instr} {f : MicroFn} (hf : microOf p i = some f) :
    MicroAll (fun s t => s.periph ≠ .idle → SizeKeptOrFault s t) f := by
  have quiet : ∀ {g : MicroFn}, MicroAll (Effects True false) g →
      MicroAll (fun s t => s.periph ≠ .idle → SizeKeptOrFault s t) g :=
    fun h m loc s _ => .inl (microAll_bufSize h m loc s)
  exact microOf_all (fun _ _ => .inl rfl)
    (assert := fun cs => quiet (effects_csAssert cs))
    (release := fun cs => quiet fun _ _ _ => .single (.high cs.toNat _))
    (size := fun n => microBufSetSize_eq n ▸ bufSetTx_sizeKeptOrFault n _)
    (setTx := bufSetTx_sizeKeptOrFault)
    (readRx := quiet effects_bufReadRx)
    (sync := fun kind cs m loc s _ => .inl (effects_sync (W := False) (fg := false) kind cs m False.elim).bufSize)
    (start := fun k cs => quiet (effects_asyncStart k cs))
    (status := fun k => quiet (effects_asyncStatus k))
    (cap := capStart_sizeKeptOrFault)
    (count := quiet fun _ _ _ => .refl)
    (slot := fun n => quiet (effects_capSlot n)) hf

/-! ### A turn of FG that begins in flight

Within such a turn the bus may become idle, by SyncXfer's (e), and a size write after that would leave no trace. None
comes: SyncXfer is the last writer of its request, and a turn of FG ends with its request. -/

/-- Whether no micro-step to come of the request in progress writes the size: SyncXfer writes none, and of a register
frame only the first request, BUF.SETTX, does. -/
def noSizeAhead : FgPhase → Bool
  | .idle => true
  | .busy (.syncWrite _) _ _ => true
  | .busy (.syncRw _) _ _ => true
  | .busy (.regWriteFrame _ _) _ loc => decide (0 < loc.stage)
  | .busy (.regReadFrame _) _ loc => decide (0 < loc.stage)
  | _ => false

/-- A sequence of requests never goes back to an earlier request. -/
theorem sequenceMicro_stage_le {parts : List MicroFn} {m m' : Micro} {loc loc' : Locals} {s s' : State}
    (h : sequenceMicro parts m loc s = .go s' m' loc') : loc.stage ≤ loc'.stage := by
  unfold sequenceMicro at h
  split at h
  · cases h
  · split at h
    · cases h
      exact Nat.le_refl _
    · split at h <;> cases h
      exact Nat.le_succ _

/-- A sequence of requests does to the state what its request in progress does. -/
theorem sequenceMicro_part_state {parts : List MicroFn} {f : MicroFn} {m : Micro} {loc : Locals} {s : State}
    (h : parts[loc.stage]? = some f) : (sequenceMicro parts m loc s).state = (f m loc s).state := by
  cases hout : f m loc s with
  | go s' m' loc' =>
    rw [sequenceMicro_go h hout]
    rfl
  | ret s' rc d =>
    by_cases hl : loc.stage + 1 < parts.length
    · rw [sequenceMicro_next h hl hout]
      rfl
    · rw [sequenceMicro_last h hl hout]

/-- After its first request a sequence of requests writes no size if no later one does. -/
theorem sequenceMicro_later_bufSize {f : MicroFn} {rest : List MicroFn}
    (h : ∀ g ∈ rest, MicroAll (fun s t => t.bufSize = s.bufSize) g) (m : Micro) {loc : Locals} (hs : 0 < loc.stage)
    (s : State) : (sequenceMicro (f :: rest) m loc s).state.bufSize = s.bufSize := by
  obtain ⟨j, hj⟩ : ∃ j, loc.stage = j + 1 := ⟨loc.stage - 1, by omega⟩
  have hparts : (f :: rest)[loc.stage]? = rest[j]? := by rw [hj, List.getElem?_cons_succ]
  cases hg : rest[j]? with
  | none => simp [sequenceMicro, hparts, hg, MicroOut.state]
  | some g =>
    rw [sequenceMicro_part_state (hparts.trans hg)]
    exact h g (List.mem_of_getElem? hg) m loc s

theorem sync_bufSize (kind : SyncKind) (cs : Byte) : MicroAll (fun s t => t.bufSize = s.bufSize) (microSync kind cs) :=
  fun m _ _ => (effects_sync (W := False) (fg := false) kind cs m False.elim).bufSize

theorem bufReadRx_bufSize : MicroAll (fun s t => t.bufSize = s.bufSize) microBufReadRx :=
  microAll_bufSize effects_bufReadRx

/-- Where no size write is ahead the next micro-step writes none. -/
theorem micro_bufSize {p : Params} {i : Instr} {f : MicroFn} (hf : microOf p i = some f) {m : Micro} {loc : Locals}
    (h : noSizeAhead (.busy i m loc) = true) (s : State) : (f m loc s).state.bufSize = s.bufSize := by
  cases i <;> simp only [noSizeAhead, Bool.false_eq_true, decide_eq_true_eq] at h <;>
    simp only [microOf, Option.some.injEq] at hf <;> subst hf
  case syncWrite cs => exact sync_bufSize .write cs m loc s
  case syncRw cs => exact sync_bufSize .rw cs m loc s
  case regWriteFrame a v =>
    refine sequenceMicro_later_bufSize (fun g hg => ?_) m h s
    obtain rfl : g = _ := List.mem_singleton.1 hg
    exact sync_bufSize .write _
  case regReadFrame a =>
    refine sequenceMicro_later_bufSize (fun g hg => ?_) m h s
    simp only [List.mem_cons, List.not_mem_nil, or_false] at hg
    rcases hg with rfl | rfl
    · exact sync_bufSize .rw _
    · exact bufReadRx_bufSize

/-- Where no size write is ahead none comes up. -/
theorem micro_noSizeAhead {p : Params} {i : Instr} {f : MicroFn} (hf : microOf p i = some f) {m m' : Micro}
    {loc loc' : Locals} {s s' : State} (h : noSizeAhead (.busy i m loc) = true) (hgo : f m loc s = .go s' m' loc') :
    noSizeAhead (.busy i m' loc') = true := by
  cases i <;> simp only [noSizeAhead, Bool.false_eq_true, decide_eq_true_eq] at h
  case syncWrite | syncRw => rfl
  case regWriteFrame | regReadFrame =>
    obtain rfl := Option.some.inj hf
    exact decide_eq_true (Nat.lt_of_lt_of_le h (sequenceMicro_stage_le hgo))

/-- AsyncStart does not give a busy bus back (R181). -/
theorem asyncStart_keepsBusy (k : Kind) (cs : Byte) :
    MicroAll (fun s t => s.periph ≠ .idle → t.periph = s.periph) (microAsyncStart k cs) := by
  intro m loc s hp
  cases m with
  | d => simp [microAsyncStart, startPrimitive_busy hp, startFailed, MicroOut.state]
  | _ =>
    simp only [microAsyncStart, startFailed]
    repeat' split
    all_goals simp [MicroOut.state]

/-- Where a size write may be ahead the next micro-step leaves a busy bus busy: only SyncXfer gives it back (R160). -/
theorem micro_keepsBusy {p : Params} {i : Instr} {f : MicroFn} (hf : microOf p i = some f) {m : Micro} {loc : Locals}
    (h : noSizeAhead (.busy i m loc) = false) {s : State} (hp : s.periph ≠ .idle) :
    (f m loc s).state.periph = s.periph := by
  cases i <;> simp only [noSizeAhead, Bool.true_eq_false, decide_eq_false_iff_not, Nat.not_lt, Nat.le_zero] at h <;>
    simp only [microOf, Option.some.injEq, reduceCtorEq] at hf <;> subst hf
  case csAssert cs => exact (csAssert_same cs m loc s).1
  case csDeassert cs => exact deassert_periph cs.toNat s
  case bufSetSize n => exact (bufSetTx_same n (zeroBytes n) m loc s).1
  case bufSetTx n bs => exact (bufSetTx_same n bs m loc s).1
  case bufReadRx => exact (bufReadRx_same m loc s).1
  case asyncRead cs => exact asyncStart_keepsBusy .rx cs m loc s hp
  case asyncRw cs => exact asyncStart_keepsBusy .txrx cs m loc s hp
  case asyncStatus k => exact (asyncStatus_same k m loc s).1
  case capStart cs n => exact (capStart_same cs n m loc s).1
  case capCount => rfl
  case capSlot n => exact (capSlot_same n m loc s).1
  case regWriteFrame a v =>
    refine (congrArg State.periph (sequenceMicro_part_state (by rw [h]; rfl))).trans ?_
    exact (bufSetTx_same _ _ m loc s).1
  case regReadFrame a =>
    refine (congrArg State.periph (sequenceMicro_part_state (by rw [h]; rfl))).trans ?_
    exact (bufSetTx_same _ _ m loc s).1

/-- What a turn of FG that begins in flight with BUF_SIZE = b keeps: the size, with the bus busy as long as a size write
may be ahead; or the record of its write. -/
def SizeHeld (b : U32) (s : State) : Prop :=
  hasFault fBufferWriteInFlight s = true ∨ (s.bufSize = b ∧ (s.periph ≠ .idle ∨ noSizeAhead s.fg = true))

theorem SizeHeld.microStep {b : U32} {i : Instr} {f : MicroFn} {m : Micro} {loc : Locals} {s : State}
    (h : SizeHeld b s) (hfg : s.fg = .busy i m loc) (hf : microOf s.params i = some f) :
    SizeHeld b (microStep i f m loc s) := by
  obtain ⟨fg, r, he, hnext⟩ := microStep_eq i f m loc s
  rw [he]
  rcases h with hfault | ⟨hsize, hahead⟩
  · exact .inl ((micro_effects hf hfg).faultsKept.set hfault)
  rw [hfg] at hahead
  cases hno : noSizeAhead (.busy i m loc) with
  | true =>
    refine .inr ⟨(micro_bufSize hf hno s).trans hsize, .inr ?_⟩
    rcases hnext with rfl | ⟨m', loc', rfl, hgo⟩
    · rfl
    · exact micro_noSizeAhead hf hno hgo
  | false =>
    have hp : s.periph ≠ .idle := hahead.resolve_right (by simp [hno])
    rcases micro_sizeKeptOrFault hf m loc s hp with hkept | hfault
    · exact .inr ⟨hkept.trans hsize, .inl ((micro_keepsBusy hf hno hp).trans_ne hp)⟩
    · exact .inl hfault

theorem SizeHeld.runMicro {b : U32} {i : Instr} {f : MicroFn} (k : Nat) {s : State} (h : SizeHeld b s)
    (hf : microOf s.params i = some f) (hi : s.fg = .idle ∨ ∃ m loc, s.fg = .busy i m loc) :
    SizeHeld b (runMicro i f k s) := by
  induction k generalizing s with
  | zero => exact h
  | succ k ih =>
    rcases hi with hidle | ⟨m, loc, hfg⟩
    · rwa [runMicro_idle hidle]
    · obtain ⟨fg, r, he, hnext⟩ := microStep_eq i f m loc s
      rw [runMicro_busy hfg]
      refine ih (h.microStep hfg hf) ?_ ?_ <;> rw [he]
      · rwa [show (_ : State).params = s.params from micro_params hf m loc s]
      · exact hnext.imp_right fun ⟨m', loc', hm, _⟩ => ⟨m', loc', hm⟩

/-- A request that FG runs, or goes on with, in a turn that begins in flight. -/
theorem exec_sizeKeptOrFault {i : Instr} {s t : State} (hr : isRequest i = true) (hp : s.periph ≠ .idle)
    (h : exec i s = .next t) : SizeKeptOrFault s t := by
  obtain ⟨f, hf⟩ := Option.isSome_iff_exists.1 ((microOf_isSome s.params i).trans hr)
  have held : SizeHeld s.bufSize t := by
    rw [exec_request hf] at h
    rcases runRequest_next h with ⟨-, rfl⟩ | ⟨m, loc, hfg, rfl⟩
    · exact SizeHeld.runMicro (s := accept i s) s.quota (.inr ⟨rfl, .inl hp⟩) hf (.inr ⟨_, _, rfl⟩)
    · exact SizeHeld.runMicro s.quota (.inr ⟨rfl, .inl hp⟩) hf (.inr ⟨m, loc, hfg⟩)
  exact held.symm.imp_left And.left

theorem hostTake_sizeKeptOrFault {s t : State} (hp : s.periph ≠ .idle) (h : hostTake s = .next t) :
    SizeKeptOrFault s t := by
  unfold hostTake at h
  split at h
  · cases h
    exact .inl rfl
  · cases h
    exact .inl rfl
  · cases h
    exact .inl rfl
  · rename_i bytes rest _
    split at h
    · rename_i hd
      obtain ⟨-, hf⟩ := decodeRegFrame_frame hd
      exact exec_sizeKeptOrFault (s := { s with hostIn := rest }) (by simp [isRequest, hf]) hp h
    · cases h
    · cases h

theorem fetchRequest_sizeKeptOrFault {s t : State} (hp : s.periph ≠ .idle) (h : fetchRequest s = .next t) :
    SizeKeptOrFault s t := by
  unfold fetchRequest at h
  split at h
  · rename_i i rest hd
    obtain ⟨-, hf⟩ := decodeRequest_request hd
    exact exec_sizeKeptOrFault (s := { s with port := rest }) (by simp [isRequest, hf]) hp h
  · split at h
    · cases h
      exact .inl rfl
    · exact hostTake_sizeKeptOrFault hp h
  · exact hostTake_sizeKeptOrFault hp h

/-- An action of the host program that issues no request is one of the host's own. -/
theorem hostAct_local {op : HostOp} (h : ∀ r, op ≠ .issue r) (s : State) : hostAct op s = .next (hostLocal op s) := by
  cases op with
  | issue r => exact absurd rfl (h r)
  | _ => rfl

theorem hostAct_sizeKeptOrFault {op : HostOp} {s t : State} (hop : ∀ r, op = .issue r → isRequest r = true)
    (hp : s.periph ≠ .idle) (h : hostAct op s = .next t) : SizeKeptOrFault s t := by
  by_cases hissue : ∃ r, op = .issue r
  · obtain ⟨r, rfl⟩ := hissue
    exact exec_sizeKeptOrFault (hop r rfl) hp h
  · rw [hostAct_local (not_exists.1 hissue)] at h
    obtain ⟨lines, d, ops, he, -⟩ := hostLocal_state op s
    cases h
    exact .inl (by rw [he])

/-- What a well-formed host program issues next is a request. -/
theorem progWf_issue {op : HostOp} {ops : List HostOp} (h : progWf (op :: ops) = true) {r : Instr}
    (hop : op = .issue r) : isRequest r = true := by
  subst hop
  simp only [progWf, List.all_cons, Bool.and_eq_true] at h
  exact h.1.2

theorem fgTurn_sizeKeptOrFault {s t : State} (hg : Guarded s) (hp : s.periph ≠ .idle) (h : fgTurn s = .next t) :
    SizeKeptOrFault s t := by
  cases hfg : s.fg with
  | busy i m loc =>
    rw [fgTurn_busy hfg] at h
    exact exec_sizeKeptOrFault (hg.request hfg) hp h
  | idle =>
    cases hprog : s.hostProg with
    | nil =>
      rw [fgTurn_fetch hfg hprog] at h
      exact fetchRequest_sizeKeptOrFault hp h
    | cons op ops =>
      rw [fgTurn_prog hfg hprog] at h
      have hop : progWf (op :: ops) = true := hprog ▸ hg.1
      exact hostAct_sizeKeptOrFault (s := { s with hostProg := ops }) (fun _ => progWf_issue hop) hp h

/-! ### A step that begins in flight -/

/-- Taking the next turn writes the schedule and the count of free values only. -/
theorem nextTurn_state (s : State) : ∃ turns draws, (nextTurn s).2 = { s with turns := turns, draws := draws } := by
  unfold nextTurn
  split
  · exact ⟨_, s.draws, rfl⟩
  · exact ⟨s.turns, _, rfl⟩

/-- A step of FG. -/
theorem step_fg_sizeKeptOrFault {k : Nat} {s t : State} (hs : s.Wf) (hτ : (nextTurn s).1 = .fg k)
    (hp : s.periph ≠ .idle) (h : step s = .next t) : SizeKeptOrFault s t := by
  obtain ⟨turns, draws, hnext⟩ := nextTurn_state s
  rw [step, hτ, hnext] at h
  exact fgTurn_sizeKeptOrFault (s := { s with turns := turns, draws := draws, quota := k }) ⟨hs.prog, hs.phase⟩ hp h

/-- No act outside a turn of FG writes the size, but for a reset. -/
theorem Act.bufSize {G : Prop} {τ : Turn} {s t : State} (a : Act G τ s t) (hg : G) (hτ : ∀ k, τ ≠ .fg k)
    (hreset : τ ≠ .platform) : t.bufSize = s.bufSize := by
  cases a with
  | prog k => exact absurd rfl (hτ k)
  | illegal k => exact absurd rfl (hτ k)
  | take k => exact absurd rfl (hτ k)
  | micro k => exact absurd rfl (hτ k)
  | irq src =>
    have e : Effects True false (acknowledge src s) (handler src (acknowledge src s)) := handler_effects src _
    exact e.bufSize.trans (acknowledge_bufSize src s)
  | phaseEnd _ k miso => exact (phaseEnd_effects (W := False) k miso s False.elim).bufSize
  | reset _ _ h => exact absurd (h hg) hreset
  | input => rfl
  | edge => rfl

theorem step_sizeKeptOrFault {s t : State} (hs : s.Wf) (hreset : (nextTurn s).1 ≠ .platform) (hp : s.periph ≠ .idle)
    (h : step s = .next t) : SizeKeptOrFault s t := by
  by_cases hfg : ∃ k, (nextTurn s).1 = .fg k
  · obtain ⟨k, hτ⟩ := hfg
    exact step_fg_sizeKeptOrFault hs hτ hp h
  · have guarded : Guarded s := ⟨hs.prog, hs.phase⟩
    exact .inl (step_keeps (P := fun u => u.bufSize = s.bufSize) h
      (fun _ _ a hu => (a.bufSize guarded (not_exists.1 hfg) hreset).trans hu) rfl)

/-! ### The race of CAP.START (R220 (e)) -/

/-- A request in progress that goes on after its next micro-step, in a turn of one. -/
theorem exec_goes {i : Instr} {f : MicroFn} {m m' : Micro} {loc loc' : Locals} {s s' : State}
    (hfg : s.fg = .busy i m loc) (hq : s.quota = 1) (hf : microOf s.params i = some f)
    (h : f m loc s = .go s' m' loc') : exec i s = .next (continueAt i m' loc' s') := by
  rw [exec_request hf, runRequest_busy hfg, hq, runMicro_go hfg h, runMicro_zero]

/-- CAP.START's micro-step (e) after a good check, with a transfer in flight. -/
theorem microCapStart_e_inFlight {cs : Byte} {n : U32} {loc : Locals} {s : State} (hsized : loc.sized = true)
    (hp : s.periph ≠ .idle) :
    microCapStart cs n .e loc s =
      .go { sizedWith 3 [0, 0, 0] s with faults := s.faults ||| fBufferWriteInFlight } .f loc := by
  have hwrite : sizeWrite sampleSize (zeroBytes sampleSize) s =
      { sizedWith 3 [0, 0, 0] s with faults := s.faults ||| fBufferWriteInFlight } := sizeWrite_inFlight hp
  rw [microCapStart, hsized, if_pos rfl, hwrite]

/-- Settles O10: in flight a size write raises F_BUFFER_WRITE_IN_FLIGHT wherever it stands in its request, and FG gives
the bus back in no turn that still writes the size. -/
theorem sizeKeptInFlight : Obligations.SizeKeptInFlight := by
  refine ⟨?kept, ?write, ?capStart⟩
  case kept =>
    intro s t hs hstep hp
    by_cases hreset : (nextTurn s).1 = .platform
    · exact .inr (.inr hreset)
    · exact (step_sizeKeptOrFault hs hreset hp hstep).imp_right .inl
  case write =>
    intro i n bs loc s hi hfg hq hp
    have hmicro : microOf s.params i = some (microBufSetTx n bs) ∧ bs.length = n.toNat := by
      rcases hi with ⟨rfl, rfl⟩ | ⟨rfl, hwf⟩
      · exact ⟨rfl, List.length_replicate⟩
      · exact ⟨rfl, by simpa [Instr.wf] using hwf⟩
    obtain ⟨hf, hlen⟩ := hmicro
    exact ⟨_, _, exec_sizeWrite_inFlight hf hfg hq hp, sizedWith_prefixes hlen s⟩
  case capStart =>
    intro cs n loc s hfg hsized hq hp
    exact ⟨_, _, exec_goes hfg hq rfl (microCapStart_e_inFlight hsized hp),
      sizedWith_prefixes (n := 3) (bs := [0, 0, 0]) rfl s⟩

end Sys2Proof.Machine
end

section
/-! PROOF. The synchronous engine (spec/42_sync_engine.md R160 to R164): SyncXfer run whole, where it fails fast, how it
ends, and what a start of either engine does that finds the bus busy (R160 (d), R181 (d)). -/

namespace Sys2Proof.Machine

/-- SYNC.WRITE and SYNC.RW are SyncXfer of their kind (R161, R163). -/
theorem microOf_sync {i : Instr} {cs : Byte} (h : i = .syncWrite cs ∨ i = .syncRw cs) (p : Params) :
    ∃ kind, microOf p i = some (microSync kind cs) := by
  rcases h with rfl | rfl
  · exact ⟨.write, rfl⟩
  · exact ⟨.rw, rfl⟩

section
variable {i : Instr} {kind : SyncKind} {cs : Byte} {loc : Locals} {s : State}

/-! ### Run whole (R160, R161, R163) -/

/-- SyncXfer run whole, where nothing stands in the way. -/
theorem exec_sync (hf : microOf s.params i = some (microSync kind cs)) (h : Ready 6 s) (hmay : MayTransfer cs s) :
    exec i s = .next (respond (outcomeCode (syncOutcome s)) .nothing (syncDone kind cs.toNat s)) := by
  obtain ⟨r, hrun⟩ := exec_ready h hf
  rw [hrun, runMicro_sync (s := accept i s) r hmay rfl]
  rfl

/-- RX after a synchronous transmit-receive data phase: the bytes received, or unknown where it failed (R162, R163). -/
theorem prefixHolds_syncRx {m : Memory} {n : Nat} {miso : List Byte} (o : PhaseOutcome) (hn : miso.length = n) :
    PrefixHolds m (syncRx .rw o n miso m) n (if o = .ok then miso else []) := by
  cases o with
  | ok => exact hn ▸ prefixHolds_writeFrom m miso
  | transferFailed | timeout => exact prefixHolds_eraseBelow m n

/-! ### Failing fast (R160 (a), (b)) -/

/-- Micro-step (a) without a handle. -/
theorem microSync_a_unbound (h : s.bound = false) : microSync kind cs .a loc s = .ret s .notInitialized .nothing :=
  if_pos h

/-- Micro-step (a) with a handle and an empty buffer. -/
theorem microSync_a_empty (hb : s.bound = true) (hs : s.bufSize = 0) :
    microSync kind cs .a loc s = .ret s .emptyBuffer .nothing :=
  (if_neg (by simp [hb])).trans (if_pos hs)

/-- Micro-step (a) goes on with a handle and a buffer that is not empty. -/
theorem microSync_a_go (hb : s.bound = true) (hs : s.bufSize ≠ 0) : microSync kind cs .a loc s = .go s .b loc :=
  (if_neg (by simp [hb])).trans (if_neg hs)

/-- Micro-step (b) answers SELECT_FAILED, whatever the check of the line found. -/
theorem microSync_b_blocked (h : s.params.nCs ≤ cs.toNat ∨ 0 < lowCount s) :
    microSync kind cs .b loc s = .ret s .selectFailed .nothing :=
  if_neg (assertCheck_ne_ok h)

/-! ### The end (R160 (f), R164) -/

/-- The last micro-step releases the line and answers the outcome it holds. -/
theorem microSync_f (kind : SyncKind) (cs : Byte) (loc : Locals) (s : State) :
    microSync kind cs .f loc s = .ret (deassert cs.toNat s).1 loc.rc .nothing := rfl

/-- Releasing a line drives it high, and no other. -/
theorem levelOf_deassert {l : Nat} (hrange : l < s.params.nCs) (hl : l < s.csLevel.length) (j : Nat) :
    levelOf j (deassert l s).1 = if j = l then true else levelOf j s := by
  rw [levelOf, deassert_csLevel, if_neg (Nat.not_le_of_lt hrange), getD_set _ _ _ _ hl]
  rfl

/-! ### A busy bus (R160 (d), R181 (d)) -/

/-- A request in progress that goes on and then answers, in a turn of at least two. -/
theorem exec_goes_answers {f : MicroFn} {m m' : Micro} {loc' : Locals} {s' s'' : State} {rc : ResultCode} {d : RespData}
    (hfg : s.fg = .busy i m loc) (hq : 2 ≤ s.quota) (hf : microOf s.params i = some f) (hgo : f m loc s = .go s' m' loc')
    (hret : f m' loc' (continueAt i m' loc' s') = .ret s'' rc d) : exec i s = .next (respond rc d s'') := by
  obtain ⟨k, hk⟩ := Nat.exists_eq_add_of_le' hq
  rw [exec_request hf, runRequest_busy hfg, hk, runMicro_go (k := k + 1) hfg hgo, runMicro_ret rfl hret]

/-- Micro-step (d) of SyncXfer on a busy bus raises the fault and skips the data phase. -/
theorem microSync_d_busy (h : s.periph ≠ .idle) :
    microSync kind cs .d loc s = .go (raiseFault fStartWhileBusy s) .f { rc := .busy } := if_pos h

/-- Micro-step (d) of AsyncStart on a busy bus raises the fault, releases the line and fails. -/
theorem microAsyncStart_d_busy {k : Kind} (h : s.periph ≠ .idle) :
    microAsyncStart k cs .d loc s = startFailed k (deassert cs.toNat (raiseFault fStartWhileBusy s)).1 := by
  rw [microAsyncStart, startPrimitive_busy h]
  rfl

/-- F_START_WHILE_BUSY is still set when the line has been released. -/
theorem hasFault_deassert_startWhileBusy (l : Nat) (s : State) :
    hasFault fStartWhileBusy (deassert l (raiseFault fStartWhileBusy s)).1 = true := by
  have hset : hasFault fStartWhileBusy (raiseFault fStartWhileBusy s) = true :=
    hasFault_of_or (x := s.faults) (by decide) rfl
  exact (Effect.high (W := True) (fg := true) l _).faultsKept.set hset

/-- The release of a start's line on a busy bus: bit 2 of FAULTS, and bit 1 where the line was low (R132, R303). -/
theorem deassert_startWhileBusy {l : Nat} (hp : s.periph ≠ .idle) (hrange : l < s.params.nCs) :
    (deassert l (raiseFault fStartWhileBusy s)).1 = { s with
      csLevel := s.csLevel.set l true
      busLog := s.busLog ++ [.csHigh l]
      faults := s.faults ||| (if levelOf l s = false then 0x06 else 0x04) } := by
  have hlevel : levelOf l (raiseFault fStartWhileBusy s) = levelOf l s := rfl
  rw [deassert_in (by exact hrange), hlevel]
  by_cases hlow : levelOf l s = false
  · have hbits : s.faults ||| fStartWhileBusy ||| fCsReleasedInFlight = s.faults ||| 0x06 := BitVec.or_assoc ..
    simp [hlow, hp, hbits]
  · have hbits : s.faults ||| fStartWhileBusy = s.faults ||| 0x04 := rfl
    simp [hlow, hbits]

/-- An asynchronous start that finds the bus busy at (d) answers and records ERROR. -/
theorem exec_asyncStart_busy {k : Kind} (hf : microOf s.params i = some (microAsyncStart k cs))
    (hfg : s.fg = .busy i .d loc) (hq : 1 ≤ s.quota) (hp : s.periph ≠ .idle) (hrange : cs.toNat < s.params.nCs) :
    exec i s = .next (respond .error .nothing (setResult k .error { s with
      csLevel := s.csLevel.set cs.toNat true
      busLog := s.busLog ++ [.csHigh cs.toNat]
      faults := s.faults ||| (if levelOf cs.toNat s = false then 0x06 else 0x04) })) := by
  rw [← deassert_startWhileBusy hp hrange]
  exact exec_answers hfg hq hf (microAsyncStart_d_busy hp)

end

/-- Settles O11: SyncXfer run whole with the transmit-only kind, which keeps RX. -/
theorem syncWriteRunsWhole : Obligations.SyncWriteRunsWhole := by
  intro cs s hready hmay
  refine ⟨syncOutcome s, (readBytes s.tx s.bufSize.toNat s).1, s.draws + s.bufSize.toNat + 1 + s.bufSize.toNat, ?_,
    readBytes_sent _ _ s, fun x rest => syncOutcome_of_cons⟩
  rw [exec_sync (i := .syncWrite cs) rfl hready hmay, syncDone, syncLogged, syncRecord_write]
  rfl

/-- Settles O12: SyncXfer run whole with the transmit-receive kind. -/
theorem syncRwRunsWhole : Obligations.SyncRwRunsWhole := by
  intro cs s hready hmay
  refine ⟨syncOutcome s, (readBytes s.tx s.bufSize.toNat s).1, syncReceived s, (syncDone .rw cs.toNat s).rx,
    s.draws + s.bufSize.toNat + 1 + s.bufSize.toNat, ?_, readBytes_sent _ _ s, syncReceived_length s,
    fun j v => syncReceived_get, prefixHolds_syncRx _ (syncReceived_length s), fun x rest => syncOutcome_of_cons⟩
  rw [exec_sync (i := .syncRw cs) rfl hready hmay, syncDone, syncLogged, syncRecord_rw]

/-- Settles O13: micro-step (a) answers by the handle, then by the size; micro-step (b) by the lines. -/
theorem syncFailsFastInOrder : Obligations.SyncFailsFastInOrder := by
  intro i cs s hi hready
  obtain ⟨kind, hf⟩ := microOf_sync hi s.params
  obtain ⟨r, hrun⟩ := exec_ready hready hf
  rw [hrun]
  refine ⟨fun hbound => ?unbound, fun hbound hsize => ?empty, fun hbound hsize hblocked => ?blocked⟩
  case unbound =>
    rw [runMicro_first (k := r + 1) (microSync_a_unbound (s := accept i s) hbound)]
    rfl
  case empty =>
    rw [runMicro_first (k := r + 1) (microSync_a_empty (s := accept i s) hbound hsize)]
    rfl
  case blocked =>
    rw [runMicro_go (k := r + 1) rfl (microSync_a_go (s := accept i s) hbound hsize),
      runMicro_ret rfl (microSync_b_blocked (by exact hblocked))]
    rfl

/-- Settles O14: the last micro-step is the release of the line, with the held outcome as its answer. -/
theorem syncReleasesItsLineOnEveryOutcome : Obligations.SyncReleasesItsLineOnEveryOutcome := by
  intro i cs loc s hi hfg hq hrange hline
  obtain ⟨kind, hf⟩ := microOf_sync hi s.params
  have hlevel := levelOf_deassert hrange hline
  have hlog : (deassert cs.toNat s).1.busLog = s.busLog ++ [.csHigh cs.toNat] := by
    rw [deassert_busLog, if_neg (Nat.not_le_of_lt hrange)]
  exact ⟨_, exec_answers hfg hq hf (microSync_f kind cs loc s), (hlevel _).trans (if_pos rfl), hlog, rfl, rfl,
    fun j hj => (hlevel j).trans (if_neg hj)⟩

/-- Settles O15: at (d) a synchronous start raises the fault and goes to its release; an asynchronous one fails there. -/
theorem syncStartOnBusyBusIsAFault : Obligations.SyncStartOnBusyBusIsAFault := by
  refine ⟨?sync, fun cs loc s hq hp hrange => ⟨fun hfg => ?read, fun hfg => ?rw⟩⟩
  case sync =>
    intro i cs loc s hi hfg hq hp hrange
    obtain ⟨kind, hf⟩ := microOf_sync hi s.params
    let u : State := continueAt i .f { rc := .busy } s
    have hrun : exec i s = .next (respond .busy .nothing (deassert cs.toNat (raiseFault fStartWhileBusy u)).1) :=
      exec_goes_answers hfg hq hf (microSync_d_busy hp) (microSync_f kind cs _ _)
    have hdone := deassert_startWhileBusy (s := u) hp hrange
    refine ⟨_, hrun, hasFault_deassert_startWhileBusy cs.toNat u, ?_⟩
    rw [hdone]
    exact ⟨rfl, rfl, rfl, rfl, rfl⟩
  case read => exact exec_asyncStart_busy rfl hfg hq hp hrange
  case rw => exact exec_asyncStart_busy rfl hfg hq hp hrange

end Sys2Proof.Machine
end

section
/-! PROOF. The asynchronous engine (spec/43_async_engine.md R181 to R195): AsyncStart as FG runs it whole, the end of its
data phase, and the completion handler. -/

namespace Sys2Proof.Machine

/-! ### AsyncStart as a request (R181, R182, R183) -/

section
variable {i : Instr} {k : Kind} {cs : Byte} {loc : Locals} {s : State}

/-- A start that nothing stands in the way of and whose primitive starts. -/
theorem exec_asyncStart_starts (hf : microOf s.params i = some (microAsyncStart k cs)) (h : Ready 5 s)
    (hmay : MayTransfer cs s) (hdraw : (drawStart s).1 = true) :
    exec i s = .next (respond .ok .nothing (setStatus k { done := false, result := some 0x00 } { s with
      csLevel := s.csLevel.set cs.toNat false
      busLog := s.busLog ++ [.csLow cs.toNat]
      lastCs := some cs
      lastCsV := true
      periph := asyncPeriph k
      startIn := s.startIn.tail
      draws := s.draws + 1 })) := by
  obtain ⟨r, hrun⟩ := exec_ready h hf
  rw [hrun, runMicro_start (s := accept i s) r hmay rfl hdraw]
  cases k <;> rfl

/-- A start that nothing stands in the way of and whose primitive reports failure. -/
theorem exec_asyncStart_fails (hf : microOf s.params i = some (microAsyncStart k cs)) (h : Ready 4 s)
    (hmay : MayTransfer cs s) (hdraw : (drawStart s).1 = false) :
    exec i s = .next (respond .error .nothing (setResult k .error { s with
      busLog := s.busLog ++ [.csLow cs.toNat, .csHigh cs.toNat]
      lastCs := some cs
      lastCsV := true
      startIn := s.startIn.tail
      draws := s.draws + 1 })) := by
  obtain ⟨r, hrun⟩ := exec_ready h hf
  rw [hrun, runMicro_start_fails (s := accept i s) r hmay rfl hdraw]
  cases k <;> rfl

/-- A start with a failed precondition. -/
theorem exec_asyncStart_blocked (hf : microOf s.params i = some (microAsyncStart k cs)) (h : Ready 2 s)
    (hblocked : StartBlocked cs s) : exec i s = .next (respond .error .nothing (setResult k .error s)) := by
  obtain ⟨r, hrun⟩ := exec_ready h hf
  rw [hrun, runMicro_start_blocked (s := accept i s) r hblocked rfl]
  cases k <;> rfl

/-- The last micro-step of a start clears DONE and answers, whatever ran before it. -/
theorem exec_asyncStart_finishes (hf : microOf s.params i = some (microAsyncStart k cs)) (hq : 1 ≤ s.quota)
    (hfg : s.fg = .busy i .e loc) :
    exec i s = .next (respond .ok .nothing (setStatus k { done := false, result := some 0x00 } s)) :=
  exec_answers hfg hq hf rfl

end

/-- Settles O16: AsyncStart run whole, with each request's kind. -/
theorem asyncStartBeginsTransfer : Obligations.AsyncStartBeginsTransfer := by
  intro cs s hready hmay hdraw
  exact ⟨exec_asyncStart_starts (k := .rx) rfl hready hmay hdraw,
    exec_asyncStart_starts (k := .txrx) rfl hready hmay hdraw⟩

/-- Settles O17: AsyncStart up to the failed primitive, with each request's kind. -/
theorem asyncPrimitiveFailureReleasesLine : Obligations.AsyncPrimitiveFailureReleasesLine := by
  intro cs s hready hmay hdraw
  exact ⟨exec_asyncStart_fails (k := .rx) rfl hready hmay hdraw,
    exec_asyncStart_fails (k := .txrx) rfl hready hmay hdraw⟩

/-- Settles O18: the four failed preconditions are what blocks a start. -/
theorem asyncPreconditionFailureRecordsError : Obligations.AsyncPreconditionFailureRecordsError := by
  intro cs s hready hblocked
  exact ⟨exec_asyncStart_blocked (k := .rx) rfl hready hblocked,
    exec_asyncStart_blocked (k := .txrx) rfl hready hblocked⟩

/-- Settles O20: micro-step (e) reads nothing of what ran before it. -/
theorem lostCompletionLeavesDoneClear : Obligations.LostCompletionLeavesDoneClear := by
  intro cs loc s hq
  exact ⟨exec_asyncStart_finishes (k := .rx) rfl hq, exec_asyncStart_finishes (k := .txrx) rfl hq⟩

/-! ### The end of the data phase (R190) -/

/-- Where the data phase of a kind is under way. -/
theorem transferring_of_periph {k : Kind} {s : State} (hp : s.periph = asyncPeriph k) (hdone : s.xferDoneHw = false) :
    transferring s = some k := by
  rw [transferring, hdone, hp]
  cases k <;> rfl

/-- Where none is: its end has shown already, or the bus is in no asynchronous transfer. -/
theorem transferring_eq_none {s : State}
    (h : s.xferDoneHw = true ∨ (s.periph ≠ .asyncRx ∧ s.periph ≠ .asyncTxRx)) : transferring s = none := by
  cases hk : transferring s with
  | none => rfl
  | some k =>
    obtain ⟨hp, hdone⟩ := transferring_eq_some hk
    rcases h with h | ⟨hrx, htxrx⟩
    · rw [hdone] at h; cases h
    · cases k with
      | rx => exact absurd hp hrx
      | txrx => exact absurd hp htxrx

/-- The end of a transmit-receive data phase under a known LAST_CS. -/
theorem endDataPhase_txrx {s : State} {cs : Byte} (h : s.lastCs = some cs) (miso : List Byte) :
    endDataPhase .txrx miso s = { s with
      rx := Cells.writeFrom s.rx 0 miso
      xferDoneHw := true
      cplTxRx := true
      draws := s.draws + s.bufSize.toNat
      busLog := s.busLog ++ [.data .asyncTxRx cs.toNat ((readBytes s.tx s.bufSize.toNat s).1.map some) (miso.map some)
        .ok] } := by
  have hknown : ∀ t, known s.lastCs t = (cs, t) := fun t => by rw [h, known_some]
  simp only [endDataPhase, asyncMosi, readBytes_state, hknown]
  rfl

/-- EV.XFER_END where a data phase is under way ends it with SLAVE's bytes (R78). -/
theorem exec_evXferEnd {k : Kind} {s : State} (hp : s.periph = asyncPeriph k) (hdone : s.xferDoneHw = false) :
    exec .evXferEnd s = .next (endDataPhase k (slaveBytes s.bufSize.toNat s).1
      { s with slaveIn := s.slaveIn.drop s.bufSize.toNat, draws := s.draws + s.bufSize.toNat }) := by
  rw [exec, execEvXferEnd, xferEnd, transferring_of_periph hp hdone]
  rfl

/-- SLAVE's bytes written from cell 0 on fill the first BUF_SIZE cells. -/
theorem prefixHolds_slaveBytes (m : Memory) (n : Nat) (s : State) :
    PrefixHolds m (Cells.writeFrom m 0 (slaveBytes n s).1) n (slaveBytes n s).1 := by
  have h := prefixHolds_writeFrom m (slaveBytes n s).1
  rwa [slaveBytes_length] at h

/-- Settles O21: EV.XFER_END is the end of the data phase under way, with the bytes SLAVE answers. -/
theorem xferEndDeliversReceivedBytes : Obligations.XferEndDeliversReceivedBytes := by
  intro cs s hdone hlast
  let n := s.bufSize.toNat
  let t : State := { s with slaveIn := s.slaveIn.drop n, draws := s.draws + n }
  have hreceived : ∀ j v, j < n → s.slaveIn[j]? = some v → (slaveBytes n s).1[j]? = some v :=
    fun _ _ => slaveBytes_get
  refine ⟨fun hp => ?rx, fun hp => ?txrx⟩
  case rx =>
    refine ⟨(slaveBytes n s).1, _, t.draws, ?_, slaveBytes_length n s, hreceived, prefixHolds_slaveBytes s.rx n s⟩
    rw [exec_evXferEnd (k := .rx) hp hdone, endDataPhase_rx (s := t) hlast]
  case txrx =>
    refine ⟨(readBytes s.tx n t).1, (slaveBytes n s).1, _, t.draws + n, ?_, readBytes_sent s.tx n t,
      slaveBytes_length n s, hreceived, prefixHolds_slaveBytes s.rx n s⟩
    rw [exec_evXferEnd (k := .txrx) hp hdone, endDataPhase_txrx (s := t) hlast]

/-- Settles O22: no data phase is under way there. -/
theorem xferEndNotEnabledChangesNothing : Obligations.XferEndNotEnabledChangesNothing := by
  intro s h
  rw [exec, execEvXferEnd, xferEnd, transferring_eq_none h]

/-! ### The completion handler (R191) -/

/-- The release of a known last-used line, in range, on an idle bus. -/
theorem releaseLast_idle {s : State} {cs : Byte} (hlast : s.lastCs = some cs) (hrange : cs.toNat < s.params.nCs)
    (hp : s.periph = .idle) :
    releaseLast s = { s with csLevel := s.csLevel.set cs.toNat true, busLog := s.busLog ++ [.csHigh cs.toNat] } := by
  have hknown : known s.lastCs s = (cs, s) := by rw [hlast, known_some]
  rw [releaseLast, hknown, deassert_idle hrange hp]

/-- The completion handler under the register hook (R193). -/
theorem completionHandler_register {k : Kind} {s : State} {cs : Byte} (hlast : s.lastCs = some cs)
    (hrange : cs.toNat < s.params.nCs) (hhook : s.activeDriver = .register ∨ k = .txrx) :
    completionHandler k s = setStatus k { done := true, result := some 0x00 } { s with
      xferDoneHw := false
      periph := .idle
      csLevel := s.csLevel.set cs.toNat true
      busLog := s.busLog ++ [.csHigh cs.toNat] } := by
  rw [completionHandler, hook_register (by exact hhook), releaseLast_idle (by exact hlast) (by exact hrange) rfl]
  rfl

/-- The completion handler under the capture hook (R192): all the hook adds is what it writes of the record, the counter,
FAULTS and the count of free values. -/
theorem completionHandler_capture {s : State} {cs : Byte} (hlast : s.lastCs = some cs)
    (hrange : cs.toNat < s.params.nCs) (hdriver : s.activeDriver = .capture) :
    ∃ record capCounter faults draws, completionHandler .rx s = { s with
      xferDoneHw := false
      periph := .idle
      csLevel := s.csLevel.set cs.toNat true
      busLog := s.busLog ++ [.csHigh cs.toNat]
      statusRx := { done := true, result := some 0x00 }
      record := record
      capCounter := capCounter
      faults := faults
      draws := draws } := by
  obtain ⟨record, capCounter, faults, draws, hcapture⟩ :=
    captureHook_state { s with xferDoneHw := false, periph := .idle }
  refine ⟨record, capCounter, faults, draws, ?_⟩
  rw [completionHandler, hook_capture (by exact hdriver), hcapture,
    releaseLast_idle (by exact hlast) (by exact hrange) rfl]
  rfl

/-- Settles O23: under any order the pending completion is taken, and the driver says which hook its handler runs. -/
theorem completionReleasesLineAndPublishes : Obligations.CompletionReleasesLineAndPublishes := by
  intro cs s horder hlast hrange
  refine ⟨fun hpend hdriver => ?register, fun hpend hdriver => ?capture, fun hpend => ?txrx⟩
  case register =>
    rw [takeInterrupt_any (src := .cpl .rx) horder hpend]
    exact completionHandler_register (s := acknowledge (.cpl .rx) s) hlast hrange (.inl hdriver)
  case capture =>
    rw [takeInterrupt_any (src := .cpl .rx) horder hpend]
    exact completionHandler_capture (s := acknowledge (.cpl .rx) s) hlast hrange hdriver
  case txrx =>
    rw [takeInterrupt_any (src := .cpl .txrx) horder hpend]
    exact completionHandler_register (s := acknowledge (.cpl .txrx) s) hlast hrange (.inr rfl)

end Sys2Proof.Machine
end

section
/-! PROOF. Capture (spec/44_capture.md R210 to R224): the edge and its handler, the capture hook, the three capture
requests, and one capture cycle from the edge to the stored sample. -/

namespace Sys2Proof

/-- A sample frame's bytes are the three bytes it is made of, in wire order (R112). -/
theorem encode_sampleFrame (b0 b1 b2 : Byte) : encode (.sampleFrame (b0 ++ b1 ++ b2)) = [b0, b1, b2] := by
  have h0 : (b0 ++ b1 ++ b2).extractLsb' 16 8 = b0 := by
    rw [BitVec.extractLsb'_append_eq_of_le (by decide)]
    exact BitVec.extractLsb'_append_eq_left
  have h1 : (b0 ++ b1 ++ b2).extractLsb' 8 8 = b1 := by
    rw [BitVec.extractLsb'_append_eq_of_le (by decide)]
    exact BitVec.extractLsb'_append_eq_right
  have h2 : (b0 ++ b1 ++ b2).extractLsb' 0 8 = b2 := BitVec.extractLsb'_append_eq_right
  rw [encode, h0, h1, h2]

end Sys2Proof

namespace Sys2Proof.Machine

/-! ### The edge (R210) -/

/-- An edge while the edge interrupt is enabled pends. -/
theorem edgeEvent_enabled {s : State} (h : s.edgeEn = true) : edgeEvent s = { s with edgePend := true } := if_pos h

/-- An edge while it is disabled is discarded. -/
theorem edgeEvent_disabled {s : State} (h : s.edgeEn = false) : edgeEvent s = s := if_neg (by simp [h])

/-- Settles O24: the two cases of the event. -/
theorem edgePendsOnlyWhileEnabled : Obligations.EdgePendsOnlyWhileEnabled := by
  intro s
  exact ⟨fun h => congrArg Host.Outcome.next (edgeEvent_enabled h),
    fun h => congrArg Host.Outcome.next (edgeEvent_disabled h)⟩

/-! ### The edge handler (R211, R212) -/

/-- Settles O25: steps 2 and 5 of the handler, with the pending bit cleared before it. -/
theorem edgeHandlerIgnoresOrDisables : Obligations.EdgeHandlerIgnoresOrDisables := by
  intro s horder hpend
  rw [takeInterrupt_any (src := .edge) horder hpend]
  constructor
  · intro hp
    exact edgeHandler_busy (s := acknowledge .edge s) hp
  · intro hp hc hfull
    have hstop : ¬ (s.capCounter = 0 ∨ s.capCounter < s.capTarget) :=
      not_or.2 ⟨hc, BitVec.not_lt.2 hfull⟩
    exact edgeHandler_disables (s := acknowledge .edge s) hp hstop

/-- On an idle bus with c = 0 or c < t taking the edge is AsyncStart(RX, CAP_CS) in one step. -/
theorem takeInterrupt_edge_starts {s : State} {cs : Byte} (horder : s.params.irqOrder = .any) (hpend : s.edgePend = true)
    (hp : s.periph = .idle) (hcs : s.capCs = some cs) (hc : s.capCounter = 0 ∨ s.capCounter < s.capTarget) :
    takeInterrupt .edge s = (asyncStart .rx cs (acknowledge .edge s)).1 := by
  let u : State := acknowledge .edge s
  have hknown : known u.capCs u = (cs, u) := (congrArg (known · u) hcs).trans (known_some cs u)
  calc takeInterrupt .edge s = edgeHandler u := takeInterrupt_any (src := .edge) horder hpend
    _ = (asyncStart .rx (known u.capCs u).1 (known u.capCs u).2).1 := edgeHandler_starts hp hc
    _ = (asyncStart .rx cs u).1 := by rw [hknown]

/-- Settles O26: the three outcomes of the start, by the primitive's answer and by the failed precondition. -/
theorem edgeHandlerStartsAReceive : Obligations.EdgeHandlerStartsAReceive := by
  intro cs s horder hpend hp hcs hc
  let u : State := acknowledge .edge s
  rw [takeInterrupt_edge_starts horder hpend hp hcs hc]
  refine ⟨fun hmay hdraw => ?starts, fun hmay hdraw => ?fails, fun hblocked => ?blocked⟩
  case starts => exact congrArg Prod.fst (asyncStart_starts (k := .rx) (s := u) hmay hdraw)
  case fails => exact congrArg Prod.fst (asyncStart_fails (k := .rx) (s := u) hmay hdraw)
  case blocked => exact congrArg Prod.fst (asyncStart_blocked (k := .rx) (s := u) hblocked)

/-! ### The capture hook (R216, R217) -/

/-- The state the capture hook finds: the completion taken and the bus idle (R191). -/
def hookEntry (s : State) : State := { s with cplRx := false, xferDoneHw := false, periph := .idle }

/-- The release of a line on an idle bus raises no fault. -/
theorem releaseLast_faults {s : State} (hp : s.periph = .idle) : (releaseLast s).faults = s.faults := by
  simp [releaseLast, hp]

/-- Taking the receive completion under the capture driver: the hook, the release of the line, the status. -/
theorem takeInterrupt_capture {s : State} (horder : s.params.irqOrder = .any) (hpend : s.cplRx = true)
    (hdriver : s.activeDriver = .capture) : takeInterrupt (.cpl .rx) s =
      setStatus .rx { done := true, result := some 0x00 } (releaseLast (captureHook (hookEntry s))) := by
  rw [← hook_capture (s := hookEntry s) hdriver]
  exact takeInterrupt_any (src := .cpl .rx) horder hpend

/-- The record, the counter and FAULTS are then what the hook leaves: the release and the status touch none of them. -/
theorem takeInterrupt_capture_fields {s : State} (horder : s.params.irqOrder = .any) (hpend : s.cplRx = true)
    (hdriver : s.activeDriver = .capture) :
    (takeInterrupt (.cpl .rx) s).record = (captureHook (hookEntry s)).record ∧
      (takeInterrupt (.cpl .rx) s).capCounter = (captureHook (hookEntry s)).capCounter ∧
      (takeInterrupt (.cpl .rx) s).faults = (captureHook (hookEntry s)).faults := by
  have hidle : (captureHook (hookEntry s)).periph = .idle := by
    obtain ⟨record, capCounter, faults, draws, hstate⟩ := captureHook_state (hookEntry s)
    rw [hstate]
    rfl
  rw [takeInterrupt_capture horder hpend hdriver]
  exact ⟨by simp [releaseLast], by simp [releaseLast], (setStatus_faults ..).trans (releaseLast_faults hidle)⟩

/-- A size is SAMPLE_BYTES exactly where it is 3. -/
theorem toNat_eq_sampleBytes {n : U32} : n.toNat = Config.sampleBytes ↔ n = 3 :=
  ⟨fun h => BitVec.eq_of_toNat_eq h, fun h => h ▸ rfl⟩

/-- On a 3-byte transfer with c < t the hook records the sample of the three received bytes. -/
theorem captureHook_records {s : State} {b0 b1 b2 : Byte} (hsize : s.bufSize = 3) (hc : s.capCounter < s.capTarget)
    (h0 : Cells.read s.rx 0 = some b0) (h1 : Cells.read s.rx 1 = some b1) (h2 : Cells.read s.rx 2 = some b2) :
    captureHook s = recordSample (BitVec.ofNat 32 (b0.toNat * 2 ^ 16 + b1.toNat * 2 ^ 8 + b2.toNat))
      { s with draws := s.draws + 3 } := by
  rw [captureHook_stores (toNat_eq_sampleBytes.2 hsize) hc, receivedSample_of_read h0 h1 h2, slotOfSample_eq]

/-- Settles O27: the hook writes slot c and the counter, and nothing after it touches them. -/
theorem captureHookStoresOneSample : Obligations.CaptureHookStoresOneSample := by
  intro b0 b1 b2 s horder hpend hdriver hsize hc h0 h1 h2
  obtain ⟨hrecord, hcounter, hfaults⟩ := takeInterrupt_capture_fields horder hpend hdriver
  rw [hrecord, hcounter, hfaults, captureHook_records (s := hookEntry s) hsize hc h0 h1 h2]
  exact ⟨rfl, rfl, fun i => Cells.read_write _ _ _ _⟩

/-- Settles O28: the hook's two guards, the size before the target. -/
theorem captureHookGuards : Obligations.CaptureHookGuards := by
  intro s horder hpend hdriver
  obtain ⟨hrecord, hcounter, hfaults⟩ := takeInterrupt_capture_fields horder hpend hdriver
  rw [hrecord, hcounter, hfaults]
  constructor
  · intro hsize
    rw [captureHook_size (s := hookEntry s) (mt toNat_eq_sampleBytes.1 hsize)]
    exact ⟨rfl, rfl, rfl⟩
  · intro hsize hfull
    rw [captureHook_full (s := hookEntry s) (toNat_eq_sampleBytes.2 hsize) hfull]
    exact ⟨rfl, rfl, rfl⟩

/-! ### CAP.START (R220) -/

section
variable {cs : Byte} {n : U32} {loc : Locals} {s : State}

/-- Micro-step (a) rejects a target above RECORD_CAP. -/
theorem microCapStart_a_ret (h : s.params.recordCap < n.toNat) :
    microCapStart cs n .a loc s = .ret s .capacityExceeded .nothing := if_pos h

/-- Micro-step (a) goes on with a target in range. -/
theorem microCapStart_a_go (h : n.toNat ≤ s.params.recordCap) : microCapStart cs n .a loc s = .go s .b loc :=
  if_neg (Nat.not_lt.2 h)

/-- What the embedded SetSize leaves, with nothing between its check (d) and its write (e). -/
def capSized (s : State) : State :=
  if sizeCheck Config.sampleBytes s = .ok then sizedWith 3 [0, 0, 0] s else s

/-- What CAP.START sets beside the buffer: target, counter, record, line and edge enable. -/
def capArmed (cs : Byte) (n : U32) (s : State) : State :=
  { s with capTarget := n, capCounter := 0, record := [], capCs := some cs, edgeEn := true }

/-- Micro-step (e) with nothing between it and the check: the size is written where the check was good. -/
theorem microCapStart_e (h : loc.sized = decide (sizeCheck Config.sampleBytes s = .ok)) :
    microCapStart cs n .e loc s = .go (capSized s) .f loc := by
  have he : microCapStart cs n .e loc s =
      .go (if loc.sized then sizeWrite sampleSize (zeroBytes sampleSize) s else s) .f loc := rfl
  by_cases hcheck : sizeCheck Config.sampleBytes s = .ok
  · have hwrite : sizeWrite sampleSize (zeroBytes sampleSize) s = sizedWith 3 [0, 0, 0] s :=
      sizeWrite_idle (sizeCheck_eq_ok.1 hcheck).1
    rw [he, h, capSized, if_pos (decide_eq_true hcheck), if_pos hcheck, hwrite]
  · rw [he, h, capSized, if_neg (by simpa using hcheck), if_neg hcheck]

/-- CAP.START run whole. -/
theorem exec_capStart (h : Ready 7 s) (hn : n.toNat ≤ s.params.recordCap) :
    exec (.capStart cs n) s = .next (respond .ok .nothing (capArmed cs n (capSized s))) := by
  let i : Instr := .capStart cs n
  let u : State := { clearRecord (setTarget n (accept i s)) with
    fg := .busy i .e { sized := decide (sizeCheck Config.sampleBytes s = .ok) } }
  have hsized : capSized u = { capSized s with
      capTarget := n, capCounter := 0, record := [], fg := u.fg, response := none } := by
    show (if sizeCheck Config.sampleBytes s = .ok then sizedWith 3 [0, 0, 0] u else u) = _
    rw [capSized]
    split <;> rfl
  obtain ⟨r, hrun⟩ := exec_ready h (i := i) rfl
  rw [hrun]
  refine congrArg Host.Outcome.next ?_
  -- Micro-steps (b), (c) and (d) go on whatever they find, so they compute.
  calc runMicro i (microCapStart cs n) (r + 7) (accept i s)
    _ = runMicro i (microCapStart cs n) (r + 6) _ := runMicro_go rfl (microCapStart_a_go hn)
    _ = runMicro i (microCapStart cs n) (r + 3) u := rfl
    _ = runMicro i (microCapStart cs n) (r + 2) _ := runMicro_go rfl (microCapStart_e rfl)
    _ = runMicro i (microCapStart cs n) (r + 1) _ := runMicro_go rfl rfl
    _ = respond .ok .nothing (enableEdge _) := runMicro_ret rfl rfl
    _ = respond .ok .nothing (capArmed cs n (capSized s)) := by rw [hsized]; rfl

end

/-- Settles O29: on an idle bus the embedded SetSize is done. -/
theorem capStartArmsACapture : Obligations.CapStartArmsACapture := by
  intro cs n s hready hn hp hcap
  have hsized : capSized s = sizedWith 3 [0, 0, 0] s := if_pos (sizeCheck_eq_ok.2 ⟨hp, hcap⟩)
  refine ⟨_, _, ?_, sizedWith_prefixes (n := 3) (bs := [0, 0, 0]) rfl s⟩
  rw [exec_capStart hready hn, hsized]
  rfl

/-- Settles O30: the target's range is checked first, and BUSY of the embedded SetSize only leaves the buffer alone. -/
theorem capStartRejectsOrIgnoresBusy : Obligations.CapStartRejectsOrIgnoresBusy := by
  intro cs n s
  refine ⟨fun hready hn => ?reject, fun hready hn hp => ?busy⟩
  case reject =>
    obtain ⟨r, hrun⟩ := exec_ready hready (i := .capStart cs n) rfl
    rw [hrun, runMicro_first (microCapStart_a_ret (s := accept (.capStart cs n) s) hn)]
    rfl
  case busy =>
    have hsized : capSized s = s := if_neg (by simp [sizeCheck_busy hp])
    rw [exec_capStart hready hn, hsized]
    rfl

/-! ### CAP.COUNT and CAP.SLOT (R221, R222) -/

section
variable {i : U32} {loc : Locals} {m : Micro} {s : State}

/-- CAP.SLOT at or above RECORD_CAP. -/
theorem microCapSlot_above (h : s.params.recordCap ≤ i.toNat) :
    microCapSlot i m loc s = .ret s .invalidIndex .nothing := if_pos h

/-- CAP.SLOT of a slot answers its value, or a free one where it is not written. -/
theorem microCapSlot_below (h : i.toNat < s.params.recordCap) :
    ∃ v d, microCapSlot i m loc s = .ret { s with draws := d } .ok (.word v) ∧
      ∀ w, Cells.read s.record i.toNat = some w → v = w := by
  have hslot : microCapSlot i m loc s = _ := if_neg (Nat.not_le.2 h)
  rw [hslot]
  cases hread : Cells.read s.record i.toNat with
  | some v => exact ⟨v, s.draws, rfl, fun w hw => Option.some.inj hw⟩
  | none => exact ⟨_, _, rfl, fun w hw => by cases hw⟩

end

/-- Settles O31: each read is one micro-step. -/
theorem captureReadsAnswerTheRecord : Obligations.CaptureReadsAnswerTheRecord := by
  intro i s hready
  let u : State := accept (.capSlot i) s
  obtain ⟨rCount, hcount⟩ := exec_ready hready (i := .capCount) rfl
  obtain ⟨rSlot, hslot⟩ := exec_ready hready (i := .capSlot i) rfl
  refine ⟨?count, fun habove => ?above, fun hbelow => ?below⟩
  case count =>
    rw [hcount, runMicro_first rfl]
    rfl
  case above =>
    rw [hslot, runMicro_first (microCapSlot_above (s := u) habove)]
    rfl
  case below =>
    obtain ⟨v, d, hret, hv⟩ := microCapSlot_below (m := .a) (loc := {}) (s := u) hbelow
    refine ⟨v, d, ?_, hv⟩
    rw [hslot, runMicro_first hret]
    rfl

/-! ### One capture cycle (R224) -/

section
variable {cs b0 b1 b2 : Byte} {rest : List Turn} {s : State}

/-- EDGE's turn while the edge interrupt is enabled. -/
theorem step_edge_pends (hturns : s.turns = .edge :: rest) (hen : s.edgeEn = true) :
    step s = .next { s with turns := rest, edgePend := true } := by
  rw [step_of_turn hturns]
  exact congrArg Host.Outcome.next (edgeEvent_enabled (by exact hen))

/-- A receive on line `cs` started by the edge handler (R212). -/
def receiveStarted (cs : Byte) (s : State) : State :=
  { s with
    edgePend := false
    csLevel := s.csLevel.set cs.toNat false
    busLog := s.busLog ++ [.csLow cs.toNat]
    lastCs := some cs
    lastCsV := true
    periph := .asyncRx
    statusRx := { done := false, result := some 0x00 }
    startIn := s.startIn.tail
    draws := s.draws + 1 }

/-- IRQ's turn with the edge pending, below the target, where nothing stands in the way of a receive. -/
theorem step_edge_taken (hturns : s.turns = .irq .edge :: rest) (horder : s.params.irqOrder = .any)
    (hpend : s.edgePend = true) (hcs : s.capCs = some cs) (hc : s.capCounter < s.capTarget) (hmay : MayTransfer cs s)
    (hdraw : (drawStart s).1 = true) : step s = .next { receiveStarted cs s with turns := rest } := by
  have ⟨_, _, _, _, hp⟩ := hmay
  obtain ⟨hstarts, -, -⟩ := edgeHandlerStartsAReceive cs { s with turns := rest } horder hpend hp hcs (.inr hc)
  rw [step_of_turn hturns]
  exact congrArg Host.Outcome.next (hstarts hmay hdraw)

/-- PERIPH's turn with a sample frame, a 3-byte receive on line `cs` under way (R190): the frame's bytes are in RX. -/
theorem step_sample_received (hturns : s.turns = .periph (some (b0 ++ b1 ++ b2)) :: rest) (hp : s.periph = .asyncRx)
    (hdone : s.xferDoneHw = false) (hsize : s.bufSize = 3) (hlast : s.lastCs = some cs) :
    ∃ rx, step s = .next { s with
        turns := rest, rx := rx, xferDoneHw := true, cplRx := true,
        busLog := s.busLog ++
          [.data .asyncRx cs.toNat [none, none, none] [some b0, some b1, some b2] .ok] } ∧
      Cells.read rx 0 = some b0 ∧ Cells.read rx 1 = some b1 ∧ Cells.read rx 2 = some b2 := by
  obtain ⟨hends, -⟩ := sampleFrameEndsTheReceive (b0 ++ b1 ++ b2) cs { s with turns := rest }
  obtain ⟨rx, hexec, hrx⟩ := hends hp hdone hsize hlast
  rw [encode_sampleFrame] at hexec hrx
  exact ⟨rx, (step_of_turn hturns).trans hexec, hrx 0, hrx 1, hrx 2⟩

/-- IRQ's turn with the completion of a 3-byte receive on line `cs` pending, below the target: the sample is recorded and
the line released (R191, R216). -/
theorem step_completion_records (hturns : s.turns = .irq (.cpl .rx) :: rest) (horder : s.params.irqOrder = .any)
    (hpend : s.cplRx = true) (hdriver : s.activeDriver = .capture) (hlast : s.lastCs = some cs)
    (hrange : cs.toNat < s.params.nCs) (hsize : s.bufSize = 3) (hc : s.capCounter < s.capTarget)
    (h0 : Cells.read s.rx 0 = some b0) (h1 : Cells.read s.rx 1 = some b1) (h2 : Cells.read s.rx 2 = some b2) :
    step s = .next { s with
      turns := rest, cplRx := false, xferDoneHw := false, periph := .idle,
      record := Cells.write s.record s.capCounter.toNat
        (BitVec.ofNat 32 (b0.toNat * 2 ^ 16 + b1.toNat * 2 ^ 8 + b2.toNat)),
      capCounter := s.capCounter + 1, draws := s.draws + 3,
      csLevel := s.csLevel.set cs.toNat true, busLog := s.busLog ++ [.csHigh cs.toNat],
      statusRx := { done := true, result := some 0x00 } } := by
  let u : State := { s with turns := rest }
  rw [step_of_turn hturns]
  refine congrArg Host.Outcome.next ?_
  rw [takeInterrupt_capture (s := u) horder hpend hdriver, captureHook_records (s := hookEntry u) hsize hc h0 h1 h2,
    releaseLast_idle (by exact hlast) (by exact hrange) rfl]
  rfl

end

/-- Settles O33: the edge pends, its handler starts the receive, the frame ends it, and the completion handler records the
sample and releases the line. -/
theorem captureCycleRecordsOneSample : Obligations.CaptureCycleRecordsOneSample := by
  intro cs b0 b1 b2 s rest horder hen hdone hcs hmay hdraw hsize hdriver hc hturns
  have ⟨_, _, hrange, hlow, _⟩ := hmay
  have hedge := step_edge_pends hturns hen
  have hstart := step_edge_taken (s := { s with turns := _, edgePend := true })
    (rest := .periph (some (b0 ++ b1 ++ b2)) :: .irq (.cpl .rx) :: rest) rfl horder rfl hcs hc hmay hdraw
  obtain ⟨rx, hsample, h0, h1, h2⟩ := step_sample_received (rest := .irq (.cpl .rx) :: rest)
    (s := { receiveStarted cs { s with turns := _, edgePend := true } with turns := _ }) rfl rfl hdone hsize rfl
  have hrun := (run_of_step hedge).trans <| (run_of_step hstart).trans <| (run_of_step hsample).trans <|
    run_of_step (k := 0) <| step_completion_records rfl horder rfl hdriver rfl hrange hsize hc h0 h1 h2
  refine ⟨_, hrun, rfl, ?slot, rfl, ?lines, rfl, rfl, ?log⟩
  case slot => exact (Cells.read_write _ _ _ _).trans (if_pos rfl)
  case lines => exact (List.set_set ..).trans (set_true_of_all (lowCount_eq_zero.1 hlow) _)
  case log => simp [receiveStarted]

end Sys2Proof.Machine
end

section
/-! PROOF. The host protocol (spec/45_host_protocol.md R243, R246, R247): the program of a WREG line, the binary strings,
and the wait for the capture count. -/

namespace Sys2Proof.Machine

/-! ### WREG (R243, R244) -/

/-- A value below 2^32 is well formed under either range of R244. -/
theorem wregValue_of_lt {p : Params} {t : Text} {v : Nat} (h : parseNum p t = some v) (hv : v < 2 ^ 32) :
    wregValue p t = some (BitVec.ofNat 64 v) := by
  have hrange : ¬ (p.wregRange = .u32 ∧ 2 ^ 32 ≤ v) := fun hlarge => Nat.not_le.2 hv hlarge.2
  simp only [wregValue, h, if_neg hrange]

/-- Three well-formed values are written, whatever tokens follow (R240). -/
theorem wregArgs_of_values {p : Params} {t0 t1 t2 : Text} {v0 v1 v2 : U64} (h0 : wregValue p t0 = some v0)
    (h1 : wregValue p t1 = some v1) (h2 : wregValue p t2 = some v2) (more : List Text) :
    wregArgs p (t0 :: t1 :: t2 :: more) = wregOps p v0 v1 v2 := by
  simp only [wregArgs, h0, h1, h2]

/-- Settles O57: each value is well formed, and the program of WREG is the three register writes and the answer. -/
theorem wregSendsThreeFramesInOrder : Obligations.WregSendsThreeFramesInOrder := by
  intro p t0 t1 t2 v0 v1 v2 more h0 h1 h2 hv0 hv1 hv2
  exact wregArgs_of_values (wregValue_of_lt h0 hv0) (wregValue_of_lt h1 hv1) (wregValue_of_lt h2 hv2) more

/-! ### Binary strings (R246) -/

/-- Settles O58: one character for each position, the `j`-th from bit `w - 1 - j`. -/
theorem binaryStringIsFixedWidth : Obligations.BinaryStringIsFixedWidth := by
  intro w v
  refine ⟨?length, fun j hj => ?character⟩
  case length => rw [binText, List.length_map, List.length_range]
  case character => rw [binText, List.getElem?_map, List.getElem?_range hj, Option.map_some]

/-! ### WAIT.CAP (R247, R99) -/

/-- After the answer `(OK, v)` the count is the one wanted exactly where `v` is. -/
theorem countIs_of_response {n : Nat} {v : U32} {s : State} (h : s.response = some { rc := .ok, data := .word v }) :
    countIs n s = decide (v.toNat = n) := by
  simp only [countIs, h]

/-- The look at the count goes on where it is the one wanted. -/
theorem hostLocal_checkCount_eq {n : Nat} {s : State} (h : countIs n s = true) : hostLocal (.checkCount n) s = s :=
  if_pos h

/-- The look at the count puts CAP.COUNT and itself before the program's rest where it is another. -/
theorem hostLocal_checkCount_ne {n : Nat} {s : State} (h : countIs n s = false) :
    hostLocal (.checkCount n) s = { s with hostProg := .issue .capCount :: .checkCount n :: s.hostProg } :=
  if_neg (Bool.eq_false_iff.1 h)

/-- Settles O59: an idle FG looks at the count of the response, and the two outcomes of the look are the clauses. -/
theorem captureWaitAsksAgain : Obligations.CaptureWaitAsksAgain := by
  intro n k v ops rest s hturn hfg hprog hresp
  let u : State := { s with turns := rest, quota := k, hostProg := ops }
  have hlook : step s = .next (hostLocal (.checkCount n) u) :=
    (step_of_turn hturn).trans (fgTurn_prog (s := { s with turns := rest, quota := k }) hfg hprog)
  have hcount : countIs n u = decide (v.toNat = n) := countIs_of_response (s := u) hresp
  refine ⟨fun heq => ?found, fun hne => ?again⟩
  case found => rw [hlook, hostLocal_checkCount_eq (hcount.trans (decide_eq_true heq))]
  case again => rw [hlook, hostLocal_checkCount_ne (hcount.trans (decide_eq_false hne))]

end Sys2Proof.Machine
end

section
/-! PROOF. Interrupts (spec/60_exceptions.md R271 to R280): what taking one keeps of the foreground and of the buffer, the
pending bit it clears, and the record that a pending edge and a pending receive completion leave in either order. -/

namespace Sys2Proof.Machine

/-! ### What an interrupt keeps (R275, R280) -/

/-- What no interrupt writes: FG's request with its response, HOST's program and port, the transfer buffer, and what
CAP.START has set. -/
def State.foreground (s : State) : FgPhase × Option Response × List HostOp × List Byte × U32 × Memory × Memory × U32 ×
    Option Byte :=
  (s.fg, s.response, s.hostProg, s.port, s.bufSize, s.tx, s.rx, s.capTarget, s.capCs)

theorem acknowledge_foreground (src : IrqSource) (s : State) : (acknowledge src s).foreground = s.foreground := by
  simp [State.foreground]

/-- A start by IRQ on an idle bus, whichever way it ends (R212), keeps the foreground and the pending edge. -/
theorem asyncStart_keeps {k : Kind} {cs : Byte} {s : State} (hp : s.periph = .idle) :
    (asyncStart k cs s).1.foreground = s.foreground ∧ (asyncStart k cs s).1.edgePend = s.edgePend := by
  by_cases hb : StartBlocked cs s
  · rw [asyncStart_blocked hb]
    cases k <;> exact ⟨rfl, rfl⟩
  · have hmay := mayTransfer_of_not_blocked hb hp
    cases hd : (drawStart s).1 with
    | true =>
      rw [asyncStart_starts hmay hd]
      cases k <;> exact ⟨rfl, rfl⟩
    | false =>
      rw [asyncStart_fails hmay hd]
      cases k <;> exact ⟨rfl, rfl⟩

/-- The edge handler keeps the foreground, and makes no edge pending (R211). -/
theorem edgeHandler_keeps (s : State) :
    (edgeHandler s).foreground = s.foreground ∧ (s.edgePend = false → (edgeHandler s).edgePend = false) := by
  by_cases hp : s.periph = .idle
  · by_cases hc : s.capCounter = 0 ∨ s.capCounter < s.capTarget
    · rw [edgeHandler_starts hp hc]
      obtain ⟨hfg, hpend⟩ := asyncStart_keeps (k := .rx) (cs := (known s.capCs s).1) (s := (known s.capCs s).2)
        (by simpa using hp)
      exact ⟨hfg.trans (by simp [State.foreground]), fun h => hpend.trans (by simpa using h)⟩
    · rw [edgeHandler_disables hp hc]
      exact ⟨rfl, fun _ => rfl⟩
  · rw [edgeHandler_busy hp]
    exact ⟨rfl, id⟩

/-- A completion handler keeps the foreground (R191). -/
theorem completionHandler_foreground (k : Kind) (s : State) : (completionHandler k s).foreground = s.foreground := by
  obtain ⟨record, capCounter, faults, draws, e⟩ := hook_state k { s with xferDoneHw := false, periph := .idle }
  simp [State.foreground, completionHandler, releaseLast, e]

/-- So does taking an interrupt, or a turn that may not take it. -/
theorem takeInterrupt_foreground (src : IrqSource) (s : State) : (takeInterrupt src s).foreground = s.foreground := by
  unfold takeInterrupt
  split
  · refine Eq.trans ?_ (acknowledge_foreground src s)
    cases src with
    | edge => exact (edgeHandler_keeps _).1
    | cpl k => exact completionHandler_foreground k _
  · rfl

/-- Settles O35: each handler keeps the foreground. -/
theorem interruptKeepsForeground : Obligations.InterruptKeepsForeground := by
  intro src s
  simpa only [State.foreground, Prod.mk.injEq] using takeInterrupt_foreground src s

/-! ### The pending bit (R271, R272) -/

/-- Entry clears the pending bit of the source. -/
theorem pending_acknowledge (src : IrqSource) (s : State) : pending src (acknowledge src s) = false := by
  rcases src with _ | _ | _ <;> rfl

/-- No completion handler touches a completion's pending bit (R191). -/
theorem pending_completionHandler (k : Kind) (s : State) : pending (.cpl k) (completionHandler k s) = pending (.cpl k) s := by
  obtain ⟨⟨-, -, hrx, htxrx, -, -⟩, -⟩ := completionHandler_same k s
  cases k with
  | rx => exact hrx
  | txrx => exact htxrx

/-- The handler of a source does not make it pending again. -/
theorem pending_handler {src : IrqSource} {s : State} (h : pending src s = false) : pending src (handler src s) = false := by
  cases src with
  | edge => exact (edgeHandler_keeps s).2 h
  | cpl k => exact (pending_completionHandler k s).trans h

/-- Settles O36: entry clears the bit and the handler leaves it clear; else the turn does nothing. -/
theorem takingClearsThePendingBit : Obligations.TakingClearsThePendingBit := by
  intro src s
  refine ⟨fun hmay => ?taken, fun hmay => ?heldBack⟩
  case taken =>
    rw [takeInterrupt, if_pos hmay]
    exact pending_handler (pending_acknowledge src s)
  case heldBack => exact if_neg (Bool.eq_false_iff.1 hmay)

/-! ### An edge and a receive completion in either order (R273) -/

/-- The edge handler keeps the record and the counter (R211). -/
theorem edgeHandler_record (s : State) :
    (edgeHandler s).record = s.record ∧ (edgeHandler s).capCounter = s.capCounter := by
  by_cases hp : s.periph = .idle
  · by_cases hc : s.capCounter = 0 ∨ s.capCounter < s.capTarget
    · rw [edgeHandler_starts hp hc]
      simpa using asyncStart_record .rx (known s.capCs s).1 (known s.capCs s).2
    · rw [edgeHandler_disables hp hc]
      exact ⟨rfl, rfl⟩
  · rw [edgeHandler_busy hp]
    exact ⟨rfl, rfl⟩

theorem takeInterrupt_edge_record (s : State) :
    (takeInterrupt .edge s).record = s.record ∧ (takeInterrupt .edge s).capCounter = s.capCounter := by
  unfold takeInterrupt
  split
  · exact edgeHandler_record (acknowledge .edge s)
  · exact ⟨rfl, rfl⟩

/-- Taking an edge while the bus is busy only clears its pending bit. -/
theorem takeInterrupt_edge_busy {s : State} (horder : s.params.irqOrder = .any) (hpend : s.edgePend = true)
    (hp : s.periph ≠ .idle) : takeInterrupt .edge s = acknowledge .edge s :=
  (takeInterrupt_any (src := .edge) horder hpend).trans (edgeHandler_busy (s := acknowledge .edge s) hp)

/-- The capture hook does not look at the pending edge (R216). -/
theorem captureHook_acknowledge_edge (s : State) :
    captureHook (acknowledge .edge s) = acknowledge .edge (captureHook s) := by
  by_cases hsize : s.bufSize.toNat = Config.sampleBytes
  · by_cases hc : s.capCounter < s.capTarget
    · rw [captureHook_stores hsize hc, captureHook_stores (s := acknowledge .edge s) hsize hc]
      rfl
    · have hfull : s.capTarget ≤ s.capCounter := BitVec.not_lt.1 hc
      rw [captureHook_full hsize hfull, captureHook_full (s := acknowledge .edge s) hsize hfull]
  · rw [captureHook_size hsize, captureHook_size (s := acknowledge .edge s) hsize]
    rfl

/-- Nor does any hook (R192). -/
theorem hook_acknowledge_edge (k : Kind) (s : State) : hook k (acknowledge .edge s) = acknowledge .edge (hook k s) := by
  by_cases h : s.activeDriver = .capture ∧ k = .rx
  · exact (if_pos h).trans ((captureHook_acknowledge_edge s).trans (congrArg (acknowledge .edge) (if_pos h).symm))
  · exact (if_neg h).trans (congrArg (acknowledge .edge) (if_neg h).symm)

/-- The record and the counter are what the hook leaves: the release and the status touch neither (R191). -/
theorem completionHandler_record (k : Kind) (s : State) :
    (completionHandler k s).record = (hook k { s with xferDoneHw := false, periph := .idle }).record ∧
      (completionHandler k s).capCounter = (hook k { s with xferDoneHw := false, periph := .idle }).capCounter := by
  simp [completionHandler, releaseLast]

/-- So the pending edge decides neither. -/
theorem completionHandler_acknowledge_edge_record (k : Kind) (s : State) :
    (completionHandler k (acknowledge .edge s)).record = (completionHandler k s).record ∧
      (completionHandler k (acknowledge .edge s)).capCounter = (completionHandler k s).capCounter := by
  let u : State := { s with xferDoneHw := false, periph := .idle }
  have hhook : hook k { acknowledge .edge s with xferDoneHw := false, periph := .idle } = acknowledge .edge (hook k u) :=
    hook_acknowledge_edge k u
  obtain ⟨hrecord, hcounter⟩ := completionHandler_record k (acknowledge .edge s)
  obtain ⟨hrecord', hcounter'⟩ := completionHandler_record k s
  rw [hrecord, hcounter, hrecord', hcounter', hhook]
  exact ⟨rfl, rfl⟩

/-- Settles O34: the edge taken first only clears its bit, for the bus is busy; taken second it may start a receive, which
writes neither the record nor the counter. -/
theorem interruptOrderGivesTheSameRecord : Obligations.InterruptOrderGivesTheSameRecord := by
  intro s horder hedge hcpl hp
  have edgeFirst : takeInterrupt (.cpl .rx) (takeInterrupt .edge s) =
      completionHandler .rx (acknowledge .edge (acknowledge (.cpl .rx) s)) := by
    rw [takeInterrupt_edge_busy horder hedge hp]
    exact takeInterrupt_any (src := .cpl .rx) (s := acknowledge .edge s) horder hcpl
  have cplFirst : takeInterrupt (.cpl .rx) s = completionHandler .rx (acknowledge (.cpl .rx) s) :=
    takeInterrupt_any (src := .cpl .rx) horder hcpl
  obtain ⟨hrecord, hcounter⟩ := takeInterrupt_edge_record (takeInterrupt (.cpl .rx) s)
  rw [hrecord, hcounter, edgeFirst, cplFirst]
  exact completionHandler_acknowledge_edge_record .rx _

end Sys2Proof.Machine
end

section
/-! PROOF. No state of the block stops the machine (spec/60_exceptions.md R261, R262): an instruction stops nothing where
FG is idle or goes on with it, and FG runs no other. -/

namespace Sys2Proof.Machine

/-- What FG does not run, an event or a sample frame, always answers a next state. -/
theorem exec_event_next {i : Instr} {s : State} (h : microOf s.params i = none) : ∃ t, exec i s = .next t := by
  cases i
  case evEdge | evXferEnd | evReset | sampleFrame => exact ⟨_, rfl⟩
  all_goals cases h

/-- So does a request that is taken, or gone on with (log 21). -/
theorem exec_next {i : Instr} {s : State} (h : s.fg = .idle ∨ ∃ m loc, s.fg = .busy i m loc) :
    ∃ t, exec i s = .next t := by
  cases hf : microOf s.params i with
  | none => exact exec_event_next hf
  | some f =>
    rw [exec_request hf]
    rcases h with hfg | ⟨m, loc, hfg⟩
    · exact ⟨_, runRequest_idle hfg⟩
    · exact ⟨_, runRequest_busy hfg⟩

/-- The next frame HOST is to send, if any, is exactly one of R110 or R111 (log 20). -/
def NextFrameWhole (s : State) : Prop :=
  ∀ bs rest, s.hostIn = .frame bs :: rest → ∃ i, decode .frame40 bs = .ok (i, [])

theorem hostTake_next {s : State} (hfg : s.fg = .idle) (hframe : NextFrameWhole s) : ∃ t, hostTake s = .next t := by
  unfold hostTake
  split
  · exact ⟨_, rfl⟩
  · exact ⟨_, rfl⟩
  · exact ⟨_, rfl⟩
  · rename_i bytes rest hin
    obtain ⟨i, hd⟩ := hframe bytes rest hin
    simp only [hd]
    exact exec_next (.inl hfg)

theorem fetchRequest_next {s : State} (hfg : s.fg = .idle) (hframe : NextFrameWhole s) :
    ∃ t, fetchRequest s = .next t := by
  unfold fetchRequest
  split
  · exact exec_next (.inl hfg)
  · split
    · exact ⟨_, rfl⟩
    · exact hostTake_next hfg hframe
  · exact hostTake_next hfg hframe

theorem hostAct_next (op : HostOp) {s : State} (hfg : s.fg = .idle) : ∃ t, hostAct op s = .next t := by
  by_cases hissue : ∃ r, op = .issue r
  · obtain ⟨r, rfl⟩ := hissue
    exact exec_next (.inl hfg)
  · exact ⟨_, hostAct_local (not_exists.1 hissue) s⟩

theorem fgTurn_next {s : State} (hframe : NextFrameWhole s) : ∃ t, fgTurn s = .next t := by
  cases hfg : s.fg with
  | busy i m loc =>
    rw [fgTurn_busy hfg]
    exact exec_next (.inr ⟨m, loc, hfg⟩)
  | idle =>
    cases hprog : s.hostProg with
    | nil =>
      rw [fgTurn_fetch hfg hprog]
      exact fetchRequest_next hfg hframe
    | cons op ops =>
      rw [fgTurn_prog hfg hprog]
      exact hostAct_next op hfg

/-- Only FG's turn depends on the frame: every other agent's is an event or writes the state outright. -/
theorem runTurn_next (τ : Turn) {s : State} (hframe : NextFrameWhole s) : ∃ t, runTurn τ s = .next t := by
  cases τ with
  | fg k => exact fgTurn_next (s := { s with quota := k }) hframe
  | periph sample =>
    cases sample with
    | none => exact exec_event_next (i := .evXferEnd) rfl
    | some v => exact exec_event_next (i := .sampleFrame v) rfl
  | edge => exact exec_event_next (i := .evEdge) rfl
  | platform => exact exec_event_next (i := .evReset) rfl
  | irq src => exact ⟨_, rfl⟩
  | slave bytes => exact ⟨_, rfl⟩
  | host m => exact ⟨_, rfl⟩

/-- Settles O42: taking the next turn leaves HOST's inputs, and every turn answers. -/
theorem noErrorStopsTheMachine : Obligations.NoErrorStopsTheMachine := by
  intro s hframe
  obtain ⟨turns, draws, hnext⟩ := nextTurn_state s
  rw [step, hnext]
  exact runTurn_next (nextTurn s).1 (s := { s with turns := turns, draws := draws }) hframe

end Sys2Proof.Machine
end

section
/-! PROOF. What EV.RESET leaves and what it keeps (spec/70_reset_and_hazards.md R300, log 12), and the invariants right
after reset under the machine's parameters (R7, R45, R310). -/

namespace Sys2Proof.Machine

/-! ### EV.RESET -/

theorem exec_evReset (s : State) : exec .evReset s = .next (resetEvent s) := rfl

/-- Every line is high after reset, and an index that names no line reads high as well. -/
theorem levelOf_initial (p : Params) (i : Nat) : levelOf i (State.initial p) = true := by
  by_cases hi : i < p.nCs <;> simp [levelOf, State.initial, hi]

/-- Settles O40: the event answers the reset state of R300 but for the outside world; the lines are all high, and the
stores are empty, so each of their cells is unknown. -/
theorem resetReappliesTheResetState : Obligations.ResetReappliesTheResetState := by
  intro s
  have hlines : (resetEvent s).csLevel.length = s.params.nCs := List.length_replicate
  have hhigh : ∀ i, levelOf i (resetEvent s) = true := levelOf_initial s.params
  have hcells : ∀ j, Cells.read (resetEvent s).tx j = none ∧ Cells.read (resetEvent s).rx j = none ∧
      Cells.read (resetEvent s).record j = none := fun j => ⟨Cells.read_nil j, Cells.read_nil j, Cells.read_nil j⟩
  refine ⟨resetEvent s, exec_evReset s, rfl, rfl, rfl, rfl, ⟨hlines, hhigh⟩, rfl, rfl, rfl, rfl, rfl, hcells, ?_⟩
  simp [resetEvent, State.initial]

/-- Settles O41: the event takes over the outside world's fields, and of HOST's clears the program alone. -/
theorem resetKeepsTheOutsideWorld : Obligations.ResetKeepsTheOutsideWorld := by
  intro s
  refine ⟨resetEvent s, exec_evReset s, ?_⟩
  simp [resetEvent, State.initial]

/-! ### The machine right after reset -/

/-- A line index reduced below N_CS stays below it in its byte. -/
theorem toNat_ofNat_mod_lt (cs n : Nat) : (BitVec.ofNat 8 (cs % (n + 1))).toNat < n + 1 := by
  rw [BitVec.toNat_ofNat]
  exact (Nat.mod_le _ _).trans_lt (Nat.mod_lt cs n.succ_pos)

theorem legal_iff {p : Params} : p.legal = true ↔
    (1 ≤ p.nCs ∧ p.nCs ≤ 255) ∧ (5 ≤ p.bufCap ∧ p.bufCap ≤ 2 ^ 32 - 1) ∧
      (1 ≤ p.recordCap ∧ p.recordCap ≤ 99998) ∧ p.csReg.toNat < p.nCs ∧ p.csCap.toNat < p.nCs := by
  simp only [Params.legal, Bool.and_eq_true, decide_eq_true_eq, and_assoc]

/-- Whatever the implementation's parameters are, the machine's are in the ranges of R7 (log 1). -/
theorem params_legal : Config.params.legal = true := by
  have hnCs := Config.raw.nCs.isLt
  have hbuf := Config.raw.bufCap.isLt
  have hrec := Config.raw.recordCap.isLt
  have hreg := toNat_ofNat_mod_lt Config.raw.csReg Config.raw.nCs
  have hcap := toNat_ofNat_mod_lt Config.raw.csCap Config.raw.nCs
  simp only [legal_iff, Config.params]
  omega

/-- No line is low after reset (R134). -/
theorem mutualExclusion_initial (p : Params) : MutualExclusion (State.initial p) :=
  fun _ => (lowCount_initial p).trans_le (Nat.zero_le 1)

/-- The counter starts at the target (R45 (iv)). -/
theorem counterBounded_initial (p : Params) : CounterBounded (State.initial p) := .inr (Nat.zero_le _)

/-- No slot is counted yet (R45 (v)). -/
theorem recordFilled_initial (p : Params) : RecordFilled (State.initial p) := fun i hi => absurd hi (Nat.not_lt_zero i)

/-- No transfer is in flight, and FG is in none. -/
theorem transferFlags_initial (p : Params) : TransferFlags (State.initial p) :=
  .of_nothingEnded ⟨rfl, rfl, rfl⟩ (sync := nofun) (valid := rfl) (starting := nofun)
    (named := fun k hk => absurd hk.symm (asyncPeriph_ne_idle k))

/-- Settles O44: the reset state has each invariant under any parameters, and its shape under legal ones, as the
machine's are. -/
theorem resetIsWellFormed : Obligations.ResetIsWellFormed :=
  ⟨State.initial_wf params_legal, mutualExclusion_initial _, counterBounded_initial _, recordFilled_initial _,
    transferFlags_initial _⟩

end Sys2Proof.Machine
end
